-- ==== Sys2Proof/Word.lean ====
section
/-! DEFINITION. The word and byte types of the block (spec/00_scope.md R9), the two polarities (R10) and the plainest
arithmetic on them. -/

namespace Sys2Proof

/-- A word of the host port, of a pulse segment and of the command register: 32 bits (R9, R70). -/
abbrev Word := BitVec 32

/-- An element of `TXD`, `RXD` and `PKT`: 8 bits (R9, R30). -/
abbrev Byte := BitVec 8

/-- A word index of the host port: index k names the k-th 32-bit word of the window (R56). -/
abbrev Index := BitVec 16

/-- The two polarities of a pulse (R10). Which of them lights the emitter is outside the block (U20). -/
inductive Polarity where
  | space
  | mark
deriving DecidableEq, Repr, Inhabited

/-- As a number, mark = 1 and space = 0 (R10). -/
def Polarity.toNat : Polarity → Nat
  | .space => 0
  | .mark => 1

/-- The polarity of one bit: a bit 1 is a mark, a bit 0 a space (R10). -/
def Polarity.ofBit (b : Bool) : Polarity :=
  if b then .mark else .space

end Sys2Proof
end

