-- ==== Sys2Proof/Config.lean ====
section
/-! DEFINITION. What one instance of the block fixes (the parameters of spec/00_scope.md R7 and the constants the source
fixes), the answer sets of the Transport port (R151 to R154), and the free values: constants with no body, of which
nothing can be proved. -/

namespace Sys2Proof

/-- The parameters of one instance, left open by the source (R7, U1 to U3). They do not change while the block runs. -/
structure Params where
  /-- BIT_PERIOD, in the Transport's time unit. -/
  bitPeriod  : Nat
  /-- MARK_ADJ, added once to each emitted mark segment (R78). -/
  markAdj    : Int
  /-- SPACE_ADJ, added once to each emitted space segment (R78). -/
  spaceAdj   : Int
  /-- MAX_PAYLOAD, the entries of `TXD` and of `RXD`. -/
  maxPayload : Nat
  /-- PLS_CAP, the entries of `PLS`. -/
  plsCap     : Nat
deriving DecidableEq, Repr, Inhabited

/-- PKT_CAP = 2·MAX_PAYLOAD + 5: derived, not free (R7). -/
def Params.pktCap (P : Params) : Nat := 2 * P.maxPayload + 5

/-- The defaults the spec's test vectors use (R7, R8). DESIGN CHOICE (log 1): `State.reset` is an instance with these. -/
def Params.default : Params :=
  { bitPeriod := 417, markAdj := 0, spaceAdj := 0, maxPayload := 16, plsCap := 445 }

namespace Config

/-- MAX_RUN: the largest bit count one pulse may stand for in the decoder (R7, R112). -/
def maxRun : Nat := 10

/-- TAIL_BITS: the length in bit periods of the synthetic mark (R7, R165). -/
def tailBits : Nat := 10

/-- SEG_WORST: the capacity in segments the pulse encoder requires before it writes one byte (R7, R101). -/
def segWorst : Nat := 12

/-- HEADER: the three packet header bytes, in this order (R7, R74). -/
def header0 : Byte := 0x55
def header1 : Byte := 0xFF
def header2 : Byte := 0x00

/-- PKT_OVERHEAD: the packet bytes that are not payload pairs (R7). -/
def pktOverhead : Nat := 5

end Config

/-! ## The answer sets of the Transport port -/

/-- What `T.open()` may answer (R151). -/
inductive OpenAnswer where
  | ok | alreadyOpen | notFound | readOnly | notSupported
deriving DecidableEq, Repr, Inhabited

/-- What `T.close()` may answer: `Ok` and nothing else (R152). -/
inductive CloseAnswer where
  | ok
deriving DecidableEq, Repr, Inhabited

/-- What `T.reset()` may answer (R153). -/
inductive ResetAnswer where
  | ok | notOpen | deviceError
deriving DecidableEq, Repr, Inhabited

/-- What `T.send(pulses)` may answer (R154). -/
inductive SendAnswer where
  | ok | notOpen | deviceError
deriving DecidableEq, Repr, Inhabited

/-- What `T.receive(max)` may answer (R154): pulse words, possibly none (the quiet period), or one of three errors. -/
inductive ReceiveAnswer where
  | pulses (words : List Word)
  | notOpen | deviceError | bufferFull
deriving DecidableEq, Repr, Inhabited

/-! ## Free values (log 5 and log 7) -/

/-- The k-th answer of the Transport to an open request that no script entry determines: a free value in the set of R151. -/
opaque Config.openAnswer : Nat → OpenAnswer

/-- The k-th free answer to a reset request, in the set of R153. -/
opaque Config.resetAnswer : Nat → ResetAnswer

/-- The k-th free answer to a send request, in the set of R154. -/
opaque Config.sendAnswer : Nat → SendAnswer

/-- The k-th free answer to a receive request, in the set of R154 before duty T3 bounds its length. -/
opaque Config.receiveAnswer : Nat → ReceiveAnswer

/-- The k-th unspecified word that a host read returns while the block is busy (R58, U5). -/
opaque Config.busyWord : Nat → Word

end Sys2Proof
end

