-- ==== Sys2Proof/Machine/State.lean ====
section
/-! DEFINITION. The state of the block as plain data (spec/10_state.md R20 to R32), the model's own fields for what
crosses the host port and the Transport port, the reasons a step can stop, and the state after hardware reset
(spec/70_reset_and_hazards.md R210). -/

namespace Sys2Proof.Machine

/-- The kinds of R180, used by `STATUS.CODE`, `DEC_OUT.KIND` and `TXN_ERR.WORST`. Their numbers are `codeNumber`. -/
inductive Code where
  | ok | bufferTooSmall | breakDetected | framingError | parityError | notAPacket
  | notOpen | alreadyOpen | notFound | readOnly | notSupported | deviceError
  | bufferFull | noReply | recvError | refused
deriving DecidableEq, Repr, Inhabited

/-- The values of `SEQ_PHASE` that occur (R23); 10 to 15 never do. Their numbers are `phaseNumber`. -/
inductive Phase where
  | idle | encPkt | encPls | send | recv | tail | decPls | decPkt | check | exec
deriving DecidableEq, Repr, Inhabited

/-- The four buffers (R30). -/
inductive Buffer where
  | txd | rxd | pkt | pls
deriving DecidableEq, Repr

/-- The decoder state: `DEC_POS`, `DEC_PAR`, `DEC_DATA` (R27). -/
structure Decoder where
  pos  : BitVec 4
  par  : BitVec 4
  data : Byte
deriving DecidableEq, Repr

/-- The awaiting-start state (R27, R210). -/
def Decoder.initial : Decoder := { pos := 0, par := 0, data := 0 }

/-- The fields of `DEC_OUT` (R24). -/
structure DecOut where
  byte : Byte
  bv   : Bool
  pe   : Bool
  fe   : Bool
  bd   : Bool
  kind : Code
deriving DecidableEq, Repr

/-- No byte, no error: the source's `NoByte` (R110). -/
def DecOut.none : DecOut := { byte := 0, bv := false, pe := false, fe := false, bd := false, kind := .ok }

/-- The fields of `TXN_ERR` (R25). -/
structure TxnErr where
  pe    : Bool
  fe    : Bool
  bd    : Bool
  ov    : Bool
  worst : Code
deriving DecidableEq, Repr

/-- `TXN_ERR` = 0 (R25). -/
def TxnErr.clear : TxnErr := { pe := false, fe := false, bd := false, ov := false, worst := .ok }

/-- Memory as (address, byte) pairs, addresses strictly rising; a byte that is not listed has no value (R32, U6; log 8).
The byte address of lane k of word index x is 4·x + k (log 9). -/
abbrev Memory := List Host.Cell

/-- The canonical form: addresses strictly rising. No entry can equal what an unlisted address reads as, since that is
no value. -/
def Memory.wf : Memory → Bool
  | [] => true
  | [_] => true
  | (a, _) :: (b, v) :: m => decide (a < b) && Memory.wf ((b, v) :: m)

/-- What reaches the block from outside between two moves of its own (log 4). -/
inductive Input where
  /-- The host leaves the block one move. -/
  | wait
  /-- The host reads the word at an index (R54). -/
  | read (i : Index)
  /-- The host writes a word at an index (R54). -/
  | write (i : Index) (w : Word)
  /-- `rst_n` is asserted and released (R210, R211). -/
  | reset
deriving DecidableEq, Repr

/-- The requests the block makes to the Transport (R11, R150). -/
inductive Request where
  | openLink | closeLink | resetLink
  | send (pulses : List Word)
  | receive (max : Nat)
deriving DecidableEq, Repr

/-- The answers of the Transport that are already determined, oldest first, by kind of request. A request whose list is
empty is answered by a free value of Config (R150; log 5). -/
structure Transport where
  opens    : List OpenAnswer
  resets   : List ResetAnswer
  sends    : List SendAnswer
  receives : List ReceiveAnswer
deriving DecidableEq, Repr

/-- No answer determined. -/
def Transport.free : Transport := { opens := [], resets := [], sends := [], receives := [] }

/-- Why a step stops with a fault. -/
inductive Fault where
  /-- An operation, or a host read while idle, reads a buffer element that nothing has written since reset. Raised by
  KENC, KDEC, COMMAND and the host port. Safe: the spec gives such a read no defined result (R32, U6) and the real
  memory would answer some word. -/
  | unwrittenElement
deriving DecidableEq, Repr

/-- Why a step has no meaning. -/
inductive Refusal where
  /-- Raised by no meaning: an arm of `exec` whose instruction has no meaning yet. Safe. -/
  | notModelled (mnemonic : String)
  /-- The Transport's scripted answer to a receive carries more pulses than were asked for, against duty T3. Raised by
  the RECV phase of COMMAND. The spec's model has no step for it (R150, U9); listed as an assumption that errs toward
  proving, so unsafe for a Transport that breaks T3 (log 6). -/
  | transportOverrun
deriving DecidableEq, Repr

/-- The whole state. The fields down to `mem` are the spec's (R20, and `cmd` as implied by R23); the last five are the
model's own (see INVENTORY.md). -/
structure State where
  /-- The instance parameters, read through the `P_` registers (R7, R20). -/
  params    : Params
  /-- STATUS.CODE (R26). -/
  code      : Code
  /-- STATUS.BUSY (R26). -/
  busy      : Bool
  /-- SEQ_PHASE (R23). -/
  phase     : Phase
  /-- The command word of the running operation. DEDUCED (log 2): SEQ_PHASE alone does not say which operation runs. -/
  cmd       : Word
  arg0      : Word
  arg1      : Word
  result    : Word
  /-- DEC_OUT (R24). -/
  decOut    : DecOut
  /-- DEC_POS, DEC_PAR, DEC_DATA (R27). -/
  dec       : Decoder
  txnOpcode : Byte
  /-- TXN_ERR (R25). -/
  txnErr    : TxnErr
  txCount   : BitVec 16
  rxCount   : BitVec 16
  rxBytes   : BitVec 16
  /-- TXD, RXD, PKT, PLS (R30). -/
  mem       : Memory
  /-- The word the last host read returned. -/
  readData  : Word
  /-- Host accesses and resets still to come, oldest first. -/
  inputs    : List Input
  /-- The Transport's determined answers. -/
  transport : Transport
  /-- The requests made to the Transport, newest first. -/
  requests  : List Request
  /-- How many free values have been drawn. -/
  draws     : Nat
deriving DecidableEq, Repr

/-- An instance with the given parameters right after hardware reset: every register 0 but the `P_` registers, the
buffers with no value (R20, R32, R210). -/
def State.resetWith (P : Params) : State :=
  { params := P
    code := .ok, busy := false, phase := .idle, cmd := 0
    arg0 := 0, arg1 := 0, result := 0
    decOut := DecOut.none, dec := Decoder.initial
    txnOpcode := 0, txnErr := TxnErr.clear, txCount := 0, rxCount := 0, rxBytes := 0
    mem := []
    readData := 0, inputs := [], transport := Transport.free, requests := [], draws := 0 }

/-- The machine right after reset, with the default parameters (log 1). -/
def State.reset : State := State.resetWith Params.default

end Sys2Proof.Machine
end

