-- ==== Sys2Proof/Machine/Operands.lean ====
section
/-! DEFINITION. Every operand form of the eight operations: how each is taken from `ARG0` and `ARG1`, and the capacity
an operation works with (spec/30_encoding.md R82, R83). The other operand form is a buffer element (Machine/Ops.lean). -/

namespace Sys2Proof.Machine

/-- PENC: the byte, `ARG0[7:0]`; bits [31:8] are ignored (R82). -/
def pencByte (s : State) : Byte := s.arg0.setWidth 8

/-- PDEC: the pulse word, `ARG0` whole (R82). -/
def pdecPulse (s : State) : Word := s.arg0

/-- KENC, KDEC and COMMAND: a length, `ARG0` as an unsigned number (R82). -/
def lengthOperand (s : State) : Nat := s.arg0.toNat

/-- PENC: `cap = min(ARG1, PLS_CAP)` (R83). -/
def pencCap (s : State) : Nat := min s.arg1.toNat s.params.plsCap

/-- KENC: `cap = min(ARG1, PKT_CAP)` (R83). -/
def kencCap (s : State) : Nat := min s.arg1.toNat s.params.pktCap

/-- KDEC and COMMAND: `cap = min(ARG1, MAX_PAYLOAD)` (R83). -/
def payloadCap (s : State) : Nat := min s.arg1.toNat s.params.maxPayload

end Sys2Proof.Machine
end

