-- ==== Sys2Proof/Syntax.lean ====
section
/-! DEFINITION. The operations of the block: one constructor per row of spec/opcode_table.json. An operation takes no
operand from its command word; its operands stand in `ARG0`, `ARG1` and the buffers (spec/30_encoding.md R80, R82). -/

namespace Sys2Proof

/-- The eight operations a command word selects (R80). OPEN, CLOSE and RESET are `openLink`, `closeLink`, `resetLink`
here, since `open` is a word of Lean. -/
inductive Instr where
  /-- PENC: encode one byte into pulses (R100). -/
  | penc
  /-- PDEC: decode one pulse (R110). -/
  | pdec
  /-- KENC: encode a packet (R130). -/
  | kenc
  /-- KDEC: decode a packet (R136). -/
  | kdec
  /-- OPEN: one open request to the Transport (R155). -/
  | openLink
  /-- CLOSE: one close request to the Transport (R156). -/
  | closeLink
  /-- RESET: one reset request to the Transport (R157). -/
  | resetLink
  /-- COMMAND: one request and reply exchange (R160). -/
  | command
deriving DecidableEq, Repr

end Sys2Proof
end

