-- ==== Sys2Proof/WellFormed.lean ====
section
/-! DEFINITION. Well-formedness: of an operation, of a command word (spec/30_encoding.md R80, R84), of the instance
parameters (spec/00_scope.md R7) and of a Transport answer (spec/42_transaction.md R150, duty T3). -/

namespace Sys2Proof

/-- Every operation is well formed: its row has no field but the operation code (R80). -/
def Instr.wf : Instr → Bool
  | .penc => true
  | .pdec => true
  | .kenc => true
  | .kdec => true
  | .openLink => true
  | .closeLink => true
  | .resetLink => true
  | .command => true

/-- The upper 28 bits of a command word must be zero (R80). -/
def commandUpperZero (w : Word) : Bool := w.toNat / 16 == 0

/-- The operation code, bits [3:0], must be one of the eight of R80; the eight others are reserved (R84). -/
def commandOpMapped (w : Word) : Bool :=
  [0x1, 0x2, 0x3, 0x4, 0x8, 0x9, 0xA, 0xB].contains (w.toNat % 16)

/-- A command word that selects an operation (R80, R84). -/
def commandWordWf (w : Word) : Bool := commandUpperZero w && commandOpMapped w

/-- The legal ranges of the parameters (R7). -/
structure Params.Legal (P : Params) : Prop where
  bitPeriod_pos  : 1 ≤ P.bitPeriod
  bitPeriod_le   : P.bitPeriod ≤ 65535
  markAdj_small  : 2 * P.markAdj.natAbs < P.bitPeriod
  spaceAdj_small : 2 * P.spaceAdj.natAbs < P.bitPeriod
  maxPayload_pos : 1 ≤ P.maxPayload
  maxPayload_le  : P.maxPayload ≤ 1024
  plsCap_ge      : 12 * P.pktCap + 1 ≤ P.plsCap
  plsCap_le      : P.plsCap ≤ 32768

/-- The same ranges as a check that evaluates. -/
def Params.legal (P : Params) : Bool :=
  decide (1 ≤ P.bitPeriod) && decide (P.bitPeriod ≤ 65535) &&
  decide (2 * P.markAdj.natAbs < P.bitPeriod) && decide (2 * P.spaceAdj.natAbs < P.bitPeriod) &&
  decide (1 ≤ P.maxPayload) && decide (P.maxPayload ≤ 1024) &&
  decide (12 * P.pktCap + 1 ≤ P.plsCap) && decide (P.plsCap ≤ 32768)

/-- Duty T3: an answer to `T.receive(max)` carries at most max pulse words (R150). -/
def ReceiveAnswer.withinDuty (max : Nat) : ReceiveAnswer → Bool
  | .pulses ws => decide (ws.length ≤ max)
  | .notOpen => true
  | .deviceError => true
  | .bufferFull => true

end Sys2Proof
end

