-- ==== Sys2Proof/Decode.lean ====
section
/-! DEFINITION. The command word decoder, total on every 32-bit word and rejecting by name, and the encoder
(spec/30_encoding.md R80, R84; spec/opcode_table.json). A command word is written whole by the host (R52), so there is
no sequence of bytes to take apart. -/

namespace Sys2Proof

/-- Why a command word selects no operation (R84). -/
inductive DecodeError where
  /-- Some bit of c[31:4] is not zero. -/
  | reservedBits
  /-- OP is 0x0, 0x5, 0x6, 0x7, 0xC, 0xD, 0xE or 0xF. -/
  | reservedOp
deriving DecidableEq, Repr

/-- The operation that OP = c[3:0] selects (R80). -/
def decodeOp (op : Nat) : Except DecodeError Instr :=
  match op with
  | 0x1 => .ok .penc
  | 0x2 => .ok .pdec
  | 0x3 => .ok .kenc
  | 0x4 => .ok .kdec
  | 0x8 => .ok .openLink
  | 0x9 => .ok .closeLink
  | 0xA => .ok .resetLink
  | 0xB => .ok .command
  | _ => .error .reservedOp

/-- The operation a command word selects: bits c[31:4] must be zero, OP = c[3:0] (R80, R84). -/
def decode (c : Word) : Except DecodeError Instr :=
  if c.toNat / 16 = 0 then decodeOp (c.toNat % 16) else .error .reservedBits

/-- The command word of an operation (R80, and "match" of spec/opcode_table.json). -/
def encode : Instr → Word
  | .penc => 0x00000001
  | .pdec => 0x00000002
  | .kenc => 0x00000003
  | .kdec => 0x00000004
  | .openLink => 0x00000008
  | .closeLink => 0x00000009
  | .resetLink => 0x0000000A
  | .command => 0x0000000B

/-- The command word whose low `nbits` bits are those of `w`, the bits above zero. -/
def tableWord (nbits w : Nat) : Word := BitVec.ofNat 32 (w % 2 ^ nbits)

/-- The operation the decoder reads from a table row's word. -/
def decodeTableWord (nbits w : Nat) : Option Instr := (decode (tableWord nbits w)).toOption

end Sys2Proof
end

