-- ==== Sys2Proof/Machine/Ops.lean ====
section
/-! DEFINITION. The operations every meaning shares: the pulse word (spec/30_encoding.md R70), the address map
(spec/10_state.md R20), reading and writing buffer elements (spec/00_scope.md R11), starting and finishing an operation
(R11, R26, R189), the null operation (R84) and hardware reset (R210, R211). The block has no traps (R189), so ending
with a status code is what takes the place of taking an exception, and there is no return from one (R190). -/

namespace Sys2Proof.Machine

/-! ## The pulse word -/

/-- `pulse(p, d)`: POL in bit 31 (1 = mark), DUR in bits 30:0 (R70). -/
def pulse (p : Polarity) (d : Nat) : Word := BitVec.ofNat 32 (p.toNat * 2 ^ 31 + d % 2 ^ 31)

/-- `pol(w) = w[31]` (R70). -/
def pol (w : Word) : Polarity := if w.toNat < 2 ^ 31 then .space else .mark

/-- `dur(w) = w[30:0]` (R70). -/
def dur (w : Word) : Nat := w.toNat % 2 ^ 31

/-! ## The address map -/

/-- The first word index of a buffer (R20, R55). -/
def bufferBase : Buffer → Nat
  | .txd => 0x1000
  | .rxd => 0x2000
  | .pkt => 0x4000
  | .pls => 0x8000

/-- The number of elements of a buffer (R20, R30). -/
def bufferCap (P : Params) : Buffer → Nat
  | .txd => P.maxPayload
  | .rxd => P.maxPayload
  | .pkt => P.pktCap
  | .pls => P.plsCap

/-- The byte address of element i of a buffer; an element of `PLS` fills the four bytes from there (log 9). -/
def elemAddr (b : Buffer) (i : Nat) : Nat := 4 * (bufferBase b + i)

/-! ## Memory -/

/-- The byte at an address, if anything has been written there. -/
def readByte : Memory → Nat → Option Byte
  | [], _ => none
  | (a, v) :: m, x => if a = x then some v else readByte m x

/-- Write one byte, keeping the addresses strictly rising. -/
def writeByte : Memory → Nat → Byte → Memory
  | [], x, v => [(x, v)]
  | (a, w) :: m, x, v =>
    if x < a then (x, v) :: (a, w) :: m
    else if a = x then (x, v) :: m
    else (a, w) :: writeByte m x v

/-- Lane k of a word: bits 8k+7 down to 8k. -/
def byteLane (w : Word) (k : Nat) : Byte := BitVec.ofNat 8 (w.toNat / 2 ^ (8 * k))

/-- The word whose lanes are the four bytes. -/
def joinLanes (b0 b1 b2 b3 : Byte) : Word :=
  BitVec.ofNat 32 (b0.toNat + 2 ^ 8 * b1.toNat + 2 ^ 16 * b2.toNat + 2 ^ 24 * b3.toNat)

/-- The word in the four bytes from address x, if all four have been written. -/
def readWord (m : Memory) (x : Nat) : Option Word :=
  match readByte m x, readByte m (x + 1), readByte m (x + 2), readByte m (x + 3) with
  | some b0, some b1, some b2, some b3 => some (joinLanes b0 b1 b2 b3)
  | _, _, _, _ => none

/-- Write a word into the four bytes from address x. -/
def writeWord (m : Memory) (x : Nat) (w : Word) : Memory :=
  writeByte (writeByte (writeByte (writeByte m x (byteLane w 0)) (x + 1) (byteLane w 1)) (x + 2) (byteLane w 2))
    (x + 3) (byteLane w 3)

/-- `TXD[i]`, `RXD[i]`, `PKT[i]` read (R11); none when nothing has been written there (U6). -/
def readElem (m : Memory) (b : Buffer) (i : Nat) : Option Byte := readByte m (elemAddr b i)

/-- `RXD[i] <- v`, `PKT[i] <- v`, `TXD[i] <- v` (R11). -/
def writeElem (m : Memory) (b : Buffer) (i : Nat) (v : Byte) : Memory := writeByte m (elemAddr b i) v

/-- `PLS[i]` read (R11). -/
def readPulse (m : Memory) (i : Nat) : Option Word := readWord m (elemAddr .pls i)

/-- `PLS[i] <- w` (R11). -/
def writePulse (m : Memory) (i : Nat) (w : Word) : Memory := writeWord m (elemAddr .pls i) w

/-- `TXD[i..i+n)`, `RXD[i..i+n)` or `PKT[i..i+n)`, in order; none if one of the elements has no value. -/
def readElems (m : Memory) (b : Buffer) : Nat → Nat → Option (List Byte)
  | _, 0 => some []
  | i, n + 1 =>
    match readElem m b i with
    | none => none
    | some v =>
      match readElems m b (i + 1) n with
      | none => none
      | some vs => some (v :: vs)

/-- Write the bytes into a byte buffer from element i on, in order. -/
def writeElems (m : Memory) (b : Buffer) (i : Nat) : List Byte → Memory
  | [] => m
  | v :: vs => writeElems (writeElem m b i v) b (i + 1) vs

/-- Write the words into `PLS` from element i on, in order. -/
def writePulses (m : Memory) (i : Nat) : List Word → Memory
  | [] => m
  | w :: ws => writePulses (writePulse m i w) (i + 1) ws

/-- Read n elements of `PLS` from element i on, in order; none if one of them has no value. -/
def readPulses (m : Memory) : Nat → Nat → Option (List Word)
  | _, 0 => some []
  | i, n + 1 =>
    match readPulse m i with
    | none => none
    | some w =>
      match readPulses m (i + 1) n with
      | none => none
      | some ws => some (w :: ws)

/-! ## Starting and ending an operation -/

/-- The first phase of the operation a command word selects: `ENC_PKT` for COMMAND, `EXEC` for any other (R23, R26). -/
def firstPhase (c : Word) : Phase :=
  match decode c with
  | .ok .command => .encPkt
  | _ => .exec

/-- A write of c to `CMD` while idle: `STATUS.BUSY <- 1`, `STATUS.CODE <- 0`, `SEQ_PHASE` to the first phase (R26). -/
def startOperation (c : Word) (s : State) : State :=
  { s with cmd := c, busy := true, code := .ok, phase := firstPhase c }

/-- `finish(code)`: `STATUS.CODE <- code`, `STATUS.BUSY <- 0`, `SEQ_PHASE <- IDLE` (R11). -/
def finish (c : Code) (s : State) : State := { s with code := c, busy := false, phase := .idle }

/-- `RESULT <- n; finish(code)`. -/
def finishWith (n : Nat) (c : Code) (s : State) : State := finish c { s with result := BitVec.ofNat 32 n }

/-- A failing operation writes `RESULT <- 0` and finishes with its code (R189). -/
def fail (c : Code) (s : State) : State := finishWith 0 c s

/-- The operation a reserved command word starts: `RESULT <- 0; finish(Refused)` (R84). -/
def nullOperation (s : State) : State := fail .refused s

/-- An operation that read an element with no value has no next state (R32, U6). -/
def orUnwritten : Option State → Host.Outcome State Fault Refusal
  | some s => .next s
  | none => .fault .unwrittenElement

/-- Hardware reset (R210): every register at its reset value, the buffers unspecified. A running operation is abandoned
and no Transport request is made; what the outside holds stays as it is (R211). -/
def hardwareReset (s : State) : State :=
  { State.resetWith s.params with
    readData := s.readData, inputs := s.inputs, transport := s.transport, requests := s.requests, draws := s.draws }

end Sys2Proof.Machine
end

