-- ==== Sys2Proof/Machine/Packet.lean ====
section
/-! DEFINITION. The packet codec: KENC and KDEC (spec/41_packet_codec.md R130 to R143), and the functions `pack` and
`unpack` that COMMAND shares with them. -/

namespace Sys2Proof.Machine

/-! ## Encoding -/

/-- `~x = 255 − x` on a byte (R76). -/
def complement (x : Byte) : Byte := BitVec.ofNat 8 (255 - x.toNat)

/-- The three header bytes at `PKT[0..3)` (R130, R132). -/
def writeHeader (m : Memory) : Memory :=
  writeElem (writeElem (writeElem m .pkt 0 Config.header0) .pkt 1 Config.header1) .pkt 2 Config.header2

/-- The pairs of n payload bytes from `TXD[i]` on, with the running sum `sum` (R130). -/
def packPairs : Nat → Nat → Byte → Memory → Option (Memory × Byte)
  | 0, _, sum, m => some (m, sum)
  | n + 1, i, sum, m =>
    match readElem m .txd i with
    | none => none
    | some d =>
      packPairs n (i + 1) (sum + d)
        (writeElem (writeElem m .pkt (3 + 2 * i) d) .pkt (4 + 2 * i) (complement d))

/-- `pack(L, cap)` (R130, R131): the memory, the code and the packet length; none if an element of `TXD[0..L)` has no
value. -/
def pack (L cap : Nat) (m : Memory) : Option (Memory × Code × Nat) :=
  if cap < 2 * L + Config.pktOverhead then some (m, .bufferTooSmall, 0)
  else
    match packPairs L 0 0 (writeHeader m) with
    | none => none
    | some (m', sum) =>
      some (writeElem (writeElem m' .pkt (3 + 2 * L) sum) .pkt (4 + 2 * L) (complement sum), .ok,
        2 * L + Config.pktOverhead)

/-- KENC (R130): the packet of `TXD[0..ARG0)` into `PKT`. -/
def execKenc (s : State) : Host.Outcome State Fault Refusal :=
  orUnwritten
    (match pack (lengthOperand s) (kencCap s) s.mem with
     | none => none
     | some (m, c, n) => some (finishWith n c { s with mem := m }))

/-! ## Decoding -/

/-- One of the three header tests: the cursor moves on if the byte under it is h (R138). -/
def headerTest (m : Memory) (h : Byte) (cur : Nat) : Option Nat :=
  match readElem m .pkt cur with
  | none => none
  | some b => some (if b = h then cur + 1 else cur)

/-- The cursor after the three header tests (R138). -/
def headerCursor (m : Memory) : Option Nat :=
  match headerTest m Config.header0 0 with
  | none => none
  | some c1 =>
    match headerTest m Config.header1 c1 with
    | none => none
    | some c2 => headerTest m Config.header2 c2

/-- The pair scan over n pairs from `PKT[cur]` on, k bytes emitted so far with sum `sum` (R139, R140): the memory, the
code, the bytes emitted and their sum. -/
def unpackPairs (cap : Nat) : Nat → Nat → Nat → Byte → Memory → Option (Memory × Code × Nat × Byte)
  | 0, _, k, sum, m => some (m, .ok, k, sum)
  | n + 1, cur, k, sum, m =>
    match readElem m .pkt (cur + 1), readElem m .pkt cur with
    | some e, some d =>
      if e ≠ complement d then some (m, .notAPacket, 0, sum)
      else if cap ≤ k then some (m, .bufferTooSmall, 0, sum)
      else unpackPairs cap n (cur + 2) (k + 1) (sum + d) (writeElem m .rxd k d)
    | _, _ => none

/-- The checksum test and the test of its complement, in this order (R141). -/
def checksumCode (m : Memory) (len : Nat) (sum : Byte) : Option Code :=
  match readElem m .pkt (len - 2) with
  | none => none
  | some c =>
    if c ≠ sum then some .notAPacket
    else
      match readElem m .pkt (len - 1) with
      | none => none
      | some e => some (if e ≠ complement sum then .notAPacket else .ok)

/-- `unpack(len, cap)` (R136): the memory, the code and the payload length; none if an element it reads has no value. -/
def unpack (len cap : Nat) (m : Memory) : Option (Memory × Code × Nat) :=
  if 5 ≤ len ∧ cap < (len - 5) / 2 then some (m, .bufferTooSmall, 0)
  else if len < 5 ∨ (len - 5) % 2 = 1 then some (m, .notAPacket, 0)
  else
    match headerCursor m with
    | none => none
    | some cur =>
      if cur ≠ 3 then some (m, .notAPacket, 0)
      else
        match unpackPairs cap ((len - 5) / 2) 3 0 0 m with
        | none => none
        | some (m', .ok, k, sum) =>
          match checksumCode m' len sum with
          | none => none
          | some .ok => some (m', .ok, k)
          | some c => some (m', c, 0)
        | some (m', c, _, _) => some (m', c, 0)

/-- KDEC (R136): the payload of the packet `PKT[0..ARG0)` into `RXD`; `Refused` when `ARG0 > PKT_CAP` (R85). -/
def execKdec (s : State) : Host.Outcome State Fault Refusal :=
  if s.params.pktCap < lengthOperand s then .next (fail .refused s)
  else
    orUnwritten
      (match unpack (lengthOperand s) (payloadCap s) s.mem with
       | none => none
       | some (m, c, k) => some (finishWith k c { s with mem := m }))

end Sys2Proof.Machine
end

