-- ==== Sys2Proof/Machine/Flags.lean ====
section
/-! DEFINITION. Code and phase numbers, the severity order, and the words of the flag registers as a host reads them
(spec/10_state.md R20, R23 to R25; spec/30_encoding.md R81; spec/60_exceptions.md R180). -/

namespace Sys2Proof.Machine

/-- The numbers of the kinds (R180). -/
def codeNumber : Code → Nat
  | .ok => 0
  | .bufferTooSmall => 1
  | .breakDetected => 2
  | .framingError => 3
  | .parityError => 4
  | .notAPacket => 5
  | .notOpen => 6
  | .alreadyOpen => 7
  | .notFound => 8
  | .readOnly => 9
  | .notSupported => 10
  | .deviceError => 11
  | .bufferFull => 12
  | .noReply => 13
  | .recvError => 14
  | .refused => 15

/-- The values of `SEQ_PHASE` (R23). -/
def phaseNumber : Phase → Nat
  | .idle => 0
  | .encPkt => 1
  | .encPls => 2
  | .send => 3
  | .recv => 4
  | .tail => 5
  | .decPls => 6
  | .decPkt => 7
  | .check => 8
  | .exec => 9

/-- The most severe of the flagged pulse-layer errors: `BreakDetected` over `FramingError` over `ParityError` (R119). -/
def worst (pe fe bd : Bool) : Code :=
  if bd then .breakDetected else if fe then .framingError else if pe then .parityError else .ok

/-- `STATUS`: CODE[3:0], BUSY[8] (R81). -/
def statusWord (s : State) : Word := BitVec.ofNat 32 (codeNumber s.code + 2 ^ 8 * s.busy.toNat)

/-- `SEQ_PHASE`: [3:0] (R20). -/
def phaseWord (s : State) : Word := BitVec.ofNat 32 (phaseNumber s.phase)

/-- `DEC_OUT`: BYTE[7:0], BV[8], PE[9], FE[10], BD[11], KIND[15:12] (R20). -/
def decOutWord (o : DecOut) : Word :=
  BitVec.ofNat 32 (o.byte.toNat + 2 ^ 8 * o.bv.toNat + 2 ^ 9 * o.pe.toNat + 2 ^ 10 * o.fe.toNat + 2 ^ 11 * o.bd.toNat
    + 2 ^ 12 * codeNumber o.kind)

/-- `TXN_ERR`: PE[0], FE[1], BD[2], OV[3], WORST[7:4] (R20). -/
def txnErrWord (e : TxnErr) : Word :=
  BitVec.ofNat 32 (e.pe.toNat + 2 * e.fe.toNat + 2 ^ 2 * e.bd.toNat + 2 ^ 3 * e.ov.toNat + 2 ^ 4 * codeNumber e.worst)

/-- Each single-pulse decode of COMMAND ORs its flags into `TXN_ERR`; `WORST` follows the three flags set so far (R25). -/
def recordDecode (e : TxnErr) (o : DecOut) : TxnErr :=
  { pe := e.pe || o.pe, fe := e.fe || o.fe, bd := e.bd || o.bd, ov := e.ov
    worst := worst (e.pe || o.pe) (e.fe || o.fe) (e.bd || o.bd) }

/-- `TXN_ERR.OV <- 1`: a decoded byte found `PKT` full (R25, R166). -/
def recordOverrun (e : TxnErr) : TxnErr := { e with ov := true }

/-- `TXN_ERR[3:0] ≠ 0`: some error was recorded (R167). -/
def errorRecorded (e : TxnErr) : Bool := e.pe || e.fe || e.bd || e.ov

end Sys2Proof.Machine
end

