-- ==== Sys2Proof/Machine/Pulse.lean ====
section
/-! DEFINITION. The pulse codec: PENC and PDEC (spec/40_pulse_codec.md R100 to R121), and the functions `encode1` and
`decode1` that COMMAND shares with them. -/

namespace Sys2Proof.Machine

/-! ## Encoding -/

/-- The number of 1 bits of a byte. -/
def onesCount (b : Byte) : Nat :=
  (b.getLsbD 0).toNat + (b.getLsbD 1).toNat + (b.getLsbD 2).toNat + (b.getLsbD 3).toNat +
  (b.getLsbD 4).toNat + (b.getLsbD 5).toNat + (b.getLsbD 6).toNat + (b.getLsbD 7).toNat

/-- `P(b) = 1 − ((b[0] + … + b[7]) mod 2)` (R73). -/
def parityBit (b : Byte) : Polarity := if onesCount b % 2 = 0 then .mark else .space

/-- The 11-bit frame of a byte, position 0 to 10 (R72). -/
def frame (b : Byte) : List Polarity :=
  [.space,
   .ofBit (b.getLsbD 0), .ofBit (b.getLsbD 1), .ofBit (b.getLsbD 2), .ofBit (b.getLsbD 3),
   .ofBit (b.getLsbD 4), .ofBit (b.getLsbD 5), .ofBit (b.getLsbD 6), .ofBit (b.getLsbD 7),
   parityBit b, .mark]

/-- Equal neighbouring bits merged into runs, each a polarity with a bit count, in order (R100, R104). -/
def runs : List Polarity → List (Polarity × Nat)
  | [] => []
  | p :: ps =>
    match runs ps with
    | [] => [(p, 1)]
    | (q, k) :: rest => if p = q then (q, k + 1) :: rest else (p, 1) :: (q, k) :: rest

/-- ADJ(p) (R78). -/
def adj (P : Params) : Polarity → Int
  | .mark => P.markAdj
  | .space => P.spaceAdj

/-- The duration of a run of k bits: `k·BIT_PERIOD + ADJ(p)` (R78, R105). -/
def runDuration (P : Params) (p : Polarity) (k : Nat) : Nat := ((k : Int) * (P.bitPeriod : Int) + adj P p).toNat

/-- The segment of one run (R105). -/
def runSegment (P : Params) (r : Polarity × Nat) : Word := pulse r.1 (runDuration P r.1 r.2)

/-- The segments of a byte: what `encode1` writes (R100). -/
def segments (P : Params) (b : Byte) : List Word := (runs (frame b)).map (runSegment P)

/-- PENC (R100, R101): encode `ARG0[7:0]` at `PLS[0]`; `BufferTooSmall` when the capacity is under 12. -/
def execPenc (s : State) : Host.Outcome State Fault Refusal :=
  if pencCap s < Config.segWorst then .next (fail .bufferTooSmall s)
  else
    .next (finishWith (segments s.params (pencByte s)).length .ok
      { s with mem := writePulses s.mem 0 (segments s.params (pencByte s)) })

/-! ## Decoding -/

/-- The bit count of a pulse: `n(w) = (2·dur(w) + BIT_PERIOD) div (2·BIT_PERIOD)` (R77, R111). -/
def bitCount (P : Params) (w : Word) : Nat := (2 * dur w + P.bitPeriod) / (2 * P.bitPeriod)

/-- One more mark in the parity count, kept modulo 16 (R27). -/
def countMark (par : BitVec 4) (p : Polarity) : BitVec 4 :=
  match p with
  | .mark => par + 1
  | .space => par

/-- A data bit enters at the top: `(DEC_DATA div 2) + 128·p` (R115). -/
def shiftIn (data : Byte) (p : Polarity) : Byte := BitVec.ofNat 8 (data.toNat / 2 + 128 * p.toNat)

/-- One bit of a pulse through the frame machine (R110): the start bit (R114), the data bits (R115), the parity bit
(R116), the stop bit (R117). `KIND` is left for the end of the call. -/
def stepBit (p : Polarity) (x : Decoder × DecOut) : Decoder × DecOut :=
  if x.1.pos.toNat = 0 then
    match p with
    | .space => ({ pos := 1, par := 0, data := 0 }, x.2)
    | .mark => x
  else if x.1.pos.toNat ≤ 8 then
    ({ pos := x.1.pos + 1, par := countMark x.1.par p, data := shiftIn x.1.data p }, x.2)
  else if x.1.pos.toNat = 9 then
    ({ x.1 with pos := 10, par := countMark x.1.par p },
     { x.2 with
       bv := true, byte := x.1.data
       pe := if (countMark x.1.par p).toNat % 2 = 0 then true else x.2.pe })
  else
    ({ x.1 with pos := 0 },
     { x.2 with fe := if p = .space then true else x.2.fe })

/-- `repeat n times` (R110). -/
def stepBits (p : Polarity) : Nat → Decoder × DecOut → Decoder × DecOut
  | 0, x => x
  | n + 1, x => stepBits p n (stepBit p x)

/-- The clamp and the break (R112): a mark of more than 10 bits counts as 10; a space of more than 10 bits flags BD,
puts the decoder into its initial state and leaves one bit of itself. -/
def startPulse (P : Params) (w : Word) (d : Decoder) : Nat × Decoder × DecOut :=
  if bitCount P w ≤ Config.maxRun then (bitCount P w, d, DecOut.none)
  else
    match pol w with
    | .mark => (Config.maxRun, d, DecOut.none)
    | .space => (1, Decoder.initial, { DecOut.none with bd := true })

/-- `KIND` = the most severe of the flags (R24, R119). -/
def summarise (o : DecOut) : DecOut := { o with kind := worst o.pe o.fe o.bd }

/-- `decode1` (R110): the decoder state and the outcome after one pulse. -/
def decode1 (P : Params) (d : Decoder) (w : Word) : Decoder × DecOut :=
  let x := startPulse P w d
  let y := stepBits (pol w) x.1 x.2
  (y.1, summarise y.2)

/-- PDEC (R110): one pulse, `ARG0`, through the decoder; `RESULT` = BV; always `Ok`. -/
def execPdec (s : State) : Host.Outcome State Fault Refusal :=
  let y := decode1 s.params s.dec (pdecPulse s)
  .next (finishWith y.2.bv.toNat .ok { s with dec := y.1, decOut := y.2 })

end Sys2Proof.Machine
end

