-- ==== Sys2Proof/Machine/Transport.lean ====
section
/-! DEFINITION. The Transport port (spec/42_transaction.md R150 to R154, R158) and the three operations that make one
request each: OPEN, CLOSE, RESET (R155 to R157). A request takes the next determined answer of its kind; when none is
determined, the answer is a free value in the set the rules give (log 5). -/

namespace Sys2Proof.Machine

/-- "result-code translation" is the identity on kinds (R158). -/
def openCode : OpenAnswer → Code
  | .ok => .ok
  | .alreadyOpen => .alreadyOpen
  | .notFound => .notFound
  | .readOnly => .readOnly
  | .notSupported => .notSupported

/-- As `openCode` (R152, R158). -/
def closeCode : CloseAnswer → Code
  | .ok => .ok

/-- As `openCode` (R153, R158). -/
def resetCode : ResetAnswer → Code
  | .ok => .ok
  | .notOpen => .notOpen
  | .deviceError => .deviceError

/-- As `openCode` (R154, R158). -/
def sendCode : SendAnswer → Code
  | .ok => .ok
  | .notOpen => .notOpen
  | .deviceError => .deviceError

/-- A request leaves on the port. -/
def issue (r : Request) (s : State) : State := { s with requests := r :: s.requests }

/-- `T.open()` (R151). -/
def askOpen (s : State) : OpenAnswer × State :=
  match s.transport.opens with
  | a :: rest => (a, issue .openLink { s with transport := { s.transport with opens := rest } })
  | [] => (Config.openAnswer s.draws, issue .openLink { s with draws := s.draws + 1 })

/-- `T.close()` (R152). -/
def askClose (s : State) : CloseAnswer × State := (.ok, issue .closeLink s)

/-- `T.reset()` (R153). -/
def askReset (s : State) : ResetAnswer × State :=
  match s.transport.resets with
  | a :: rest => (a, issue .resetLink { s with transport := { s.transport with resets := rest } })
  | [] => (Config.resetAnswer s.draws, issue .resetLink { s with draws := s.draws + 1 })

/-- `T.send(ws)` (R154). -/
def askSend (ws : List Word) (s : State) : SendAnswer × State :=
  match s.transport.sends with
  | a :: rest => (a, issue (.send ws) { s with transport := { s.transport with sends := rest } })
  | [] => (Config.sendAnswer s.draws, issue (.send ws) { s with draws := s.draws + 1 })

/-- The part of a free answer that duty T3 allows (R150). -/
def boundAnswer (max : Nat) : ReceiveAnswer → ReceiveAnswer
  | .pulses ws => .pulses (ws.take max)
  | .notOpen => .notOpen
  | .deviceError => .deviceError
  | .bufferFull => .bufferFull

/-- `T.receive(max)` (R154). A determined answer may break duty T3; the RECV phase refuses it then. -/
def askReceive (max : Nat) (s : State) : ReceiveAnswer × State :=
  match s.transport.receives with
  | a :: rest => (a, issue (.receive max) { s with transport := { s.transport with receives := rest } })
  | [] => (boundAnswer max (Config.receiveAnswer s.draws), issue (.receive max) { s with draws := s.draws + 1 })

/-- OPEN: `r <- T.open(); RESULT <- 0; finish(r)` (R155). -/
def execOpen (s : State) : Host.Outcome State Fault Refusal :=
  let r := askOpen s
  .next (finishWith 0 (openCode r.1) r.2)

/-- CLOSE: `r <- T.close(); RESULT <- 0; finish(r)` (R156). -/
def execClose (s : State) : Host.Outcome State Fault Refusal :=
  let r := askClose s
  .next (finishWith 0 (closeCode r.1) r.2)

/-- RESET: `r <- T.reset(); RESULT <- 0; finish(r)` (R157). -/
def execReset (s : State) : Host.Outcome State Fault Refusal :=
  let r := askReset s
  .next (finishWith 0 (resetCode r.1) r.2)

end Sys2Proof.Machine
end

