-- ==== Sys2Proof/Machine/Transaction.lean ====
section
/-! DEFINITION. COMMAND (spec/42_transaction.md R160 to R171). A COMMAND runs over several steps, one per phase and one
per receive request, since a model may not merge two Transport requests (spec/10_state.md R23). `execCommand` is the
phase `ENC_PKT`; `continueCommand` is every later phase. The working variables of R160 stand in the registers between
two steps: t in `TX_COUNT`, c in `RX_COUNT`, m in `RX_BYTES`. -/

namespace Sys2Proof.Machine

/-- A count as its register holds it (R20). -/
def count16 (n : Nat) : BitVec 16 := BitVec.ofNat 16 n

/-- The assignments that open a COMMAND whose first request byte is `op` (R160, R161). -/
def openTransaction (op : Byte) (s : State) : State :=
  { s with
    phase := .encPkt, txnOpcode := op, txnErr := TxnErr.clear
    txCount := 0, rxCount := 0, rxBytes := 0 }

/-- COMMAND (R160), phase `ENC_PKT` (R161): `Refused` when L = 0 (R85); otherwise the opcode is remembered, the working
registers are cleared and the request is packed. The later phases are `continueCommand`. -/
def execCommand (s : State) : Host.Outcome State Fault Refusal :=
  if lengthOperand s = 0 then .next (fail .refused s)
  else
    orUnwritten
      (match readElem s.mem .txd 0 with
       | none => none
       | some op =>
         match pack (lengthOperand s) s.params.pktCap s.mem with
         | none => none
         | some (m, .ok, _) => some { openTransaction op s with mem := m, phase := .encPls }
         | some (m, c, _) => some (fail c { openTransaction op s with mem := m }))

/-- The segments of n packet bytes from `PKT[i]` on, written from `PLS[t]` on under the 12-segment test (R162). -/
def encodeBytes (P : Params) : Nat → Nat → Nat → Memory → Option (Memory × Code × Nat)
  | 0, _, t, m => some (m, .ok, t)
  | n + 1, i, t, m =>
    if P.plsCap - t < Config.segWorst then some (m, .bufferTooSmall, t)
    else
      match readElem m .pkt i with
      | none => none
      | some b => encodeBytes P n (i + 1) (t + (segments P b).length) (writePulses m t (segments P b))

/-- Phase `ENC_PLS` (R162): the whole packet, `plen = 2·L + 5` bytes, into pulses. -/
def phaseEncPls (s : State) : Host.Outcome State Fault Refusal :=
  orUnwritten
    (match encodeBytes s.params (2 * lengthOperand s + Config.pktOverhead) 0 0 s.mem with
     | none => none
     | some (m, .ok, t) => some { s with mem := m, txCount := count16 t, phase := .send }
     | some (m, c, _) => some (fail c { s with mem := m }))

/-- Phase `SEND` (R163): one request carries `PLS[0..t)`; an error is surfaced and ends the COMMAND. -/
def phaseSend (s : State) : Host.Outcome State Fault Refusal :=
  orUnwritten
    (match readPulses s.mem 0 s.txCount.toNat with
     | none => none
     | some ws =>
       let r := askSend ws s
       match sendCode r.1 with
       | .ok => some { r.2 with phase := .recv }
       | c => some (fail c r.2))

/-- The free room of `PLS` before the entry kept for the tail: `PLS_CAP − 1 − c` (R164). -/
def receiveRoom (s : State) : Nat := s.params.plsCap - 1 - s.rxCount.toNat

/-- The pulses of one answer go to `PLS[c..)` and are counted; a full buffer ends the COMMAND (R164). -/
def takePulses (ws : List Word) (s : State) : State :=
  let t :=
    { s with
      mem := writePulses s.mem s.rxCount.toNat ws
      rxCount := count16 (s.rxCount.toNat + ws.length) }
  if s.rxCount.toNat + ws.length = s.params.plsCap - 1 then fail .bufferFull t else t

/-- Phase `RECV`, one request (R164): an error is surfaced; the empty answer ends the loop, with `NoReply` if nothing
had arrived; pulses are taken. An answer longer than the room breaks duty T3 and has no step (R150, U9). -/
def phaseRecv (s : State) : Host.Outcome State Fault Refusal :=
  let r := askReceive (receiveRoom s) s
  match r.1 with
  | .notOpen => .next (fail .notOpen r.2)
  | .deviceError => .next (fail .deviceError r.2)
  | .bufferFull => .next (fail .bufferFull r.2)
  | .pulses [] => if s.rxCount.toNat = 0 then .next (fail .noReply r.2) else .next { r.2 with phase := .tail }
  | .pulses (w :: ws) =>
    if receiveRoom s < (w :: ws).length then .refused .transportOverrun
    else .next (takePulses (w :: ws) r.2)

/-- The synthetic tail: `pulse(mark, 10·BIT_PERIOD)`, no offset (R165). -/
def tailPulse (P : Params) : Word := pulse .mark (Config.tailBits * P.bitPeriod)

/-- Phase `TAIL` (R165). -/
def phaseTail (s : State) : Host.Outcome State Fault Refusal :=
  .next { s with mem := writePulse s.mem s.rxCount.toNat (tailPulse s.params), phase := .decPls }

/-- A decoded byte goes to `PKT[m]`; when `PKT` is full it is dropped and `OV` is set (R166). -/
def storeByte (b : Byte) (s : State) : State :=
  if s.rxBytes.toNat < s.params.pktCap then
    { s with mem := writeElem s.mem .pkt s.rxBytes.toNat b, rxBytes := count16 (s.rxBytes.toNat + 1) }
  else { s with txnErr := recordOverrun s.txnErr }

/-- One pulse of the burst through the decoder (R166). -/
def decodeIntoPacket (s : State) (w : Word) : State :=
  let y := decode1 s.params s.dec w
  let t := { s with dec := y.1, decOut := y.2, txnErr := recordDecode s.txnErr y.2 }
  if y.2.bv then storeByte y.2.byte t else t

/-- Phase `DEC_PLS` (R166, R167): all c + 1 pulses in order; a recorded error ends the COMMAND with `RecvError`. -/
def phaseDecPls (s : State) : Host.Outcome State Fault Refusal :=
  orUnwritten
    (match readPulses s.mem 0 (s.rxCount.toNat + 1) with
     | none => none
     | some ws =>
       let t := ws.foldl decodeIntoPacket { s with rxBytes := 0 }
       if errorRecorded t.txnErr then some (fail .recvError t) else some { t with phase := .decPkt })

/-- Phase `DEC_PKT` (R168): both packet-layer kinds become `RecvError`. -/
def phaseDecPkt (s : State) : Host.Outcome State Fault Refusal :=
  orUnwritten
    (match unpack s.rxBytes.toNat (payloadCap s) s.mem with
     | none => none
     | some (m, .ok, _) => some { s with mem := m, phase := .check }
     | some (m, _, _) => some (fail .recvError { s with mem := m }))

/-- The length of the reply that `unpack` has just accepted: `(len − 5) div 2` (R142; log 12). -/
def replyLength (s : State) : Nat := (s.rxBytes.toNat - 5) / 2

/-- Phase `CHECK` (R169): the first reply byte must be the complement of the opcode. -/
def phaseCheck (s : State) : Host.Outcome State Fault Refusal :=
  if replyLength s = 0 then .next (fail .recvError s)
  else
    orUnwritten
      (match readElem s.mem .rxd 0 with
       | none => none
       | some b =>
         if b ≠ complement s.txnOpcode then some (fail .recvError s)
         else some (finishWith (replyLength s) .ok s))

/-- The phases of COMMAND after `ENC_PKT` (R160). An idle block does nothing (R210); the two phases in which an operation
starts are `exec`'s (Machine/Block.lean). -/
def continueCommand (s : State) : Host.Outcome State Fault Refusal :=
  match s.phase with
  | .idle => .next s
  | .exec => .next s
  | .encPkt => .next s
  | .encPls => phaseEncPls s
  | .send => phaseSend s
  | .recv => phaseRecv s
  | .tail => phaseTail s
  | .decPls => phaseDecPls s
  | .decPkt => phaseDecPkt s
  | .check => phaseCheck s

end Sys2Proof.Machine
end

