-- ==== Sys2Proof/Machine/Dispatch.lean ====
section
/-! DEFINITION. The meaning of each operation: one arm per constructor of `Instr`. -/

namespace Sys2Proof.Machine

def exec (i : Instr) (s : State) : Host.Outcome State Fault Refusal :=
  match i with
  | .penc => Sys2Proof.Machine.execPenc s
  | .pdec => Sys2Proof.Machine.execPdec s
  | .kenc => Sys2Proof.Machine.execKenc s
  | .kdec => Sys2Proof.Machine.execKdec s
  | .openLink => Sys2Proof.Machine.execOpen s
  | .closeLink => Sys2Proof.Machine.execClose s
  | .resetLink => Sys2Proof.Machine.execReset s
  | .command => Sys2Proof.Machine.execCommand s

end Sys2Proof.Machine
end

