-- ==== Sys2Proof/Machine/Block.lean ====
section
/-! DEFINITION. One move of the block: fetching the command word and running the operation it selects, or the next phase
of a running COMMAND (spec/10_state.md R23, R26; spec/30_encoding.md R80, R84). -/

namespace Sys2Proof.Machine

/-- The block runs the operation its command word selects; a reserved word runs the null operation (R80, R84). -/
def runOperation (s : State) : Host.Outcome State Fault Refusal :=
  match decode s.cmd with
  | .ok i => exec i s
  | .error _ => .next (nullOperation s)

/-- The phases in which the block runs the operation its command word selects (R23, R26). -/
def startsOperation : Phase → Bool
  | .exec => true
  | .encPkt => true
  | .idle => false
  | .encPls => false
  | .send => false
  | .recv => false
  | .tail => false
  | .decPls => false
  | .decPkt => false
  | .check => false

/-- One move of the block (R23): in `EXEC` and `ENC_PKT` it runs the operation, in a later phase of COMMAND that phase,
and when idle it does nothing. -/
def blockStep (s : State) : Host.Outcome State Fault Refusal :=
  if startsOperation s.phase then runOperation s else continueCommand s

/-- The state in which the host has just written c to `CMD` and it is the block's move (log 10). -/
def placeCommand (c : Word) (s : State) : State := startOperation c { s with inputs := .wait :: s.inputs }

end Sys2Proof.Machine
end

