-- ==== Sys2Proof/Machine/HostPort.lean ====
section
/-! DEFINITION. The host port: what each word index names, and what a host read and a host write do
(spec/10_state.md R20, R26, R28; spec/20_memory.md R54 to R58). -/

namespace Sys2Proof.Machine

/-- The registers of the window (R20). -/
inductive Register where
  | cmd | status | arg0 | arg1 | result | decOut | decPos | decPar | decData | txnOpcode | txnErr | seqPhase
  | txCount | rxCount | rxBytes | pBitPeriod | pMarkAdj | pSpaceAdj | pMaxPayload | pPlsCap
deriving DecidableEq, Repr

/-- What a word index names: a register, a buffer element, or nothing (R20, R57). -/
inductive Place where
  | register (r : Register)
  | element (b : Buffer) (i : Nat)
  | unmapped
deriving DecidableEq, Repr

/-- The register at an index below 0x1000 (R20, R55). -/
def registerAt : Nat → Place
  | 0x00 => .register .cmd
  | 0x01 => .register .status
  | 0x02 => .register .arg0
  | 0x03 => .register .arg1
  | 0x04 => .register .result
  | 0x05 => .register .decOut
  | 0x06 => .register .decPos
  | 0x07 => .register .decPar
  | 0x08 => .register .decData
  | 0x09 => .register .txnOpcode
  | 0x0A => .register .txnErr
  | 0x0B => .register .seqPhase
  | 0x0C => .register .txCount
  | 0x0D => .register .rxCount
  | 0x0E => .register .rxBytes
  | 0x10 => .register .pBitPeriod
  | 0x11 => .register .pMarkAdj
  | 0x12 => .register .pSpaceAdj
  | 0x13 => .register .pMaxPayload
  | 0x14 => .register .pPlsCap
  | _ => .unmapped

/-- An element of a buffer, if the buffer has it (R57). -/
def elementAt (P : Params) (b : Buffer) (i : Nat) : Place :=
  if i < bufferCap P b then .element b i else .unmapped

/-- What a word index names (R20, R55, R57). -/
def place (P : Params) (x : Nat) : Place :=
  if x < bufferBase .txd then registerAt x
  else if x < bufferBase .rxd then elementAt P .txd (x - bufferBase .txd)
  else if x < bufferBase .pkt then elementAt P .rxd (x - bufferBase .rxd)
  else if x < bufferBase .pls then elementAt P .pkt (x - bufferBase .pkt)
  else elementAt P .pls (x - bufferBase .pls)

/-- The word of a register as the host reads it; bits outside its fields read as zero, `CMD` reads as 0 (R20, R26). -/
def registerWord (s : State) : Register → Word
  | .cmd => 0
  | .status => statusWord s
  | .arg0 => s.arg0
  | .arg1 => s.arg1
  | .result => s.result
  | .decOut => decOutWord s.decOut
  | .decPos => s.dec.pos.setWidth 32
  | .decPar => s.dec.par.setWidth 32
  | .decData => s.dec.data.setWidth 32
  | .txnOpcode => s.txnOpcode.setWidth 32
  | .txnErr => txnErrWord s.txnErr
  | .seqPhase => phaseWord s
  | .txCount => s.txCount.setWidth 32
  | .rxCount => s.rxCount.setWidth 32
  | .rxBytes => s.rxBytes.setWidth 32
  | .pBitPeriod => BitVec.ofNat 32 s.params.bitPeriod
  | .pMarkAdj => BitVec.ofInt 32 s.params.markAdj
  | .pSpaceAdj => BitVec.ofInt 32 s.params.spaceAdj
  | .pMaxPayload => BitVec.ofNat 32 s.params.maxPayload
  | .pPlsCap => BitVec.ofNat 32 s.params.plsCap

/-- The word of a buffer element: a byte sits in bits [7:0], bits [31:8] read as zero (R30, R52). -/
def elementWord (m : Memory) (b : Buffer) (i : Nat) : Option Word :=
  match b with
  | .pls => readPulse m i
  | .txd => (readElem m .txd i).map (BitVec.setWidth 32)
  | .rxd => (readElem m .rxd i).map (BitVec.setWidth 32)
  | .pkt => (readElem m .pkt i).map (BitVec.setWidth 32)

/-- The word at a place while the block is idle; an unmapped index reads 0 (R57). -/
def placeWord (s : State) : Place → Option Word
  | .register r => some (registerWord s r)
  | .element b i => elementWord s.mem b i
  | .unmapped => some 0

/-- The two registers a host may read while the block is busy (R20, R58). -/
def readableWhileBusy : Place → Bool
  | .register .status => true
  | .register .seqPhase => true
  | _ => false

/-- A host read (R54, R57, R58): the word goes to the port. While busy, any index but `STATUS` and `SEQ_PHASE` returns an
unspecified word, a free value (U5; log 7). While idle, an element with no value stops the read (U6; log 8). -/
def hostRead (i : Index) (s : State) : Host.Outcome State Fault Refusal :=
  if s.busy && !readableWhileBusy (place s.params i.toNat) then
    .next { s with readData := Config.busyWord s.draws, draws := s.draws + 1 }
  else
    orUnwritten ((placeWord s (place s.params i.toNat)).map fun w => { s with readData := w })

/-- A host write of a register while idle, with the field widths of R20: read-only registers ignore it (R57); a value
of 11 to 15 for `DEC_POS` is ignored (R28; log 11); `CMD` starts an operation (R26). -/
def writeRegister (r : Register) (w : Word) (s : State) : State :=
  match r with
  | .cmd => startOperation w s
  | .arg0 => { s with arg0 := w }
  | .arg1 => { s with arg1 := w }
  | .decPos => if w.toNat % 16 ≤ 10 then { s with dec := { s.dec with pos := w.setWidth 4 } } else s
  | .decPar => { s with dec := { s.dec with par := w.setWidth 4 } }
  | .decData => { s with dec := { s.dec with data := w.setWidth 8 } }
  | .status => s
  | .result => s
  | .decOut => s
  | .txnOpcode => s
  | .txnErr => s
  | .seqPhase => s
  | .txCount => s
  | .rxCount => s
  | .rxBytes => s
  | .pBitPeriod => s
  | .pMarkAdj => s
  | .pSpaceAdj => s
  | .pMaxPayload => s
  | .pPlsCap => s

/-- A host write of a buffer element while idle: a byte buffer takes bits [7:0]; `RXD` is read-only (R30, R57). -/
def writeElement (b : Buffer) (i : Nat) (w : Word) (s : State) : State :=
  match b with
  | .txd => { s with mem := writeElem s.mem .txd i (w.setWidth 8) }
  | .rxd => s
  | .pkt => { s with mem := writeElem s.mem .pkt i (w.setWidth 8) }
  | .pls => { s with mem := writePulse s.mem i w }

/-- A host write (R54, R57, R58): ignored while the block is busy and at an unmapped index. -/
def hostWrite (i : Index) (w : Word) (s : State) : State :=
  if s.busy then s
  else
    match place s.params i.toNat with
    | .register r => writeRegister r w s
    | .element b k => writeElement b k w s
    | .unmapped => s

end Sys2Proof.Machine
end

