-- ==== Sys2Proof/Machine/Step.lean ====
section
/-! DEFINITION. One step of the machine, and where the next command word stands. The head of `inputs` says who moves: a
host access, a hardware reset, or the block; with no input the block moves (log 4). -/

namespace Sys2Proof.Machine

/-- One step. -/
def step (s : State) : Host.Outcome State Fault Refusal :=
  match s.inputs with
  | [] => blockStep s
  | .wait :: rest => blockStep { s with inputs := rest }
  | .read i :: rest => hostRead i { s with inputs := rest }
  | .write i w :: rest => .next (hostWrite i w { s with inputs := rest })
  | .reset :: rest => .next (hardwareReset { s with inputs := rest })

/-- The state in which a table row's word stands where the very next step fetches its command word (log 10). -/
def State.withFetchWord (s : State) (nbits w : Nat) : State := placeCommand (tableWord nbits w) s

end Sys2Proof.Machine
end

