-- ==== Sys2Proof/Machine/Exchange.lean ====
section
/-! DEFINITION. The pseudo-operation EXCHANGE (spec/30_encoding.md R90): a sequence of operations a host runs. It is no
operation of the block and has no command word; it binds the host only (spec/91_not_in_source.md N26). -/

namespace Sys2Proof.Machine

/-- Go on from a next state; a stop stays a stop. -/
def andThen (o : Host.Outcome State Fault Refusal) (f : State → Host.Outcome State Fault Refusal) :
    Host.Outcome State Fault Refusal :=
  match o with
  | .next s => f s
  | .fault r => .fault r
  | .refused r => .refused r

/-- Poll `STATUS` until `BUSY = 0`, at most `fuel` moves of the block (R87). -/
def untilIdle : Nat → State → Host.Outcome State Fault Refusal
  | 0, s => .next s
  | n + 1, s => if s.busy then andThen (blockStep s) (untilIdle n) else .next s

/-- Write `CMD` and poll (R87). -/
def issueOperation (fuel : Nat) (i : Instr) (s : State) : Host.Outcome State Fault Refusal :=
  untilIdle fuel (hostWrite 0 (encode i) s)

/-- The host writes bytes to `TXD` from element i on; `issueCommand` gives it no more than `TXD` holds (log 20). -/
def writeRequest (i : Nat) : List Byte → State → State
  | [], s => s
  | b :: bs, s => writeRequest (i + 1) bs (hostWrite (BitVec.ofNat 16 (bufferBase .txd + i)) (b.setWidth 32) s)

/-- The host's part of COMMAND: the request bytes, the two operand registers, the command word. DESIGN CHOICE (log 20):
R90 says "with TXD = bytes" and not when; the host fills `TXD` and the operands here, after RESET has ended with `Ok`. It
is silent on more bytes than `TXD` holds too; the host writes as many as `TXD` holds and gives the full length in `ARG0`,
so that COMMAND ends with `BufferTooSmall` (R85). -/
def issueCommand (fuel : Nat) (bytes : List Byte) (cap : Word) (s : State) : Host.Outcome State Fault Refusal :=
  issueOperation fuel .command
    (hostWrite 3 cap (hostWrite 2 (BitVec.ofNat 32 bytes.length) (writeRequest 0 (bytes.take s.params.maxPayload) s)))

/-- `EXCHANGE bytes` = `OPEN; RESET; COMMAND len(bytes), cap; CLOSE`: it stops at the first step whose status is not
`Ok` and then runs CLOSE if OPEN had succeeded (R90). At least one byte: the receive-only form is no operation of the
block (N14). `fuel` bounds the moves of each operation. -/
def exchange (fuel : Nat) (first : Byte) (more : List Byte) (cap : Word) (s : State) :
    Host.Outcome State Fault Refusal :=
  andThen (issueOperation fuel .openLink s) fun s1 =>
    if s1.code ≠ .ok then .next s1
    else
      andThen (issueOperation fuel .resetLink s1) fun s2 =>
        if s2.code ≠ .ok then issueOperation fuel .closeLink s2
        else
          andThen (issueCommand fuel (first :: more) cap s2) fun s3 => issueOperation fuel .closeLink s3

end Sys2Proof.Machine
end

