-- ==== Sys2Proof/Safety.lean ====
section
/-! DEFINITION. The terms claims are stated in: the packet and the pulse sequence as plain lists (spec/30_encoding.md R72,
R74), what a sequence of pulses decodes to, which elements of a buffer have a value, and what a sound state of the
running block is. -/

namespace Sys2Proof.Machine

/-! ## The wire formats as lists -/

/-- The low 8 bits of the sum of the payload bytes (R76). -/
def checksum (ds : List Byte) : Byte := ds.foldl (· + ·) 0

/-- Each payload byte followed by its complement (R74). -/
def pairs : List Byte → List Byte
  | [] => []
  | d :: ds => d :: complement d :: pairs ds

/-- The packet of a payload (R74). -/
def packetOf (ds : List Byte) : List Byte :=
  [Config.header0, Config.header1, Config.header2] ++ pairs ds ++ [checksum ds, complement (checksum ds)]

/-- The first bytes of the leading pairs whose second byte is the complement of the first (R139). -/
def goodPairs : List Byte → List Byte
  | d :: e :: rest => if e.toNat = 255 - d.toNat then d :: goodPairs rest else []
  | _ => []

/-- What the packet decoder writes to `RXD` before it ends, for a packet and a capacity: nothing when the length or the
header is wrong, and otherwise the first bytes of the pairs up to the first wrong one (R137 to R139, R142). -/
def delivered (cap : Nat) (ps : List Byte) : List Byte :=
  if 5 ≤ ps.length ∧ ps.length % 2 = 1 ∧ (ps.length - 5) / 2 ≤ cap ∧ ps.take 3 = [0x55, 0xFF, 0x00] then
    goodPairs ((ps.drop 3).take (ps.length - 5))
  else []

/-- The pulse sequence of several bytes, one frame after another (R51, R108, R162). -/
def pulsesOf (P : Params) (bs : List Byte) : List Word := bs.flatMap (segments P)

/-- The decoder fed a sequence of pulses in order: its state after the last one and the outcome of each (R110). -/
def decodeAll (P : Params) (d : Decoder) : List Word → Decoder × List DecOut
  | [] => (d, [])
  | w :: ws =>
    let y := decode1 P d w
    let z := decodeAll P y.1 ws
    (z.1, y.2 :: z.2)

/-- The bytes that a sequence of outcomes emitted, in order (R24). -/
def emitted (os : List DecOut) : List Byte := (os.filter (·.bv)).map (·.byte)

/-- No outcome flags an error. -/
def clean (os : List DecOut) : Prop := ∀ o ∈ os, o.pe = false ∧ o.fe = false ∧ o.bd = false

/-! ## Buffers -/

/-- Elements i to i + n − 1 of a byte buffer have a value. -/
def Written (m : Memory) (b : Buffer) (i n : Nat) : Prop := ∃ vs, readElems m b i n = some vs

/-- Elements i to i + n − 1 of `PLS` have a value. -/
def WrittenPulses (m : Memory) (i n : Nat) : Prop := ∃ ws, readPulses m i n = some ws

/-- The bytes an element of a buffer occupies. -/
def lanes : Buffer → Nat
  | .txd => 1
  | .rxd => 1
  | .pkt => 1
  | .pls => 4

/-- Every listed byte belongs to an element that exists (R53, R57). -/
def Mapped (P : Params) (m : Memory) : Prop :=
  ∀ c ∈ m, ∃ b i k, i < bufferCap P b ∧ k < lanes b ∧ c.1 = elemAddr b i + k

/-- A byte address that belongs to none of the elements i to i + n − 1 of a buffer. -/
def Outside (b : Buffer) (i n a : Nat) : Prop := ∀ j k, i ≤ j → j < i + n → k < lanes b → a ≠ elemAddr b j + k

/-! ## Word indices -/

/-- A word index that names nothing (R57). -/
def UnmappedIndex (P : Params) (x : Nat) : Prop :=
  x = 0x000F ∨ (0x0015 ≤ x ∧ x ≤ 0x0FFF) ∨ (0x1000 + P.maxPayload ≤ x ∧ x ≤ 0x1FFF) ∨
  (0x2000 + P.maxPayload ≤ x ∧ x ≤ 0x3FFF) ∨ (0x4000 + P.pktCap ≤ x ∧ x ≤ 0x7FFF) ∨
  (0x8000 + P.plsCap ≤ x ∧ x ≤ 0xFFFF)

/-- A word index whose word the host may read but not write (R57): `STATUS`, `RESULT`, `DEC_OUT`, `TXN_OPCODE`,
`TXN_ERR`, `SEQ_PHASE`, the three counts, the `P_` registers, `RXD`. -/
def ReadOnlyIndex (P : Params) (x : Nat) : Prop :=
  x ∈ [0x01, 0x04, 0x05, 0x09, 0x0A, 0x0B, 0x0C, 0x0D, 0x0E, 0x10, 0x11, 0x12, 0x13, 0x14] ∨
  (0x2000 ≤ x ∧ x < 0x2000 + P.maxPayload)

/-! ## Sound states -/

/-- What holds of the working state of a COMMAND between two of its phases (R160): no error is on record (R25, R167),
nothing counts as received before `RECV`, and what the next phase reads has been written. -/
def State.CommandReady (s : State) : Prop :=
  match s.phase with
  | .idle => True
  | .exec => True
  | .encPkt => True
  | .encPls =>
    s.txnErr = TxnErr.clear ∧ s.rxCount = 0 ∧ 2 * lengthOperand s + Config.pktOverhead ≤ s.params.pktCap ∧
    Written s.mem .pkt 0 (2 * lengthOperand s + Config.pktOverhead)
  | .send =>
    s.txnErr = TxnErr.clear ∧ s.rxCount = 0 ∧ s.txCount.toNat < s.params.plsCap ∧
    WrittenPulses s.mem 0 s.txCount.toNat
  | .recv =>
    s.txnErr = TxnErr.clear ∧ s.rxCount.toNat < s.params.plsCap - 1 ∧ WrittenPulses s.mem 0 s.rxCount.toNat
  | .tail =>
    s.txnErr = TxnErr.clear ∧ 0 < s.rxCount.toNat ∧ s.rxCount.toNat < s.params.plsCap - 1 ∧
    WrittenPulses s.mem 0 s.rxCount.toNat
  | .decPls =>
    s.txnErr = TxnErr.clear ∧ 0 < s.rxCount.toNat ∧ s.rxCount.toNat < s.params.plsCap - 1 ∧
    WrittenPulses s.mem 0 s.rxCount.toNat ∧ readPulse s.mem s.rxCount.toNat = some (tailPulse s.params)
  | .decPkt =>
    s.txnErr = TxnErr.clear ∧ s.rxBytes.toNat ≤ s.params.pktCap ∧ Written s.mem .pkt 0 s.rxBytes.toNat
  | .check =>
    s.txnErr = TxnErr.clear ∧ replyLength s ≤ payloadCap s ∧ s.rxBytes.toNat = 2 * replyLength s + 5 ∧
    Written s.mem .rxd 0 (replyLength s)

/-- The command word of a running operation fits its phase: COMMAND and no other runs in the phases 1 to 8 (R23). -/
def State.CommandPhase (s : State) : Prop :=
  match s.phase with
  | .idle => True
  | .exec => decode s.cmd ≠ .ok .command
  | .encPkt => decode s.cmd = .ok .command
  | .encPls => decode s.cmd = .ok .command
  | .send => decode s.cmd = .ok .command
  | .recv => decode s.cmd = .ok .command
  | .tail => decode s.cmd = .ok .command
  | .decPls => decode s.cmd = .ok .command
  | .decPkt => decode s.cmd = .ok .command
  | .check => decode s.cmd = .ok .command

/-- A sound state: what every step keeps. -/
structure State.Inv (s : State) : Prop where
  /-- The parameters are in their ranges (R7). -/
  params_legal : s.params.Legal
  /-- Memory is in its canonical form. -/
  mem_wf : Memory.wf s.mem = true
  /-- No element outside a buffer was ever written (R53, R57). -/
  mem_mapped : Mapped s.params s.mem
  /-- `DEC_POS` has a legal value (R20, R28). -/
  dec_pos : s.dec.pos.toNat ≤ 10
  /-- `SEQ_PHASE = IDLE` if and only if `STATUS.BUSY = 0` (R23). -/
  busy_phase : s.busy = true ↔ s.phase ≠ .idle
  /-- `STATUS.CODE` is 0 while an operation runs (R26). -/
  busy_code : s.busy = true → s.code = .ok
  /-- Codes 2, 3, 4 never appear in `STATUS.CODE` (R186). -/
  code_kind : s.code ≠ .breakDetected ∧ s.code ≠ .framingError ∧ s.code ≠ .parityError
  /-- `DEC_OUT.KIND` is the most severe of its flags (R24). -/
  dec_out_kind : s.decOut.kind = worst s.decOut.pe s.decOut.fe s.decOut.bd
  /-- `DEC_OUT.BYTE` is 0 when no byte was emitted (R24). -/
  dec_out_byte : s.decOut.bv = false → s.decOut.byte = 0
  /-- `TXN_ERR.WORST` is the most severe of its flags (R25). -/
  txn_err_worst : s.txnErr.worst = worst s.txnErr.pe s.txnErr.fe s.txnErr.bd
  command_phase : s.CommandPhase
  command_ready : s.CommandReady

/-- It is the block's move: the next input is `wait` or there is none. -/
def State.BlockMoves (s : State) : Prop := s.inputs = [] ∨ ∃ rest, s.inputs = .wait :: rest

/-- The same state with the input that gives the block this move taken off. -/
def State.popInput (s : State) : State := { s with inputs := s.inputs.tail }

/-- n steps of the machine, stopping at the first fault or refusal. -/
def run (n : Nat) (s : State) : Host.Outcome State Fault Refusal := Host.Core.run Sys2Proof.core n s

end Sys2Proof.Machine
end

