-- ==== Sys2Proof/Certificates/Slice0/Obligations.lean ====
section
/-! DEFINITION. What is claimed of the model: one `def Obligations.<Name> : Prop` per statement, listed in
OBLIGATIONS.json. Every statement about an operation gives its next state as the old state with the named fields
changed, so that everything it does not name is unchanged; memory is compared byte by byte, and a read of `TXD`, `RXD`,
`PKT` or `PLS` is a read of those bytes. Rules are those of spec/. -/

open Sys2Proof Sys2Proof.Machine

/-! ## Encoding of the command word (spec/30_encoding.md section 5) -/

/-- The operation codes of R80, each as the whole word the host writes. -/
def Obligations.CommandWordsDecode : Prop :=
  decode 0x00000001 = .ok .penc ∧ decode 0x00000002 = .ok .pdec ∧ decode 0x00000003 = .ok .kenc ∧
  decode 0x00000004 = .ok .kdec ∧ decode 0x00000008 = .ok .openLink ∧ decode 0x00000009 = .ok .closeLink ∧
  decode 0x0000000A = .ok .resetLink ∧ decode 0x0000000B = .ok .command ∧
  decode 0x00000011 = .error .reservedBits ∧ decode 0x00000000 = .error .reservedOp

/-- Each operation has exactly one command word, and a word selects an operation exactly when it is well formed. -/
def Obligations.DecodeIsInverseOfEncode : Prop :=
  (∀ (w : Word) (i : Instr), decode w = .ok i ↔ w = encode i) ∧
  (∀ w : Word, commandWordWf w = true ↔ ∃ i, decode w = .ok i)

/-- R84: a reserved word written to `CMD` while idle, then the block's move: `RESULT` = 0, code `Refused`, nothing else
(`cmd` is where the model keeps the word written, log 2). -/
def Obligations.ReservedWordIsRefused : Prop :=
  ∀ (s : State) (w : Word) (rest : List Input),
    s.busy = false → s.phase = .idle → s.inputs = .write 0 w :: .wait :: rest →
    (w.toNat % 16 ∈ [0x0, 0x5, 0x6, 0x7, 0xC, 0xD, 0xE, 0xF] ∨ w.toNat / 16 ≠ 0) →
    ∃ t, step s = .next t ∧
      step t = .next { s with inputs := rest, cmd := w, result := 0, code := .refused, busy := false, phase := .idle }

/-! ## The step (spec/10_state.md section 3) -/

/-- When the block's move finds a command word that selects operation i, the step is the meaning of i, with only the
input that gave the block its move taken off; and a word placed where the block fetches runs in the very next step. -/
def Obligations.StepRunsTheDecodedOperation : Prop :=
  (∀ (s : State) (i : Instr), (s.phase = .exec ∨ s.phase = .encPkt) → s.BlockMoves → decode s.cmd = .ok i →
    step s = exec i s.popInput) ∧
  (∀ (s : State) (w : Nat) (i : Instr), decodeTableWord 32 w = some i →
    step (s.withFetchWord 32 w) = exec i (startOperation (tableWord 32 w) s))

/-- A `CMD` write while idle (10_state.md section 5): busy, code 0, the first phase; nothing else but the word itself. -/
def Obligations.CmdWriteStartsAnOperation : Prop :=
  ∀ (s : State) (w : Word) (rest : List Input), s.busy = false → s.inputs = .write 0 w :: rest →
    ∃ t, step s = .next t ∧
      t = { s with inputs := rest, cmd := w, busy := true, code := .ok, phase := t.phase } ∧
      (w = 0x0000000B → t.phase = .encPkt) ∧ (w ≠ 0x0000000B → t.phase = .exec)

/-! ## Reset (spec/70_reset_and_hazards.md section 1) -/

/-- R32: every register is 0 after reset but the `P_` registers, which hold the parameters; no buffer element has a
value. -/
def Obligations.ResetValues : Prop :=
  ∀ P : Params,
    (∀ r : Register, r ∉ [Register.pBitPeriod, .pMarkAdj, .pSpaceAdj, .pMaxPayload, .pPlsCap] →
      registerWord (State.resetWith P) r = 0) ∧
    (State.resetWith P).params = P ∧
    (State.resetWith P).phase = .idle ∧ (State.resetWith P).busy = false ∧
    (∀ b i, readElem (State.resetWith P).mem b i = none) ∧ (∀ i, readPulse (State.resetWith P).mem i = none)

/-- R211: reset during an operation abandons it; no Transport request is made and what is pending outside stays. The
word last read by the host, the pending inputs and the counter of free values are the model's own fields (log 19). -/
def Obligations.HardwareResetAbandonsTheOperation : Prop :=
  ∀ (s : State) (rest : List Input), s.inputs = .reset :: rest →
    step s = .next { State.resetWith s.params with
      inputs := rest, readData := s.readData, transport := s.transport, requests := s.requests, draws := s.draws }

/-! ## The host port (spec/20_memory.md) -/

/-- R81: the `STATUS` word, with the numbers of R180. -/
def Obligations.StatusWordFields : Prop :=
  (∀ s : State,
    ((statusWord s).extractLsb' 0 4).toNat = codeNumber s.code ∧ (statusWord s).getLsbD 8 = s.busy ∧
    ∀ k, 4 ≤ k → k ≠ 8 → (statusWord s).getLsbD k = false) ∧
  ∀ c n, (c, n) ∈ [(Code.ok, 0), (.bufferTooSmall, 1), (.breakDetected, 2), (.framingError, 3), (.parityError, 4),
    (.notAPacket, 5), (.notOpen, 6), (.alreadyOpen, 7), (.notFound, 8), (.readOnly, 9), (.notSupported, 10),
    (.deviceError, 11), (.bufferFull, 12), (.noReply, 13), (.recvError, 14), (.refused, 15)] → codeNumber c = n

/-- The field places of `DEC_OUT` and `TXN_ERR` (10_state.md section 1), and the values of `SEQ_PHASE` (10_state.md
section 3). -/
def Obligations.FlagWordFields : Prop :=
  (∀ o : DecOut,
    (decOutWord o).extractLsb' 0 8 = o.byte ∧ (decOutWord o).getLsbD 8 = o.bv ∧ (decOutWord o).getLsbD 9 = o.pe ∧
    (decOutWord o).getLsbD 10 = o.fe ∧ (decOutWord o).getLsbD 11 = o.bd ∧
    ((decOutWord o).extractLsb' 12 4).toNat = codeNumber o.kind ∧ ∀ k, 16 ≤ k → (decOutWord o).getLsbD k = false) ∧
  (∀ e : TxnErr,
    (txnErrWord e).getLsbD 0 = e.pe ∧ (txnErrWord e).getLsbD 1 = e.fe ∧ (txnErrWord e).getLsbD 2 = e.bd ∧
    (txnErrWord e).getLsbD 3 = e.ov ∧ ((txnErrWord e).extractLsb' 4 4).toNat = codeNumber e.worst ∧
    ∀ k, 8 ≤ k → (txnErrWord e).getLsbD k = false) ∧
  (∀ (s : State) (p : Phase) (n : Nat),
    (p, n) ∈ [(Phase.idle, 0), (.encPkt, 1), (.encPls, 2), (.send, 3), (.recv, 4), (.tail, 5), (.decPls, 6),
      (.decPkt, 7), (.check, 8), (.exec, 9)] →
    s.phase = p → (phaseWord s).toNat = n)

/-- A host access while busy (20_memory.md section 4): a write changes nothing; `STATUS` and `SEQ_PHASE` read their
current values; any other read changes only the port's word, to an unspecified one, which the model draws (log 7). -/
def Obligations.BusyHostAccess : Prop :=
  ∀ (s : State) (i : Index) (rest : List Input), s.busy = true →
    (∀ w, s.inputs = .write i w :: rest → step s = .next { s with inputs := rest }) ∧
    (s.inputs = .read i :: rest →
      (i = 0x0001 → step s = .next { s with inputs := rest, readData := statusWord s }) ∧
      (i = 0x000B → step s = .next { s with inputs := rest, readData := phaseWord s }) ∧
      (i ≠ 0x0001 → i ≠ 0x000B →
        ∃ w, step s = .next { s with inputs := rest, readData := w, draws := s.draws + 1 }))

/-- A host read while idle changes nothing but the port's word (20_memory.md section 3), which is the register's at its
index (10_state.md section 1); a buffer element gives its value, and one that nothing has written since reset stops the
model (log 8). -/
def Obligations.IdleHostRead : Prop :=
  ∀ (s : State) (i : Index) (rest : List Input), s.params.Legal → s.busy = false → s.inputs = .read i :: rest →
    (∀ k w,
      (k, w) ∈ ([(0x00, 0), (0x01, statusWord s), (0x02, s.arg0), (0x03, s.arg1), (0x04, s.result),
        (0x05, decOutWord s.decOut), (0x06, BitVec.ofNat 32 s.dec.pos.toNat), (0x07, BitVec.ofNat 32 s.dec.par.toNat),
        (0x08, BitVec.ofNat 32 s.dec.data.toNat), (0x09, BitVec.ofNat 32 s.txnOpcode.toNat), (0x0A, txnErrWord s.txnErr),
        (0x0B, phaseWord s), (0x0C, BitVec.ofNat 32 s.txCount.toNat), (0x0D, BitVec.ofNat 32 s.rxCount.toNat),
        (0x0E, BitVec.ofNat 32 s.rxBytes.toNat), (0x10, BitVec.ofNat 32 s.params.bitPeriod),
        (0x11, BitVec.ofInt 32 s.params.markAdj), (0x12, BitVec.ofInt 32 s.params.spaceAdj),
        (0x13, BitVec.ofNat 32 s.params.maxPayload), (0x14, BitVec.ofNat 32 s.params.plsCap)] : List (Nat × Word)) →
      i.toNat = k → step s = .next { s with inputs := rest, readData := w }) ∧
    (∀ b j, b ≠ .pls → j < bufferCap s.params b → i.toNat = bufferBase b + j →
      (∀ v, readElem s.mem b j = some v →
        step s = .next { s with inputs := rest, readData := BitVec.ofNat 32 v.toNat }) ∧
      (readElem s.mem b j = none → step s = .fault .unwrittenElement)) ∧
    (∀ j, j < s.params.plsCap → i.toNat = 0x8000 + j →
      (∀ w, readPulse s.mem j = some w → step s = .next { s with inputs := rest, readData := w }) ∧
      (readPulse s.mem j = none → step s = .fault .unwrittenElement))

/-- R57: while idle an unmapped index reads 0 and ignores a write, and a write to a read-only place is ignored. -/
def Obligations.UnmappedAndReadOnlyIndices : Prop :=
  ∀ (s : State) (i : Index) (rest : List Input), s.params.Legal → s.busy = false →
    (UnmappedIndex s.params i.toNat → s.inputs = .read i :: rest →
      step s = .next { s with inputs := rest, readData := 0 }) ∧
    (∀ w, UnmappedIndex s.params i.toNat ∨ ReadOnlyIndex s.params i.toNat → s.inputs = .write i w :: rest →
      step s = .next { s with inputs := rest })

/-- A host write of an operand or of the decoder state while idle (10_state.md sections 2 and 6): 32 bits of `ARG0` and
`ARG1`, bits [3:0] of `DEC_PAR`, bits [7:0] of `DEC_DATA`, a position 0 to 10 of `DEC_POS`, and nothing for 11 to 15. -/
def Obligations.HostWritesOperandsAndDecoder : Prop :=
  ∀ (s : State) (i : Index) (w : Word) (rest : List Input), s.busy = false → s.inputs = .write i w :: rest →
    (i = 0x0002 → step s = .next { s with inputs := rest, arg0 := w }) ∧
    (i = 0x0003 → step s = .next { s with inputs := rest, arg1 := w }) ∧
    (i = 0x0006 → w.toNat ≤ 10 →
      ∃ p : BitVec 4, p.toNat = w.toNat ∧ step s = .next { s with inputs := rest, dec := { s.dec with pos := p } }) ∧
    (i = 0x0006 → 11 ≤ w.toNat → w.toNat ≤ 15 → step s = .next { s with inputs := rest }) ∧
    (i = 0x0007 → step s = .next { s with inputs := rest, dec := { s.dec with par := w.extractLsb' 0 4 } }) ∧
    (i = 0x0008 → step s = .next { s with inputs := rest, dec := { s.dec with data := w.extractLsb' 0 8 } })

/-- While idle a host write of an element of `TXD`, `PKT` or `PLS` followed by a read of it gives the word back, bits
[7:0] of it for a byte buffer; no other byte changes (20_memory.md section 3, 10_state.md section 7). -/
def Obligations.HostWriteThenReadElement : Prop :=
  ∀ (s : State) (b : Buffer) (k : Nat) (i : Index) (w : Word) (rest : List Input),
    s.params.Legal → s.busy = false → b ≠ .rxd → k < bufferCap s.params b → i.toNat = bufferBase b + k →
    s.inputs = .write i w :: .read i :: rest →
    ∃ t, step s = .next t ∧ t = { s with inputs := .read i :: rest, mem := t.mem } ∧
      (∀ a, Outside b k 1 a → readByte t.mem a = readByte s.mem a) ∧
      step t = .next { t with
        inputs := rest, readData := if b = .pls then w else BitVec.ofNat 32 (w.toNat % 256) }

/-! ## The pulse codec (spec/40_pulse_codec.md) -/

/-- R72 and R73: the frame of a byte. The parity bit is said of the bits of the byte and of the marks of the frame. -/
def Obligations.FrameLayout : Prop :=
  ∀ b : Byte,
    (frame b).length = 11 ∧ (frame b)[0]? = some .space ∧
    (∀ i, i < 8 → (frame b)[1 + i]? = some (if b.getLsbD i then .mark else .space)) ∧
    (frame b)[9]? = some (parityBit b) ∧ (frame b)[10]? = some .mark ∧
    (parityBit b).toNat =
      1 - ((b.getLsbD 0).toNat + (b.getLsbD 1).toNat + (b.getLsbD 2).toNat + (b.getLsbD 3).toNat +
        (b.getLsbD 4).toNat + (b.getLsbD 5).toNat + (b.getLsbD 6).toNat + (b.getLsbD 7).toNat) % 2 ∧
    (((frame b).drop 1).take 9).count .mark % 2 = 1

/-- R106: the shape of every encoded byte, and strict alternation through several bytes. -/
def Obligations.EncodedSequenceShape : Prop :=
  (∀ b : Byte,
    ((runs (frame b)).map (·.2)).sum = 11 ∧
    (runs (frame b)).length % 2 = 0 ∧ 2 ≤ (runs (frame b)).length ∧ (runs (frame b)).length ≤ 10 ∧
    (∃ k, (runs (frame b)).head? = some (.space, k) ∧ 1 ≤ k ∧ k ≤ 9 ∧ (k = 9 ↔ b = 0x00)) ∧
    (∃ k, (runs (frame b)).getLast? = some (.mark, k) ∧ 1 ≤ k ∧ k ≤ 10 ∧ (k = 10 ↔ b = 0xFF)) ∧
    ((runs (frame b)).length = 2 ↔ b ∈ [(0x00 : Byte), 0xC0, 0xF0, 0xFC, 0xFF]) ∧
    ((runs (frame b)).length = 10 ↔ b ∈ [(0x55 : Byte), 0xAB, 0xAD, 0xB5, 0xD5])) ∧
  (∀ (P : Params) (bs : List Byte), (pulsesOf P bs).IsChain (fun v w => pol v ≠ pol w))

/-- R78 and R105: segment j of a byte has the polarity of run j and the duration k·BIT_PERIOD + ADJ(p), which is
positive, and the decoder counts back exactly k. -/
def Obligations.SegmentDurations : Prop :=
  ∀ (P : Params) (b : Byte) (j k : Nat) (p : Polarity), P.Legal → (runs (frame b))[j]? = some (p, k) →
    ∃ w, (segments P b)[j]? = some w ∧ pol w = p ∧
      (dur w : Int) = (k : Int) * (P.bitPeriod : Int) + (match p with | .mark => P.markAdj | .space => P.spaceAdj) ∧
      0 < dur w ∧ bitCount P w = k

/-- R77: the bit count is the integer nearest to dur/BIT_PERIOD, an exact half rounding up. -/
def Obligations.BitCountRoundsHalfUp : Prop :=
  ∀ (P : Params) (w : Word), P.Legal →
    2 * bitCount P w * P.bitPeriod ≤ 2 * dur w + P.bitPeriod ∧
    2 * dur w + P.bitPeriod < 2 * (bitCount P w + 1) * P.bitPeriod ∧
    (2 * dur w < P.bitPeriod → bitCount P w = 0)

/-- PENC with capacity for 12 segments completes (40_pulse_codec.md section 1): the segments of `ARG0[7:0]` stand in
`PLS[0..n)`, `RESULT` = n, and no byte outside them changes. -/
def Obligations.PencWritesTheSegments : Prop :=
  ∀ s : State, 12 ≤ s.arg1.toNat → 12 ≤ s.params.plsCap →
    ∃ t, exec .penc s = .next t ∧
      t = { s with
        mem := t.mem, result := BitVec.ofNat 32 (segments s.params (s.arg0.extractLsb' 0 8)).length
        code := .ok, busy := false, phase := .idle } ∧
      readPulses t.mem 0 (segments s.params (s.arg0.extractLsb' 0 8)).length =
        some (segments s.params (s.arg0.extractLsb' 0 8)) ∧
      ∀ a, Outside .pls 0 (segments s.params (s.arg0.extractLsb' 0 8)).length a → readByte t.mem a = readByte s.mem a

/-- R101: PENC fails with `BufferTooSmall` exactly when its capacity is under 12, whatever the byte, and then changes
nothing but its status and `RESULT`. -/
def Obligations.PencCapacityTest : Prop :=
  ∀ s : State,
    (min s.arg1.toNat s.params.plsCap < 12 →
      exec .penc s = .next { s with result := 0, code := .bufferTooSmall, busy := false, phase := .idle }) ∧
    (∀ t, exec .penc s = .next t → (t.code = .bufferTooSmall ↔ min s.arg1.toNat s.params.plsCap < 12))

/-- PDEC always completes with `Ok` (40_pulse_codec.md section 2): it changes the decoder state, `DEC_OUT`, `RESULT`
(1 exactly when a byte was emitted) and its status, and nothing else. -/
def Obligations.PdecCompletes : Prop :=
  ∀ s : State, ∃ t, exec .pdec s = .next t ∧
    t = { s with
      dec := t.dec, decOut := t.decOut, result := if t.decOut.bv then 1 else 0
      code := .ok, busy := false, phase := .idle } ∧
    decodeAll s.params s.dec [s.arg0] = (t.dec, [t.decOut]) ∧
    t.decOut.kind = worst t.decOut.pe t.decOut.fe t.decOut.bd

/-- R114 to R117 and R27: PDEC of a pulse of one bit, by frame position. -/
def Obligations.OneBitPulse : Prop :=
  ∀ s : State, bitCount s.params s.arg0 = 1 → s.dec.pos.toNat ≤ 10 →
    ∃ t, exec .pdec s = .next t ∧ t.decOut.bd = false ∧
      (s.dec.pos.toNat = 0 → t.decOut = DecOut.none ∧
        (pol s.arg0 = .space → t.dec = { pos := 1, par := 0, data := 0 }) ∧ (pol s.arg0 = .mark → t.dec = s.dec)) ∧
      (1 ≤ s.dec.pos.toNat → s.dec.pos.toNat ≤ 8 → t.decOut = DecOut.none ∧
        t.dec.pos.toNat = s.dec.pos.toNat + 1 ∧
        t.dec.data.toNat = s.dec.data.toNat / 2 + 128 * (pol s.arg0).toNat ∧
        t.dec.par.toNat = (s.dec.par.toNat + (pol s.arg0).toNat) % 16) ∧
      (s.dec.pos.toNat = 9 → t.dec.pos.toNat = 10 ∧ t.dec.data = s.dec.data ∧
        t.dec.par.toNat = (s.dec.par.toNat + (pol s.arg0).toNat) % 16 ∧
        t.decOut.bv = true ∧ t.decOut.byte = s.dec.data ∧ t.decOut.fe = false ∧
        (t.decOut.pe = true ↔ (s.dec.par.toNat + (pol s.arg0).toNat) % 2 = 0)) ∧
      (s.dec.pos.toNat = 10 → t.dec = { s.dec with pos := 0 } ∧ t.decOut.bv = false ∧ t.decOut.pe = false ∧
        (t.decOut.fe = true ↔ pol s.arg0 = .space))

/-- A pulse of n ≤ 10 bits does what n pulses of one bit of the same polarity do, and they emit at most one byte
(R110, R118); it is never a break (R112). -/
def Obligations.PulseIsItsBits : Prop :=
  ∀ (P : Params) (d : Decoder) (w v : Word), bitCount P w ≤ 10 → bitCount P v = 1 → pol v = pol w →
    d.pos.toNat ≤ 10 →
    (decodeAll P d (List.replicate (bitCount P w) v)).1 = (decode1 P d w).1 ∧
    (emitted (decodeAll P d (List.replicate (bitCount P w) v)).2).length ≤ 1 ∧
    emitted [(decode1 P d w).2] = emitted (decodeAll P d (List.replicate (bitCount P w) v)).2 ∧
    ((decode1 P d w).2.pe = true ↔ ∃ o ∈ (decodeAll P d (List.replicate (bitCount P w) v)).2, o.pe = true) ∧
    ((decode1 P d w).2.fe = true ↔ ∃ o ∈ (decodeAll P d (List.replicate (bitCount P w) v)).2, o.fe = true) ∧
    (decode1 P d w).2.bd = false ∧ ∀ o ∈ (decodeAll P d (List.replicate (bitCount P w) v)).2, o.bd = false

/-- R112: an over-long space is a break whatever the decoder held, an over-long mark decodes as a mark of 10 bits; each
through PDEC. -/
def Obligations.OverLongPulses : Prop :=
  ∀ s : State, 10 < bitCount s.params s.arg0 → s.params.Legal →
    (pol s.arg0 = .space →
      exec .pdec s = .next { s with
        dec := { pos := 1, par := 0, data := 0 }
        decOut := { byte := 0, bv := false, pe := false, fe := false, bd := true, kind := .breakDetected }
        result := 0, code := .ok, busy := false, phase := .idle }) ∧
    (pol s.arg0 = .mark →
      ∃ t u, exec .pdec s = .next t ∧
        exec .pdec { s with arg0 := pulse .mark (10 * s.params.bitPeriod) } = .next u ∧
        t.dec = u.dec ∧ t.decOut = u.decOut ∧ t.result = u.result)

/-- R113: a pulse of no bits changes neither the decoder state nor emits or flags anything. -/
def Obligations.ZeroBitPulse : Prop :=
  ∀ s : State, 2 * dur s.arg0 < s.params.bitPeriod →
    exec .pdec s = .next { s with
      decOut := DecOut.none, result := 0, code := .ok, busy := false, phase := .idle }

/-- R119: the conditions that can occur together in one decode. -/
def Obligations.DecodeFlagCombinations : Prop :=
  ∀ (P : Params) (d : Decoder) (w : Word) (o : DecOut), d.pos.toNat ≤ 10 → (decode1 P d w).2 = o →
    (o.bd = true → o.bv = false ∧ o.pe = false ∧ o.fe = false ∧ o.kind = .breakDetected) ∧
    (o.pe = true → o.bv = true) ∧
    (o.fe = true → pol w = .space) ∧ (o.bd = true → pol w = .space) ∧
    (o.fe = true → o.kind = .framingError) ∧
    (o.pe = true → o.fe = false → o.kind = .parityError) ∧
    (o.pe = false → o.fe = false → o.bd = false → o.kind = .ok)

/-- R121: a mark of 10 or more bits brings the decoder to position 0 from every legal position; from 1 to 9 it emits one
byte, the partial byte filled up with 1 bits; from 0 nothing happens; from 10 it is the stop bit. -/
def Obligations.LongMarkFlushesTheDecoder : Prop :=
  ∀ (P : Params) (d : Decoder) (w : Word), pol w = .mark → 10 ≤ bitCount P w → d.pos.toNat ≤ 10 →
    (decode1 P d w).1.pos = 0 ∧ (decode1 P d w).2.fe = false ∧ (decode1 P d w).2.bd = false ∧
    (d.pos.toNat = 0 → (decode1 P d w).1 = d ∧ (decode1 P d w).2 = DecOut.none) ∧
    (1 ≤ d.pos.toNat → d.pos.toNat ≤ 9 →
      (decode1 P d w).2.bv = true ∧
      (decode1 P d w).2.byte.toNat =
        d.data.toNat / 2 ^ (9 - d.pos.toNat) + (256 - 2 ^ (8 - (9 - d.pos.toNat))) ∧
      ((decode1 P d w).2.pe = true ↔ (d.par.toNat + (10 - d.pos.toNat)) % 2 = 0)) ∧
    (d.pos.toNat = 10 → (decode1 P d w).2 = DecOut.none)

/-- R120: the round trip of the pulse codec. A decoder at position 0 fed the pulses of any byte sequence, in order,
emits exactly those bytes with no error and ends at position 0; of the pulses of one byte, the last emits it when the
parity bit is a mark, too, and otherwise the last but one. For every bit period and every pair of offsets in range. -/
def Obligations.PulseRoundTrip : Prop :=
  ∀ (P : Params) (d : Decoder), P.Legal → d.pos = 0 →
    (∀ bs : List Byte,
      (decodeAll P d (pulsesOf P bs)).1.pos = 0 ∧ emitted (decodeAll P d (pulsesOf P bs)).2 = bs ∧
      clean (decodeAll P d (pulsesOf P bs)).2) ∧
    (∀ (b : Byte) (j : Nat) (o : DecOut), (decodeAll P d (segments P b)).2[j]? = some o → o.bv = true →
      if parityBit b = .mark then j + 1 = (segments P b).length else j + 2 = (segments P b).length)

/-! ## The packet codec (spec/41_packet_codec.md) -/

/-- KENC of a payload that fits completes (41_packet_codec.md section 1, 30_encoding.md section 3): the packet of R74
stands in `PKT[0..2·L+5)`, `RESULT` = 2·L + 5, and no byte outside it changes. -/
def Obligations.KencWritesThePacket : Prop :=
  ∀ (s : State) (ds : List Byte), s.params.Legal →
    readElems s.mem .txd 0 s.arg0.toNat = some ds →
    2 * s.arg0.toNat + 5 ≤ s.arg1.toNat → 2 * s.arg0.toNat + 5 ≤ s.params.pktCap →
    ∃ t, exec .kenc s = .next t ∧
      t = { s with
        mem := t.mem, result := BitVec.ofNat 32 (2 * s.arg0.toNat + 5), code := .ok, busy := false, phase := .idle } ∧
      readElem t.mem .pkt 0 = some 0x55 ∧ readElem t.mem .pkt 1 = some 0xFF ∧ readElem t.mem .pkt 2 = some 0x00 ∧
      (∀ i d, ds[i]? = some d →
        readElem t.mem .pkt (3 + 2 * i) = some d ∧ readElem t.mem .pkt (4 + 2 * i) = some (~~~d)) ∧
      readElem t.mem .pkt (3 + 2 * ds.length) = some (BitVec.ofNat 8 (ds.map (·.toNat)).sum) ∧
      readElem t.mem .pkt (4 + 2 * ds.length) = some (~~~ BitVec.ofNat 8 (ds.map (·.toNat)).sum) ∧
      ∀ a, Outside .pkt 0 (2 * s.arg0.toNat + 5) a → readByte t.mem a = readByte s.mem a

/-- R131: KENC fails with `BufferTooSmall` when 2·L + 5 > cap, whatever `TXD` holds, and writes nothing observable; any
L > MAX_PAYLOAD fails so; with 2·L + 5 ≤ cap it ends with `Ok`. -/
def Obligations.KencCapacityTest : Prop :=
  ∀ s : State,
    (min s.arg1.toNat s.params.pktCap < 2 * s.arg0.toNat + 5 →
      exec .kenc s = .next { s with result := 0, code := .bufferTooSmall, busy := false, phase := .idle }) ∧
    (s.params.maxPayload < s.arg0.toNat →
      exec .kenc s = .next { s with result := 0, code := .bufferTooSmall, busy := false, phase := .idle }) ∧
    (∀ t, exec .kenc s = .next t →
      (t.code = .bufferTooSmall ↔ min s.arg1.toNat s.params.pktCap < 2 * s.arg0.toNat + 5) ∧
      (t.code = .ok ↔ 2 * s.arg0.toNat + 5 ≤ min s.arg1.toNat s.params.pktCap))

/-- R133: KENC is a function of `ARG0`, `ARG1` and the payload: two states that agree on these get the same code, the same
`RESULT` and the same packet, whatever else differs. -/
def Obligations.KencIsPure : Prop :=
  ∀ s u t v : State, s.params = u.params → s.params.Legal → s.arg0 = u.arg0 → s.arg1 = u.arg1 →
    readElems s.mem .txd 0 s.arg0.toNat = readElems u.mem .txd 0 u.arg0.toNat →
    exec .kenc s = .next t → exec .kenc u = .next v →
    t.code = v.code ∧ t.result = v.result ∧
      readElems t.mem .pkt 0 t.result.toNat = readElems v.mem .pkt 0 v.result.toNat

/-- KDEC whose packet has values completes (41_packet_codec.md section 2): `Ok` exactly for a packet of R74 whose payload
fits, which is then in `RXD[0..RESULT)`, the rest of `RXD` unchanged; `BufferTooSmall` exactly by the capacity test;
otherwise `NotAPacket`; `RESULT` = 0 unless `Ok`. However it ends, it has written to `RXD` the bytes of `delivered` and no
other byte: none for a wrong length or header, those before the first wrong pair, all of them for a wrong checksum. -/
def Obligations.KdecAcceptsExactlyPackets : Prop :=
  ∀ (s : State) (ps : List Byte), s.params.Legal → s.arg0.toNat ≤ s.params.pktCap →
    readElems s.mem .pkt 0 s.arg0.toNat = some ps →
    ∃ t, exec .kdec s = .next t ∧
      t = { s with mem := t.mem, result := t.result, code := t.code, busy := false, phase := .idle } ∧
      (t.code = .ok ↔
        ∃ ds, ps = packetOf ds ∧ ds.length ≤ s.arg1.toNat ∧ ds.length ≤ s.params.maxPayload) ∧
      (t.code = .bufferTooSmall ↔
        5 ≤ s.arg0.toNat ∧ min s.arg1.toNat s.params.maxPayload < (s.arg0.toNat - 5) / 2) ∧
      (t.code = .ok ∨ t.code = .bufferTooSmall ∨ t.code = .notAPacket) ∧
      (t.code ≠ .ok → t.result = 0) ∧
      (∀ ds, t.code = .ok → ps = packetOf ds →
        t.result.toNat = ds.length ∧ readElems t.mem .rxd 0 ds.length = some ds ∧
        ∀ a, Outside .rxd 0 ds.length a → readByte t.mem a = readByte s.mem a) ∧
      (∀ ds, ds = delivered (min s.arg1.toNat s.params.maxPayload) ps →
        readElems t.mem .rxd 0 ds.length = some ds ∧
        ∀ a, Outside .rxd 0 ds.length a → readByte t.mem a = readByte s.mem a)

/-- R137: the length tests of KDEC, made before any element is read: capacity first, then the shape. -/
def Obligations.KdecLengthTests : Prop :=
  ∀ s : State, s.arg0.toNat ≤ s.params.pktCap →
    (5 ≤ s.arg0.toNat → min s.arg1.toNat s.params.maxPayload < (s.arg0.toNat - 5) / 2 →
      exec .kdec s = .next { s with result := 0, code := .bufferTooSmall, busy := false, phase := .idle }) ∧
    (s.arg0.toNat < 5 →
      exec .kdec s = .next { s with result := 0, code := .notAPacket, busy := false, phase := .idle }) ∧
    ((s.arg0.toNat - 5) % 2 = 1 → (s.arg0.toNat - 5) / 2 ≤ min s.arg1.toNat s.params.maxPayload →
      exec .kdec s = .next { s with result := 0, code := .notAPacket, busy := false, phase := .idle })

/-- R139: KDEC that fails at pair j has written the j bytes before it to `RXD`, and no other byte. -/
def Obligations.KdecPartialOutput : Prop :=
  ∀ (s : State) (ds : List Byte) (d e : Byte) (L : Nat), s.params.Legal →
    s.arg0.toNat = 2 * L + 5 → L ≤ s.arg1.toNat → L ≤ s.params.maxPayload → ds.length < L →
    readElems s.mem .pkt 0 (3 + 2 * ds.length) = some ([0x55, 0xFF, 0x00] ++ pairs ds) →
    readElem s.mem .pkt (3 + 2 * ds.length) = some d → readElem s.mem .pkt (4 + 2 * ds.length) = some e →
    e.toNat ≠ 255 - d.toNat →
    ∃ t, exec .kdec s = .next t ∧
      t = { s with mem := t.mem, result := 0, code := .notAPacket, busy := false, phase := .idle } ∧
      readElems t.mem .rxd 0 ds.length = some ds ∧
      ∀ a, Outside .rxd 0 ds.length a → readByte t.mem a = readByte s.mem a

/-- R135: KENC followed by KDEC gives the payload back, for every payload of up to MAX_PAYLOAD bytes. -/
def Obligations.PacketRoundTrip : Prop :=
  ∀ (s : State) (ds : List Byte), s.params.Legal → ds.length ≤ s.params.maxPayload →
    readElems s.mem .txd 0 ds.length = some ds →
    ∃ t u,
      exec .kenc { s with arg0 := BitVec.ofNat 32 ds.length, arg1 := BitVec.ofNat 32 s.params.pktCap } = .next t ∧
      exec .kdec { t with
        arg0 := BitVec.ofNat 32 (2 * ds.length + 5), arg1 := BitVec.ofNat 32 s.params.maxPayload } = .next u ∧
      u.code = .ok ∧ u.result.toNat = ds.length ∧ readElems u.mem .rxd 0 ds.length = some ds ∧
      readElems u.mem .txd 0 ds.length = some ds

/-- R143: flipping any single bit of any byte of a well-formed packet gives `NotAPacket`, the capacity sufficing. -/
def Obligations.SingleBitFlipIsDetected : Prop :=
  ∀ (s : State) (ds : List Byte) (j k : Nat) (b : Byte), s.params.Legal →
    s.arg0.toNat = 2 * ds.length + 5 → ds.length ≤ s.arg1.toNat → ds.length ≤ s.params.maxPayload →
    (packetOf ds)[j]? = some b → k < 8 →
    readElems s.mem .pkt 0 (2 * ds.length + 5) = some ((packetOf ds).set j (b ^^^ BitVec.ofNat 8 (2 ^ k))) →
    ∃ t, exec .kdec s = .next t ∧ t.code = .notAPacket ∧ t.result = 0

/-! ## OPEN, CLOSE, RESET (spec/42_transaction.md section 2) -/

/-- R155: OPEN makes one open request and ends with the Transport's answer; when the next answer is determined it is that
one. -/
def Obligations.OpenPassesThrough : Prop :=
  ∀ s : State, ∃ (c : Code) (tr : Transport) (d : Nat),
    c ∈ [Code.ok, .alreadyOpen, .notFound, .readOnly, .notSupported] ∧
    exec .openLink s = .next { s with
      result := 0, code := c, busy := false, phase := .idle
      requests := .openLink :: s.requests, transport := tr, draws := d } ∧
    (∀ rest, s.transport.opens = .alreadyOpen :: rest → c = .alreadyOpen ∧ tr = { s.transport with opens := rest }) ∧
    (∀ rest, s.transport.opens = .notFound :: rest → c = .notFound) ∧
    (∀ rest, s.transport.opens = .readOnly :: rest → c = .readOnly) ∧
    (∀ rest, s.transport.opens = .notSupported :: rest → c = .notSupported) ∧
    (∀ rest, s.transport.opens = .ok :: rest → c = .ok)

/-- R156: CLOSE makes one close request and always ends with `Ok`. -/
def Obligations.CloseIsAlwaysOk : Prop :=
  ∀ s : State,
    exec .closeLink s = .next { s with
      result := 0, code := .ok, busy := false, phase := .idle, requests := .closeLink :: s.requests }

/-- R157: RESET makes exactly one reset request and ends with the Transport's answer; it touches neither the decoder state
nor a buffer. -/
def Obligations.ResetPassesThrough : Prop :=
  ∀ s : State, ∃ (c : Code) (tr : Transport) (d : Nat),
    c ∈ [Code.ok, .notOpen, .deviceError] ∧
    exec .resetLink s = .next { s with
      result := 0, code := c, busy := false, phase := .idle
      requests := .resetLink :: s.requests, transport := tr, draws := d } ∧
    (∀ rest, s.transport.resets = .notOpen :: rest → c = .notOpen ∧ tr = { s.transport with resets := rest }) ∧
    (∀ rest, s.transport.resets = .deviceError :: rest → c = .deviceError) ∧
    (∀ rest, s.transport.resets = .ok :: rest → c = .ok)

/-- EXCHANGE, the host's sequence (30_encoding.md section 7): a failing OPEN ends it; a failing RESET ends it with CLOSE;
after both, the COMMAND runs and CLOSE follows whatever its status. Then two whole runs, as in `CommandExchange`: a send
that fails, and a reply that arrives. -/
def Obligations.ExchangeStopsAtTheFirstFailure : Prop :=
  ∀ (s : State) (fuel : Nat) (b : Byte) (bs : List Byte) (cap : Word), s.busy = false → 1 ≤ fuel →
    (∀ a rest, s.transport.opens = a :: rest → a ≠ .ok →
      ∃ t, exchange fuel b bs cap s = .next t ∧ t.code ≠ .ok ∧ t.busy = false ∧
        t.requests = .openLink :: s.requests) ∧
    (∀ a rest rest', s.transport.opens = .ok :: rest → s.transport.resets = a :: rest' → a ≠ .ok →
      ∃ t, exchange fuel b bs cap s = .next t ∧ t.code = .ok ∧ t.busy = false ∧
        t.requests = .closeLink :: .resetLink :: .openLink :: s.requests) ∧
    (∀ rest rest' u, s.transport.opens = .ok :: rest → s.transport.resets = .ok :: rest' →
      issueCommand fuel (b :: bs) cap { s with
        cmd := encode .resetLink, result := 0, code := .ok, phase := .idle
        requests := .resetLink :: .openLink :: s.requests
        transport := { s.transport with opens := rest, resets := rest' } } = .next u →
      u.busy = false →
      exchange fuel b bs cap s = .next { u with
        cmd := encode .closeLink, result := 0, code := .ok, phase := .idle, requests := .closeLink :: u.requests }) ∧
    (∀ rest rest' x more, s.params.Legal → s.transport.opens = .ok :: rest → s.transport.resets = .ok :: rest' →
      s.transport.sends = x :: more → x ≠ .ok → (b :: bs).length ≤ s.params.maxPayload → 3 ≤ fuel →
      ∃ t, exchange fuel b bs cap s = .next t ∧ t.code = .ok ∧ t.busy = false ∧
        t.requests = .closeLink :: .send (pulsesOf s.params (packetOf (b :: bs))) :: .resetLink :: .openLink ::
          s.requests) ∧
    (∀ rest rest' more later (cuts : List (List Word)) (reply : List Byte), s.Inv → s.inputs = [] → s.dec.pos = 0 →
      s.transport.opens = .ok :: rest → s.transport.resets = .ok :: rest' → s.transport.sends = .ok :: more →
      s.transport.receives = cuts.map .pulses ++ .pulses [] :: later →
      (b :: bs).length ≤ s.params.maxPayload → reply.length ≤ cap.toNat → reply.length ≤ s.params.maxPayload →
      (∀ c ∈ cuts, c ≠ []) → cuts.flatten = pulsesOf s.params (packetOf reply) → cuts.length + 8 ≤ fuel →
      ∃ t, exchange fuel b bs cap s = .next t ∧ t.code = .ok ∧ t.busy = false ∧
        t.requests.head? = some .closeLink ∧ readElems t.mem .rxd 0 reply.length = some reply ∧ t.dec.pos = 0)

/-! ## COMMAND, phase by phase (spec/42_transaction.md section 3) -/

/-- R85: operands outside an operation's domain. KDEC with `ARG0` > PKT_CAP and COMMAND with `ARG0` = 0 are `Refused` and
touch nothing else; KENC and COMMAND with `ARG0` > MAX_PAYLOAD end with `BufferTooSmall`, COMMAND having read `TXD[0]`
as the opcode and cleared its working registers. -/
def Obligations.OperandsOutsideTheDomain : Prop :=
  ∀ s : State,
    (s.params.pktCap < s.arg0.toNat →
      exec .kdec s = .next { s with result := 0, code := .refused, busy := false, phase := .idle }) ∧
    (s.arg0 = 0 →
      exec .command s = .next { s with result := 0, code := .refused, busy := false, phase := .idle }) ∧
    (s.params.maxPayload < s.arg0.toNat →
      exec .kenc s = .next { s with result := 0, code := .bufferTooSmall, busy := false, phase := .idle } ∧
      ∀ op, readElem s.mem .txd 0 = some op →
        exec .command s = .next { s with
          txnOpcode := op, txnErr := TxnErr.clear, txCount := 0, rxCount := 0, rxBytes := 0
          result := 0, code := .bufferTooSmall, busy := false, phase := .idle })

/-- COMMAND of a legal request completes its phase `ENC_PKT` (42_transaction.md section 3): the opcode is remembered, the
working registers are cleared, the packet of the request stands in `PKT`, and no other byte changes. -/
def Obligations.CommandPacksTheRequest : Prop :=
  ∀ (s : State) (ds : List Byte), s.params.Legal → 1 ≤ s.arg0.toNat → s.arg0.toNat ≤ s.params.maxPayload →
    readElems s.mem .txd 0 s.arg0.toNat = some ds →
    ∃ t, exec .command s = .next t ∧
      (∃ op, ds.head? = some op ∧
        t = { s with
          phase := .encPls, txnOpcode := op, txnErr := TxnErr.clear, txCount := 0, rxCount := 0, rxBytes := 0
          mem := t.mem }) ∧
      readElems t.mem .pkt 0 (2 * s.arg0.toNat + 5) = some (packetOf ds) ∧
      ∀ a, Outside .pkt 0 (2 * s.arg0.toNat + 5) a → readByte t.mem a = readByte s.mem a

/-- R162: phase `ENC_PLS` of a legal instance never fails: the pulses of all packet bytes, one frame after another, stand
in `PLS[0..TX_COUNT)`; between 2 and 10 segments a byte; no other byte changes. -/
def Obligations.CommandEncodesThePacket : Prop :=
  ∀ (s : State) (ps : List Byte), s.params.Legal → s.BlockMoves → s.phase = .encPls →
    2 * s.arg0.toNat + 5 ≤ s.params.pktCap → readElems s.mem .pkt 0 (2 * s.arg0.toNat + 5) = some ps →
    ∃ t, step s = .next t ∧
      t = { s with inputs := s.inputs.tail, phase := .send, txCount := t.txCount, mem := t.mem } ∧
      t.txCount.toNat = (pulsesOf s.params ps).length ∧
      readPulses t.mem 0 t.txCount.toNat = some (pulsesOf s.params ps) ∧
      2 * (2 * s.arg0.toNat + 5) ≤ t.txCount.toNat ∧ t.txCount.toNat ≤ 10 * (2 * s.arg0.toNat + 5) ∧
      ∀ a, Outside .pls 0 t.txCount.toNat a → readByte t.mem a = readByte s.mem a

/-- R163: phase `SEND` makes one send request that carries the whole sequence; `Ok` goes on, an error ends the COMMAND
with its code and leaves the decoder state untouched. -/
def Obligations.CommandSendsOnce : Prop :=
  ∀ (s : State) (ws : List Word), s.BlockMoves → s.phase = .send →
    readPulses s.mem 0 s.txCount.toNat = some ws →
    ∃ (a : SendAnswer) (tr : Transport) (d : Nat) (t : State), step s = .next t ∧
      (∀ x rest, s.transport.sends = x :: rest → a = x) ∧
      (a = .ok → t = { s with
        inputs := s.inputs.tail, requests := .send ws :: s.requests, transport := tr, draws := d, phase := .recv }) ∧
      (a ≠ .ok → ∃ c, (a = .notOpen ∧ c = Code.notOpen ∨ a = .deviceError ∧ c = Code.deviceError) ∧
        t = { s with
          inputs := s.inputs.tail, requests := .send ws :: s.requests, transport := tr, draws := d
          result := 0, code := c, busy := false, phase := .idle })

/-- R164: phase `RECV`, by what the Transport answers to a request for the free room `PLS_CAP − 1 − c`: an error is
surfaced and ends the COMMAND; the empty answer is `NoReply` when nothing had arrived and otherwise goes on to `TAIL`;
pulses are stored from `PLS[c]` on and counted, and reaching PLS_CAP − 1 is `BufferFull` at once. The answer is the
scripted one or a free one; a scripted one that carries more than was asked for (duty T3) has no step (log 6). -/
def Obligations.CommandReceives : Prop :=
  ∀ s : State, s.params.Legal → s.BlockMoves → s.phase = .recv → s.rxCount.toNat < s.params.plsCap - 1 →
    (∀ x rest, s.transport.receives = x :: rest →
      x.withinDuty (s.params.plsCap - 1 - s.rxCount.toNat) = false → step s = .refused .transportOverrun) ∧
    ((∀ x rest, s.transport.receives = x :: rest →
      x.withinDuty (s.params.plsCap - 1 - s.rxCount.toNat) = true) →
    ∃ (a : ReceiveAnswer) (tr : Transport) (d : Nat) (u t : State), step s = .next t ∧
      a.withinDuty (s.params.plsCap - 1 - s.rxCount.toNat) = true ∧
      (∀ x rest, s.transport.receives = x :: rest →
        a = x ∧ tr = { s.transport with receives := rest } ∧ d = s.draws) ∧
      (s.transport.receives = [] → tr = s.transport ∧ d = s.draws + 1) ∧
      u = { s with
        inputs := s.inputs.tail, transport := tr, draws := d
        requests := .receive (s.params.plsCap - 1 - s.rxCount.toNat) :: s.requests } ∧
      (∀ c, (a = .notOpen ∧ c = Code.notOpen ∨ a = .deviceError ∧ c = Code.deviceError ∨
          a = .bufferFull ∧ c = Code.bufferFull ∨ a = .pulses [] ∧ s.rxCount = 0 ∧ c = Code.noReply) →
        t = { u with result := 0, code := c, busy := false, phase := .idle }) ∧
      (a = .pulses [] → s.rxCount ≠ 0 → t = { u with phase := .tail }) ∧
      (∀ ws, a = .pulses ws → ws ≠ [] →
        t.rxCount.toNat = s.rxCount.toNat + ws.length ∧
        readPulses t.mem s.rxCount.toNat ws.length = some ws ∧
        (∀ x, Outside .pls s.rxCount.toNat ws.length x → readByte t.mem x = readByte s.mem x) ∧
        (s.rxCount.toNat + ws.length = s.params.plsCap - 1 →
          t = { u with
            mem := t.mem, rxCount := t.rxCount, result := 0, code := .bufferFull, busy := false, phase := .idle }) ∧
        (s.rxCount.toNat + ws.length ≠ s.params.plsCap - 1 → t = { u with mem := t.mem, rxCount := t.rxCount })))

/-- R165: phase `TAIL` appends one mark of exactly 10 bit periods, no offset added, after the received pulses; it decodes
to exactly 10 bits for every legal instance. -/
def Obligations.CommandAppendsTheTail : Prop :=
  ∀ s : State, s.params.Legal → s.BlockMoves → s.phase = .tail →
    ∃ t, step s = .next t ∧
      t = { s with inputs := s.inputs.tail, mem := t.mem, phase := .decPls } ∧
      (∃ w, readPulse t.mem s.rxCount.toNat = some w ∧ pol w = .mark ∧ dur w = 10 * s.params.bitPeriod ∧
        bitCount s.params w = 10) ∧
      ∀ a, Outside .pls s.rxCount.toNat 1 a → readByte t.mem a = readByte s.mem a

/-- R166 and R167: phase `DEC_PLS` feeds all c + 1 pulses to the decoder as it stands; the emitted bytes go to `PKT` as far
as it reaches; any parity, framing or break error, or a byte too many, ends the COMMAND with `RecvError`, and otherwise
the packet is examined next. -/
def Obligations.CommandDecodesTheBurst : Prop :=
  ∀ (s : State) (ws : List Word) (os : List DecOut) (d : Decoder), s.params.Legal → s.BlockMoves → s.phase = .decPls →
    s.txnErr = TxnErr.clear → readPulses s.mem 0 (s.rxCount.toNat + 1) = some ws →
    decodeAll s.params s.dec ws = (d, os) →
    ∃ t, step s = .next t ∧
      t = { s with
        inputs := s.inputs.tail, dec := d, decOut := t.decOut, txnErr := t.txnErr, rxBytes := t.rxBytes, mem := t.mem
        result := t.result, code := t.code, busy := t.busy, phase := t.phase } ∧
      os.getLast? = some t.decOut ∧
      (t.txnErr.pe = true ↔ ∃ o ∈ os, o.pe = true) ∧ (t.txnErr.fe = true ↔ ∃ o ∈ os, o.fe = true) ∧
      (t.txnErr.bd = true ↔ ∃ o ∈ os, o.bd = true) ∧
      (t.txnErr.ov = true ↔ s.params.pktCap < (emitted os).length) ∧
      t.txnErr.worst = worst t.txnErr.pe t.txnErr.fe t.txnErr.bd ∧
      t.rxBytes.toNat = min (emitted os).length s.params.pktCap ∧
      readElems t.mem .pkt 0 t.rxBytes.toNat = some ((emitted os).take s.params.pktCap) ∧
      (∀ a, Outside .pkt 0 t.rxBytes.toNat a → readByte t.mem a = readByte s.mem a) ∧
      (t.txnErr.pe = true ∨ t.txnErr.fe = true ∨ t.txnErr.bd = true ∨ t.txnErr.ov = true →
        t.code = .recvError ∧ t.result = 0 ∧ t.busy = false ∧ t.phase = .idle) ∧
      (t.txnErr = TxnErr.clear → t.code = s.code ∧ t.result = s.result ∧ t.busy = s.busy ∧ t.phase = .decPkt)

/-- R168: phase `DEC_PKT`: a packet of R74 whose payload fits goes to `RXD` and on to `CHECK`; anything else, too few bytes
included, is `RecvError`. As with KDEC, the bytes of `delivered` are written to `RXD`, and no other byte. -/
def Obligations.CommandUnpacksTheReply : Prop :=
  ∀ (s : State) (ps : List Byte), s.params.Legal → s.BlockMoves → s.phase = .decPkt →
    s.rxBytes.toNat ≤ s.params.pktCap → readElems s.mem .pkt 0 s.rxBytes.toNat = some ps →
    ∃ t, step s = .next t ∧
      (∀ ds, ps = packetOf ds → ds.length ≤ s.arg1.toNat → ds.length ≤ s.params.maxPayload →
        t = { s with inputs := s.inputs.tail, mem := t.mem, phase := .check } ∧
        readElems t.mem .rxd 0 ds.length = some ds ∧
        ∀ a, Outside .rxd 0 ds.length a → readByte t.mem a = readByte s.mem a) ∧
      ((∀ ds, ps = packetOf ds → min s.arg1.toNat s.params.maxPayload < ds.length) →
        t = { s with
          inputs := s.inputs.tail, mem := t.mem, result := 0, code := .recvError, busy := false, phase := .idle }) ∧
      (∀ ds, ds = delivered (min s.arg1.toNat s.params.maxPayload) ps →
        readElems t.mem .rxd 0 ds.length = some ds ∧
        ∀ a, Outside .rxd 0 ds.length a → readByte t.mem a = readByte s.mem a)

/-- R169: phase `CHECK` on an unpacked reply `ds` (so that `RX_BYTES` is its packet's length): `Ok` with its length exactly
when its first byte is the complement of the opcode; an empty reply and any other first byte are `RecvError`. -/
def Obligations.CommandChecksTheEcho : Prop :=
  ∀ (s : State) (ds : List Byte), s.BlockMoves → s.phase = .check → s.rxBytes.toNat = 2 * ds.length + 5 →
    readElems s.mem .rxd 0 ds.length = some ds →
    (∀ r, ds.head? = some r → r.toNat = 255 - s.txnOpcode.toNat →
      step s = .next { s with
        inputs := s.inputs.tail, result := BitVec.ofNat 32 ds.length, code := .ok, busy := false, phase := .idle }) ∧
    ((∀ r, ds.head? = some r → r.toNat ≠ 255 - s.txnOpcode.toNat) →
      step s = .next { s with
        inputs := s.inputs.tail, result := 0, code := .recvError, busy := false, phase := .idle })

/-! ## Whole runs of COMMAND -/

/-- A COMMAND whose Transport accepts the send and delivers, in any cut into non-empty answers followed by the quiet
answer, exactly the pulses of the packet of a reply that fits, runs to its end: `Ok` with the reply in `RXD` and its
length in `RESULT` when the reply's first byte is the complement of the opcode, and otherwise `RecvError` with `RESULT`
= 0 (42_transaction.md section 3; E8). The run takes one step per phase and one per receive request (log 3). -/
def Obligations.CommandExchange : Prop :=
  ∀ (s : State) (req reply : List Byte) (op : Byte) (cuts : List (List Word)) (more : List SendAnswer)
    (later : List ReceiveAnswer),
    s.params.Legal → s.inputs = [] → s.phase = .encPkt → decode s.cmd = .ok .command → s.dec.pos = 0 →
    req.head? = some op → req.length = s.arg0.toNat → req.length ≤ s.params.maxPayload →
    readElems s.mem .txd 0 req.length = some req →
    reply.length ≤ s.arg1.toNat → reply.length ≤ s.params.maxPayload →
    (∀ c ∈ cuts, c ≠ []) → cuts.flatten = pulsesOf s.params (packetOf reply) →
    s.transport.sends = .ok :: more →
    s.transport.receives = cuts.map .pulses ++ .pulses [] :: later →
    ∃ t, run (cuts.length + 8) s = .next t ∧
      t.busy = false ∧ t.phase = .idle ∧ t.dec.pos = 0 ∧ t.txnErr = TxnErr.clear ∧ t.txnOpcode = op ∧
      readElems t.mem .rxd 0 reply.length = some reply ∧
      (reply.head? = some (~~~op) → t.code = .ok ∧ t.result.toNat = reply.length) ∧
      (reply.head? ≠ some (~~~op) → t.code = .recvError ∧ t.result = 0)

/-- R171: a running COMMAND always finishes, whatever the Transport answers within its duties: from every sound state in
a phase of COMMAND, at most PLS_CAP + 7 moves of the block end it with `BUSY` = 0, unless a scripted answer breaks duty
T3, and then that answer is named: it stands in the script of the state the COMMAND was found in, and the refusal comes
when the block asks for fewer pulses than it carries. In phase `ENC_PKT` the request is taken to have values (log 8); in
the later phases the COMMAND never reads an element with no value. -/
def Obligations.CommandFinishes : Prop :=
  ∀ s : State, s.Inv → s.inputs = [] → s.phase ∉ [Phase.idle, .exec] →
    (s.phase = .encPkt → Written s.mem .txd 0 (min s.arg0.toNat s.params.maxPayload)) →
    ∃ n, n ≤ s.params.plsCap + 7 ∧
      ((∃ t, run n s = .next t ∧ t.busy = false) ∨
        ∃ m u a rest, m < n ∧ run m s = .next u ∧ u.phase = .recv ∧ u.transport.receives = a :: rest ∧
          a ∈ s.transport.receives ∧ a.withinDuty (u.params.plsCap - 1 - u.rxCount.toNat) = false ∧
          run n s = .refused .transportOverrun)

/-- R171: every move of a COMMAND that finds `DEC_POS` = 0 leaves `DEC_POS` = 0, whatever its status. -/
def Obligations.CommandKeepsDecoderAtRest : Prop :=
  ∀ s t : State, s.Inv → s.BlockMoves → decode s.cmd = .ok .command → s.phase ≠ .idle → s.dec.pos = 0 →
    step s = .next t → t.dec.pos = 0

/-- An operation that reaches a buffer element nothing has written since reset stops with the fault that says so (10_state.md
section 9 and U6; log 8): KENC and COMMAND on their payload, KDEC on the first element of a packet whose length passes its
tests. -/
def Obligations.UnwrittenElementsStop : Prop :=
  ∀ s : State, s.params.Legal →
    (2 * s.arg0.toNat + 5 ≤ s.arg1.toNat → 2 * s.arg0.toNat + 5 ≤ s.params.pktCap →
      readElems s.mem .txd 0 s.arg0.toNat = none → exec .kenc s = .fault .unwrittenElement) ∧
    (∀ L, s.arg0.toNat = 2 * L + 5 → L ≤ s.arg1.toNat → L ≤ s.params.maxPayload → readElem s.mem .pkt 0 = none →
      exec .kdec s = .fault .unwrittenElement) ∧
    (s.arg0 ≠ 0 → readElem s.mem .txd 0 = none → exec .command s = .fault .unwrittenElement) ∧
    (s.arg0.toNat ≤ s.params.maxPayload → readElems s.mem .txd 0 s.arg0.toNat = none →
      exec .command s = .fault .unwrittenElement)

/-! ## Whole-machine rules and invariants -/

/-- Reset gives a sound state, for every legal instance. -/
def Obligations.ResetIsSound : Prop := ∀ P : Params, P.Legal → (State.resetWith P).Inv

/-- Every step keeps a sound state sound: legal parameters, memory in its canonical form and within the buffers (R53),
`DEC_POS` legal (R28), `SEQ_PHASE` = `IDLE` exactly when not busy (R23), `CODE` = 0 while busy (R26), codes 2 to 4 never
in `STATUS` (R186), the summary kinds right (R24, R25), and the working state of a COMMAND ready for its phase. -/
def Obligations.StepKeepsSoundness : Prop := ∀ s t : State, s.Inv → step s = .next t → t.Inv

/-- The block writes neither an operand register, nor a parameter, nor an element of `TXD` (10_state.md sections 1 and 2):
an operand survives the operation that read it. -/
def Obligations.BlockLeavesOperandsAlone : Prop :=
  ∀ s t : State, s.BlockMoves → step s = .next t →
    t.arg0 = s.arg0 ∧ t.arg1 = s.arg1 ∧ t.params = s.params ∧
    ∀ i, i < 0x1000 → readElem t.mem .txd i = readElem s.mem .txd i

/-- The decoder state is written by the block only while PDEC runs and in the phase `DEC_PLS` of COMMAND, `DEC_OUT` likewise,
and `TXN_ERR`, `TXN_OPCODE` and the counts only while COMMAND runs (10_state.md sections 4, 6 and 8): an idle block writes none
of them, whichever operation ran last. -/
def Obligations.DecoderWrittenOnlyByDecodes : Prop :=
  ∀ s t : State, s.BlockMoves → step s = .next t →
    (s.phase ≠ .decPls → s.phase = .idle ∨ decode s.cmd ≠ .ok .pdec → t.dec = s.dec ∧ t.decOut = s.decOut) ∧
    (s.phase = .idle ∨ (s.phase = .exec ∧ decode s.cmd ≠ .ok .command) →
      t.txnErr = s.txnErr ∧ t.txnOpcode = s.txnOpcode ∧ t.txCount = s.txCount ∧ t.rxCount = s.rxCount ∧
      t.rxBytes = s.rxBytes)

/-- R186: which operation can finish with which code. -/
def Obligations.CodesPerOperation : Prop :=
  ∀ s t : State, s.Inv → s.BlockMoves → s.phase ≠ .idle → step s = .next t → t.phase = .idle →
    match decode s.cmd with
    | .ok .penc => t.code ∈ [Code.ok, .bufferTooSmall]
    | .ok .pdec => t.code = .ok
    | .ok .kenc => t.code ∈ [Code.ok, .bufferTooSmall]
    | .ok .kdec => t.code ∈ [Code.ok, .bufferTooSmall, .notAPacket, .refused]
    | .ok .openLink => t.code ∈ [Code.ok, .alreadyOpen, .notFound, .readOnly, .notSupported]
    | .ok .closeLink => t.code = .ok
    | .ok .resetLink => t.code ∈ [Code.ok, .notOpen, .deviceError]
    | .ok .command =>
      t.code ∈ [Code.ok, .bufferTooSmall, .notOpen, .deviceError, .bufferFull, .noReply, .recvError, .refused]
    | .error _ => t.code = .refused

/-- A move of an idle block completes and changes nothing but the inputs, whose head it takes, whichever command word ran last
(70_reset_and_hazards.md section 1). Each move of a running operation makes at most one Transport request, and only the request
of its operation or phase; and the phases of a COMMAND only move forward, one by one, RECV alone repeating, or end in `IDLE`
(10_state.md section 3). So a COMMAND sends once and nothing is retried (42_transaction.md sections 2 and 3, 60_exceptions.md
section 5). -/
def Obligations.RequestsByPhase : Prop :=
  (∀ s : State, s.BlockMoves → s.phase = .idle → step s = .next s.popInput) ∧
  ∀ s t : State, s.Inv → s.BlockMoves → s.phase ≠ .idle → step s = .next t →
    (t.phase = .idle ∨ (s.phase = .recv ∧ t.phase = .recv) ∨
      (phaseNumber t.phase = phaseNumber s.phase + 1 ∧ t.phase ≠ .exec)) ∧
    (t.requests = s.requests ∨
    ∃ r, t.requests = r :: s.requests ∧
      ((s.phase = .exec ∧ decode s.cmd = .ok .openLink ∧ r = .openLink) ∨
       (s.phase = .exec ∧ decode s.cmd = .ok .closeLink ∧ r = .closeLink) ∨
       (s.phase = .exec ∧ decode s.cmd = .ok .resetLink ∧ r = .resetLink) ∨
       (s.phase = .send ∧ t.phase ≠ .send ∧ ∃ ws, r = .send ws) ∨
       (s.phase = .recv ∧ ∃ k, r = .receive k ∧ 0 < k ∧ k < s.params.plsCap)))

/-- The move that ends an operation leaves the block not busy, and with `RESULT` = 0 unless its code is `Ok`
(60_exceptions.md section 4, 10_state.md section 2). -/
def Obligations.FailureClearsResult : Prop :=
  ∀ s t : State, s.BlockMoves → s.phase ≠ .idle → step s = .next t → t.phase = .idle →
    t.busy = false ∧ (t.code ≠ .ok → t.result = 0)
end

