-- ==== Sys2Proof/Laws/State.lean ====
section
/-! SUPPORT. One lemma per field per update of the state (each true by rfl), so that no later proof unfolds a record
update. -/

namespace Sys2Proof

/-! ## Parameters -/

theorem Params.legal_iff (P : Params) : P.legal = true ↔ P.Legal := by
  simp only [Params.legal, Bool.and_eq_true, decide_eq_true_eq]
  constructor
  · rintro ⟨⟨⟨⟨⟨⟨⟨h1, h2⟩, h3⟩, h4⟩, h5⟩, h6⟩, h7⟩, h8⟩
    exact ⟨h1, h2, h3, h4, h5, h6, h7, h8⟩
  · rintro ⟨h1, h2, h3, h4, h5, h6, h7, h8⟩
    exact ⟨⟨⟨⟨⟨⟨⟨h1, h2⟩, h3⟩, h4⟩, h5⟩, h6⟩, h7⟩, h8⟩

/-- The defaults are in the ranges (R7). -/
theorem Params.default_legal : Params.default.Legal := (Params.legal_iff _).1 (by decide)

end Sys2Proof

namespace Sys2Proof.Machine

/-! ## Finishing -/

section
variable (c : Code) (s : State)

@[simp] theorem finish_params : (finish c s).params = s.params := rfl
@[simp] theorem finish_code : (finish c s).code = c := rfl
@[simp] theorem finish_busy : (finish c s).busy = false := rfl
@[simp] theorem finish_phase : (finish c s).phase = .idle := rfl
@[simp] theorem finish_cmd : (finish c s).cmd = s.cmd := rfl
@[simp] theorem finish_arg0 : (finish c s).arg0 = s.arg0 := rfl
@[simp] theorem finish_arg1 : (finish c s).arg1 = s.arg1 := rfl
@[simp] theorem finish_result : (finish c s).result = s.result := rfl
@[simp] theorem finish_decOut : (finish c s).decOut = s.decOut := rfl
@[simp] theorem finish_dec : (finish c s).dec = s.dec := rfl
@[simp] theorem finish_txnOpcode : (finish c s).txnOpcode = s.txnOpcode := rfl
@[simp] theorem finish_txnErr : (finish c s).txnErr = s.txnErr := rfl
@[simp] theorem finish_txCount : (finish c s).txCount = s.txCount := rfl
@[simp] theorem finish_rxCount : (finish c s).rxCount = s.rxCount := rfl
@[simp] theorem finish_rxBytes : (finish c s).rxBytes = s.rxBytes := rfl
@[simp] theorem finish_mem : (finish c s).mem = s.mem := rfl
@[simp] theorem finish_readData : (finish c s).readData = s.readData := rfl
@[simp] theorem finish_inputs : (finish c s).inputs = s.inputs := rfl
@[simp] theorem finish_transport : (finish c s).transport = s.transport := rfl
@[simp] theorem finish_requests : (finish c s).requests = s.requests := rfl
@[simp] theorem finish_draws : (finish c s).draws = s.draws := rfl

end

/-! ## Finishing with a result -/

section
variable (n : Nat) (c : Code) (s : State)

@[simp] theorem finishWith_params : (finishWith n c s).params = s.params := rfl
@[simp] theorem finishWith_code : (finishWith n c s).code = c := rfl
@[simp] theorem finishWith_busy : (finishWith n c s).busy = false := rfl
@[simp] theorem finishWith_phase : (finishWith n c s).phase = .idle := rfl
@[simp] theorem finishWith_cmd : (finishWith n c s).cmd = s.cmd := rfl
@[simp] theorem finishWith_arg0 : (finishWith n c s).arg0 = s.arg0 := rfl
@[simp] theorem finishWith_arg1 : (finishWith n c s).arg1 = s.arg1 := rfl
@[simp] theorem finishWith_result : (finishWith n c s).result = BitVec.ofNat 32 n := rfl
@[simp] theorem finishWith_decOut : (finishWith n c s).decOut = s.decOut := rfl
@[simp] theorem finishWith_dec : (finishWith n c s).dec = s.dec := rfl
@[simp] theorem finishWith_txnOpcode : (finishWith n c s).txnOpcode = s.txnOpcode := rfl
@[simp] theorem finishWith_txnErr : (finishWith n c s).txnErr = s.txnErr := rfl
@[simp] theorem finishWith_txCount : (finishWith n c s).txCount = s.txCount := rfl
@[simp] theorem finishWith_rxCount : (finishWith n c s).rxCount = s.rxCount := rfl
@[simp] theorem finishWith_rxBytes : (finishWith n c s).rxBytes = s.rxBytes := rfl
@[simp] theorem finishWith_mem : (finishWith n c s).mem = s.mem := rfl
@[simp] theorem finishWith_readData : (finishWith n c s).readData = s.readData := rfl
@[simp] theorem finishWith_inputs : (finishWith n c s).inputs = s.inputs := rfl
@[simp] theorem finishWith_transport : (finishWith n c s).transport = s.transport := rfl
@[simp] theorem finishWith_requests : (finishWith n c s).requests = s.requests := rfl
@[simp] theorem finishWith_draws : (finishWith n c s).draws = s.draws := rfl

end

/-! ## Failing -/

section
variable (c : Code) (s : State)

@[simp] theorem fail_params : (fail c s).params = s.params := rfl
@[simp] theorem fail_code : (fail c s).code = c := rfl
@[simp] theorem fail_busy : (fail c s).busy = false := rfl
@[simp] theorem fail_phase : (fail c s).phase = .idle := rfl
@[simp] theorem fail_cmd : (fail c s).cmd = s.cmd := rfl
@[simp] theorem fail_arg0 : (fail c s).arg0 = s.arg0 := rfl
@[simp] theorem fail_arg1 : (fail c s).arg1 = s.arg1 := rfl
@[simp] theorem fail_result : (fail c s).result = 0 := rfl
@[simp] theorem fail_decOut : (fail c s).decOut = s.decOut := rfl
@[simp] theorem fail_dec : (fail c s).dec = s.dec := rfl
@[simp] theorem fail_txnOpcode : (fail c s).txnOpcode = s.txnOpcode := rfl
@[simp] theorem fail_txnErr : (fail c s).txnErr = s.txnErr := rfl
@[simp] theorem fail_txCount : (fail c s).txCount = s.txCount := rfl
@[simp] theorem fail_rxCount : (fail c s).rxCount = s.rxCount := rfl
@[simp] theorem fail_rxBytes : (fail c s).rxBytes = s.rxBytes := rfl
@[simp] theorem fail_mem : (fail c s).mem = s.mem := rfl
@[simp] theorem fail_readData : (fail c s).readData = s.readData := rfl
@[simp] theorem fail_inputs : (fail c s).inputs = s.inputs := rfl
@[simp] theorem fail_transport : (fail c s).transport = s.transport := rfl
@[simp] theorem fail_requests : (fail c s).requests = s.requests := rfl
@[simp] theorem fail_draws : (fail c s).draws = s.draws := rfl

end

/-! ## Starting an operation -/

section
variable (w : Word) (s : State)

@[simp] theorem startOperation_params : (startOperation w s).params = s.params := rfl
@[simp] theorem startOperation_code : (startOperation w s).code = .ok := rfl
@[simp] theorem startOperation_busy : (startOperation w s).busy = true := rfl
@[simp] theorem startOperation_phase : (startOperation w s).phase = firstPhase w := rfl
@[simp] theorem startOperation_cmd : (startOperation w s).cmd = w := rfl
@[simp] theorem startOperation_arg0 : (startOperation w s).arg0 = s.arg0 := rfl
@[simp] theorem startOperation_arg1 : (startOperation w s).arg1 = s.arg1 := rfl
@[simp] theorem startOperation_result : (startOperation w s).result = s.result := rfl
@[simp] theorem startOperation_decOut : (startOperation w s).decOut = s.decOut := rfl
@[simp] theorem startOperation_dec : (startOperation w s).dec = s.dec := rfl
@[simp] theorem startOperation_txnOpcode : (startOperation w s).txnOpcode = s.txnOpcode := rfl
@[simp] theorem startOperation_txnErr : (startOperation w s).txnErr = s.txnErr := rfl
@[simp] theorem startOperation_txCount : (startOperation w s).txCount = s.txCount := rfl
@[simp] theorem startOperation_rxCount : (startOperation w s).rxCount = s.rxCount := rfl
@[simp] theorem startOperation_rxBytes : (startOperation w s).rxBytes = s.rxBytes := rfl
@[simp] theorem startOperation_mem : (startOperation w s).mem = s.mem := rfl
@[simp] theorem startOperation_readData : (startOperation w s).readData = s.readData := rfl
@[simp] theorem startOperation_inputs : (startOperation w s).inputs = s.inputs := rfl
@[simp] theorem startOperation_transport : (startOperation w s).transport = s.transport := rfl
@[simp] theorem startOperation_requests : (startOperation w s).requests = s.requests := rfl
@[simp] theorem startOperation_draws : (startOperation w s).draws = s.draws := rfl

end

/-! ## A Transport request -/

section
variable (r : Request) (s : State)

@[simp] theorem issue_params : (issue r s).params = s.params := rfl
@[simp] theorem issue_code : (issue r s).code = s.code := rfl
@[simp] theorem issue_busy : (issue r s).busy = s.busy := rfl
@[simp] theorem issue_phase : (issue r s).phase = s.phase := rfl
@[simp] theorem issue_cmd : (issue r s).cmd = s.cmd := rfl
@[simp] theorem issue_arg0 : (issue r s).arg0 = s.arg0 := rfl
@[simp] theorem issue_arg1 : (issue r s).arg1 = s.arg1 := rfl
@[simp] theorem issue_result : (issue r s).result = s.result := rfl
@[simp] theorem issue_decOut : (issue r s).decOut = s.decOut := rfl
@[simp] theorem issue_dec : (issue r s).dec = s.dec := rfl
@[simp] theorem issue_txnOpcode : (issue r s).txnOpcode = s.txnOpcode := rfl
@[simp] theorem issue_txnErr : (issue r s).txnErr = s.txnErr := rfl
@[simp] theorem issue_txCount : (issue r s).txCount = s.txCount := rfl
@[simp] theorem issue_rxCount : (issue r s).rxCount = s.rxCount := rfl
@[simp] theorem issue_rxBytes : (issue r s).rxBytes = s.rxBytes := rfl
@[simp] theorem issue_mem : (issue r s).mem = s.mem := rfl
@[simp] theorem issue_readData : (issue r s).readData = s.readData := rfl
@[simp] theorem issue_inputs : (issue r s).inputs = s.inputs := rfl
@[simp] theorem issue_transport : (issue r s).transport = s.transport := rfl
@[simp] theorem issue_requests : (issue r s).requests = r :: s.requests := rfl
@[simp] theorem issue_draws : (issue r s).draws = s.draws := rfl

end

/-! ## Opening a transaction -/

section
variable (b : Byte) (s : State)

@[simp] theorem openTransaction_params : (openTransaction b s).params = s.params := rfl
@[simp] theorem openTransaction_code : (openTransaction b s).code = s.code := rfl
@[simp] theorem openTransaction_busy : (openTransaction b s).busy = s.busy := rfl
@[simp] theorem openTransaction_phase : (openTransaction b s).phase = .encPkt := rfl
@[simp] theorem openTransaction_cmd : (openTransaction b s).cmd = s.cmd := rfl
@[simp] theorem openTransaction_arg0 : (openTransaction b s).arg0 = s.arg0 := rfl
@[simp] theorem openTransaction_arg1 : (openTransaction b s).arg1 = s.arg1 := rfl
@[simp] theorem openTransaction_result : (openTransaction b s).result = s.result := rfl
@[simp] theorem openTransaction_decOut : (openTransaction b s).decOut = s.decOut := rfl
@[simp] theorem openTransaction_dec : (openTransaction b s).dec = s.dec := rfl
@[simp] theorem openTransaction_txnOpcode : (openTransaction b s).txnOpcode = b := rfl
@[simp] theorem openTransaction_txnErr : (openTransaction b s).txnErr = TxnErr.clear := rfl
@[simp] theorem openTransaction_txCount : (openTransaction b s).txCount = 0 := rfl
@[simp] theorem openTransaction_rxCount : (openTransaction b s).rxCount = 0 := rfl
@[simp] theorem openTransaction_rxBytes : (openTransaction b s).rxBytes = 0 := rfl
@[simp] theorem openTransaction_mem : (openTransaction b s).mem = s.mem := rfl
@[simp] theorem openTransaction_readData : (openTransaction b s).readData = s.readData := rfl
@[simp] theorem openTransaction_inputs : (openTransaction b s).inputs = s.inputs := rfl
@[simp] theorem openTransaction_transport : (openTransaction b s).transport = s.transport := rfl
@[simp] theorem openTransaction_requests : (openTransaction b s).requests = s.requests := rfl
@[simp] theorem openTransaction_draws : (openTransaction b s).draws = s.draws := rfl

end

/-! ## Taking an input -/

section
variable (s : State)

@[simp] theorem State.popInput_params : (State.popInput s).params = s.params := rfl
@[simp] theorem State.popInput_code : (State.popInput s).code = s.code := rfl
@[simp] theorem State.popInput_busy : (State.popInput s).busy = s.busy := rfl
@[simp] theorem State.popInput_phase : (State.popInput s).phase = s.phase := rfl
@[simp] theorem State.popInput_cmd : (State.popInput s).cmd = s.cmd := rfl
@[simp] theorem State.popInput_arg0 : (State.popInput s).arg0 = s.arg0 := rfl
@[simp] theorem State.popInput_arg1 : (State.popInput s).arg1 = s.arg1 := rfl
@[simp] theorem State.popInput_result : (State.popInput s).result = s.result := rfl
@[simp] theorem State.popInput_decOut : (State.popInput s).decOut = s.decOut := rfl
@[simp] theorem State.popInput_dec : (State.popInput s).dec = s.dec := rfl
@[simp] theorem State.popInput_txnOpcode : (State.popInput s).txnOpcode = s.txnOpcode := rfl
@[simp] theorem State.popInput_txnErr : (State.popInput s).txnErr = s.txnErr := rfl
@[simp] theorem State.popInput_txCount : (State.popInput s).txCount = s.txCount := rfl
@[simp] theorem State.popInput_rxCount : (State.popInput s).rxCount = s.rxCount := rfl
@[simp] theorem State.popInput_rxBytes : (State.popInput s).rxBytes = s.rxBytes := rfl
@[simp] theorem State.popInput_mem : (State.popInput s).mem = s.mem := rfl
@[simp] theorem State.popInput_readData : (State.popInput s).readData = s.readData := rfl
@[simp] theorem State.popInput_inputs : (State.popInput s).inputs = s.inputs.tail := rfl
@[simp] theorem State.popInput_transport : (State.popInput s).transport = s.transport := rfl
@[simp] theorem State.popInput_requests : (State.popInput s).requests = s.requests := rfl
@[simp] theorem State.popInput_draws : (State.popInput s).draws = s.draws := rfl

end

/-! ## Hardware reset -/

section
variable (s : State)

@[simp] theorem hardwareReset_params : (hardwareReset s).params = s.params := rfl
@[simp] theorem hardwareReset_code : (hardwareReset s).code = .ok := rfl
@[simp] theorem hardwareReset_busy : (hardwareReset s).busy = false := rfl
@[simp] theorem hardwareReset_phase : (hardwareReset s).phase = .idle := rfl
@[simp] theorem hardwareReset_cmd : (hardwareReset s).cmd = 0 := rfl
@[simp] theorem hardwareReset_arg0 : (hardwareReset s).arg0 = 0 := rfl
@[simp] theorem hardwareReset_arg1 : (hardwareReset s).arg1 = 0 := rfl
@[simp] theorem hardwareReset_result : (hardwareReset s).result = 0 := rfl
@[simp] theorem hardwareReset_decOut : (hardwareReset s).decOut = DecOut.none := rfl
@[simp] theorem hardwareReset_dec : (hardwareReset s).dec = Decoder.initial := rfl
@[simp] theorem hardwareReset_txnOpcode : (hardwareReset s).txnOpcode = 0 := rfl
@[simp] theorem hardwareReset_txnErr : (hardwareReset s).txnErr = TxnErr.clear := rfl
@[simp] theorem hardwareReset_txCount : (hardwareReset s).txCount = 0 := rfl
@[simp] theorem hardwareReset_rxCount : (hardwareReset s).rxCount = 0 := rfl
@[simp] theorem hardwareReset_rxBytes : (hardwareReset s).rxBytes = 0 := rfl
@[simp] theorem hardwareReset_mem : (hardwareReset s).mem = [] := rfl
@[simp] theorem hardwareReset_readData : (hardwareReset s).readData = s.readData := rfl
@[simp] theorem hardwareReset_inputs : (hardwareReset s).inputs = s.inputs := rfl
@[simp] theorem hardwareReset_transport : (hardwareReset s).transport = s.transport := rfl
@[simp] theorem hardwareReset_requests : (hardwareReset s).requests = s.requests := rfl
@[simp] theorem hardwareReset_draws : (hardwareReset s).draws = s.draws := rfl

end

end Sys2Proof.Machine
end

