-- ==== Sys2Proof/Laws/HostPort.lean ====
section
/-! SUPPORT. The laws of the host port: what a word index names, and a read while the block is idle. -/

namespace Sys2Proof.Machine

/-- The index of an element names it (R20, R55). -/
theorem place_element (P : Params) (hP : P.Legal) (b : Buffer) (k : Nat) (h : k < bufferCap P b) :
    place P (bufferBase b + k) = .element b k := by
  have h1 := hP.maxPayload_le
  have h2 := hP.plsCap_le
  have hc : bufferCap P .pkt = 2 * P.maxPayload + 5 := rfl
  have hx : bufferCap P .txd = P.maxPayload := rfl
  have hr : bufferCap P .rxd = P.maxPayload := rfl
  have ht : elementAt P b k = .element b k := if_pos h
  cases b
  · rw [place, if_neg (by simp only [bufferBase]; omega), if_pos (by simp only [bufferBase]; omega),
        Nat.add_sub_cancel_left, ht]
  · rw [place, if_neg (by simp only [bufferBase]; omega), if_neg (by simp only [bufferBase]; omega),
      if_pos (by simp only [bufferBase]; omega), Nat.add_sub_cancel_left, ht]
  · rw [place, if_neg (by simp only [bufferBase]; omega), if_neg (by simp only [bufferBase]; omega),
      if_neg (by simp only [bufferBase]; omega), if_pos (by simp only [bufferBase]; omega), Nat.add_sub_cancel_left, ht]
  · rw [place, if_neg (by simp only [bufferBase]; omega), if_neg (by simp only [bufferBase]; omega),
      if_neg (by simp only [bufferBase]; omega), if_neg (by simp only [bufferBase]; omega), Nat.add_sub_cancel_left, ht]

theorem elementAt_none {P : Params} {b : Buffer} {i : Nat} (h : bufferCap P b ≤ i) : elementAt P b i = .unmapped :=
  if_neg (Nat.not_lt.2 h)

/-- An unmapped index names nothing (R57). -/
theorem place_unmapped (P : Params) (x : Nat) (hx : x < 65536) (hP : P.Legal)
    (h : UnmappedIndex P x) : place P x = .unmapped := by
  have h1 := hP.maxPayload_le
  have h2 := hP.plsCap_le
  have hc : bufferCap P .pkt = P.pktCap := rfl
  have hx : bufferCap P .txd = P.maxPayload := rfl
  have hr : bufferCap P .rxd = P.maxPayload := rfl
  have hl : bufferCap P .pls = P.plsCap := rfl
  have hk : P.pktCap = 2 * P.maxPayload + 5 := rfl
  have b1 : bufferBase .txd = 0x1000 := rfl
  have b2 : bufferBase .rxd = 0x2000 := rfl
  have b3 : bufferBase .pkt = 0x4000 := rfl
  have b4 : bufferBase .pls = 0x8000 := rfl
  unfold UnmappedIndex at h
  unfold place
  split
  · have : x = 15 ∨ 21 ≤ x := by omega
    unfold registerAt
    split <;> first | rfl | omega
  · split
    · exact elementAt_none (by omega)
    · split
      · exact elementAt_none (by omega)
      · split
        · exact elementAt_none (by omega)
        · exact elementAt_none (by omega)

/-- An index names an element only if the buffer has it. -/
theorem lt_of_place_element {P : Params} {x : Nat} {b : Buffer} {k : Nat}
    (h : place P x = .element b k) : k < bufferCap P b := by
  have e : ∀ b' i, elementAt P b' i = .element b k → k < bufferCap P b := by
    intro b' i h
    unfold elementAt at h
    split at h
    · cases h; assumption
    · cases h
  have r : ∀ x, registerAt x ≠ .element b k := by
    intro x hx; unfold registerAt at hx; split at hx <;> cases hx
  unfold place at h
  split at h
  · exact absurd h (r x)
  · split at h
    · exact e _ _ h
    · split at h
      · exact e _ _ h
      · split at h
        · exact e _ _ h
        · exact e _ _ h

theorem placeWord_inputs (s : State) (rest : List Input) (p : Place) : placeWord { s with inputs :=
    rest } p = placeWord s p := by
  cases p
  · next r => cases r <;> rfl
  · rfl
  · rfl

/-- A host read while idle (R57). -/
theorem step_read_of_idle (s : State) (i : Index) (rest : List Input) (hb : s.busy = false)
    (hi : s.inputs = .read i :: rest) :
    step s = orUnwritten
      ((placeWord s (place s.params i.toNat)).map fun w => { s with inputs := rest, readData := w }) := by
  rw [← placeWord_inputs s rest]
  simp [step, hi, hostRead, hb]

end Sys2Proof.Machine
end

