-- ==== Sys2Proof/Laws/Memory.lean ====
section
/-! SUPPORT. The laws of memory: a read after a write, the frame of a write, and the canonical form, from one byte up to
the sequences of elements the operations write. -/

namespace Sys2Proof.Machine

/-! ## One byte -/

@[simp] theorem readByte_writeByte_same (m : Memory) (x : Nat) (v : Byte) : readByte (writeByte m x v) x = some v := by
  induction m with
  | nil => simp [writeByte, readByte]
  | cons c m ih =>
    obtain ⟨a, w⟩ := c
    simp only [writeByte]
    split
    · simp [readByte]
    · split
      · simp [readByte]
      · simp [readByte, *]

theorem readByte_writeByte_other (m : Memory) {x y : Nat} (v : Byte) (h : y ≠ x) :
    readByte (writeByte m x v) y = readByte m y := by
  induction m with
  | nil => simp [writeByte, readByte, h.symm]
  | cons c m ih =>
    obtain ⟨a, w⟩ := c
    simp only [writeByte]
    split
    · simp [readByte, h.symm]
    · split
      · next ha => subst ha; simp [readByte, h.symm]
      · simp [readByte, ih]

theorem readByte_writeByte (m : Memory) (x y : Nat) (v : Byte) :
    readByte (writeByte m x v) y = if y = x then some v else readByte m y := by
  split
  · next h => subst h; simp
  · next h => exact readByte_writeByte_other m v h

/-- The canonical form, seen from the first entry. -/
theorem wf_cons (a : Nat) (v : Byte) (m : Memory) :
    Memory.wf ((a, v) :: m) = true ↔ (∀ c ∈ m, a < c.1) ∧ Memory.wf m = true := by
  induction m generalizing a v with
  | nil => simp [Memory.wf]
  | cons c m ih =>
    obtain ⟨b, w⟩ := c
    have hb := ih b w
    simp only [Memory.wf, Bool.and_eq_true, decide_eq_true_eq, List.mem_cons, forall_eq_or_imp]
    constructor
    · rintro ⟨hab, hwf⟩
      exact ⟨⟨hab, fun c hc => lt_trans hab ((hb.1 hwf).1 c hc)⟩, hwf⟩
    · rintro ⟨⟨hab, -⟩, hwf⟩
      exact ⟨hab, hwf⟩

theorem mem_writeByte (m : Memory) (x : Nat) (v : Byte) (c : Host.Cell) (h : c ∈ writeByte m x v) :
    c ∈ m ∨ c.1 = x := by
  induction m with
  | nil => simp only [writeByte, List.mem_singleton] at h; simp [h]
  | cons d m ih =>
    obtain ⟨a, w⟩ := d
    simp only [writeByte] at h
    split at h
    · rcases List.mem_cons.1 h with rfl | h
      · exact Or.inr rfl
      · exact Or.inl h
    · split at h
      · rcases List.mem_cons.1 h with rfl | h
        · exact Or.inr rfl
        · exact Or.inl (List.mem_cons_of_mem _ h)
      · rcases List.mem_cons.1 h with rfl | h
        · exact Or.inl (List.mem_cons_self ..)
        · rcases ih h with h | h
          · exact Or.inl (List.mem_cons_of_mem _ h)
          · exact Or.inr h

theorem wf_writeByte (m : Memory) (x : Nat) (v : Byte) (h : Memory.wf m = true) : Memory.wf
    (writeByte m x v) = true := by
  induction m with
  | nil => simp [writeByte, Memory.wf]
  | cons c m ih =>
    obtain ⟨a, w⟩ := c
    obtain ⟨hlt, hm⟩ := (wf_cons a w m).1 h
    simp only [writeByte]
    split
    · next hx =>
      refine (wf_cons _ _ _).2 ⟨fun c hc => ?_, h⟩
      rcases List.mem_cons.1 hc with rfl | hc
      · exact hx
      · exact lt_trans hx (hlt c hc)
    · next hx =>
      split
      · next ha => subst ha; exact (wf_cons _ _ _).2 ⟨hlt, hm⟩
      · next ha =>
        refine (wf_cons _ _ _).2 ⟨fun c hc => ?_, ih hm⟩
        rcases mem_writeByte m x v c hc with hc | hc
        · exact hlt c hc
        · omega

/-! ## One word -/

@[simp] theorem joinLanes_byteLane (w : Word) : joinLanes (byteLane w 0) (byteLane w 1) (byteLane w 2)
    (byteLane w 3) = w := by
  have := w.isLt
  apply BitVec.eq_of_toNat_eq
  simp only [joinLanes, byteLane, BitVec.toNat_ofNat]
  omega

@[simp] theorem readWord_writeWord_same (m : Memory) (x : Nat) (w : Word) : readWord (writeWord m x w) x = some w := by
  simp [readWord, writeWord, readByte_writeByte]

theorem readByte_writeWord_other (m : Memory) {x y : Nat} (w : Word) (h : y < x ∨ x + 4 ≤ y) :
    readByte (writeWord m x w) y = readByte m y := by
  simp only [writeWord]
  rw [readByte_writeByte_other _ _ (by omega), readByte_writeByte_other _ _ (by omega),
    readByte_writeByte_other _ _ (by omega), readByte_writeByte_other _ _ (by omega)]

theorem readWord_congr {m m' : Memory} {x : Nat} (h : ∀ k, k < 4 → readByte m' (x + k) = readByte m (x + k)) :
    readWord m' x = readWord m x := by
  have h0 := h 0 (by omega)
  simp only [Nat.add_zero] at h0
  simp only [readWord, h0, h 1 (by omega), h 2 (by omega), h 3 (by omega)]

theorem wf_writeWord (m : Memory) (x : Nat) (w : Word) (h : Memory.wf m = true) : Memory.wf (writeWord m x w) = true :=
  wf_writeByte _ _ _ (wf_writeByte _ _ _ (wf_writeByte _ _ _ (wf_writeByte _ _ _ h)))

/-! ## One element -/

theorem readElem_writeElem (m : Memory) (b b' : Buffer) (i j : Nat) (v : Byte) :
    readElem (writeElem m b i v) b' j = if bufferBase b' + j = bufferBase b + i then some v else readElem m b' j := by
  simp only [readElem, writeElem, readByte_writeByte, elemAddr]
  congr 1
  simp only [eq_iff_iff]
  omega

@[simp] theorem readElem_writeElem_same (m : Memory) (b : Buffer) (i : Nat) (v : Byte) :
    readElem (writeElem m b i v) b i = some v := by
  simp [readElem_writeElem]

theorem readElem_writeElem_other (m : Memory) {b b' : Buffer} {i j : Nat} (v : Byte)
    (h : bufferBase b' + j ≠ bufferBase b + i) : readElem (writeElem m b i v) b' j = readElem m b' j := by
  simp [readElem_writeElem, h]

theorem readByte_writeElem_other (m : Memory) {b : Buffer} {i a : Nat} (v : Byte) (h : a ≠ elemAddr b i) :
    readByte (writeElem m b i v) a = readByte m a :=
  readByte_writeByte_other m v h

theorem readPulse_writePulse (m : Memory) (i j : Nat) (w : Word) :
    readPulse (writePulse m i w) j = if j = i then some w else readPulse m j := by
  split
  · next h => subst h; simp [readPulse, writePulse]
  · next h =>
    apply readWord_congr
    intro k hk
    apply readByte_writeWord_other
    simp only [elemAddr]
    omega

@[simp] theorem readPulse_writePulse_same (m : Memory) (i : Nat) (w : Word) :
    readPulse (writePulse m i w) i = some w := by
  simp [readPulse_writePulse]

theorem readByte_writePulse_other (m : Memory) {i a : Nat} (w : Word)
    (h : a < elemAddr .pls i ∨ elemAddr .pls i + 4 ≤ a) : readByte (writePulse m i w) a = readByte m a :=
  readByte_writeWord_other m w h

theorem readElem_writePulse (m : Memory) {b : Buffer} {i j : Nat} (w : Word)
    (h : bufferBase b + j ≠ bufferBase .pls + i) :
    readElem (writePulse m i w) b j = readElem m b j := by
  apply readByte_writeWord_other
  simp only [elemAddr]
  omega

theorem readPulse_writeElem (m : Memory) {b : Buffer} {i j : Nat} (v : Byte)
    (h : bufferBase .pls + i ≠ bufferBase b + j) :
    readPulse (writeElem m b j v) i = readPulse m i := by
  apply readWord_congr
  intro k hk
  apply readByte_writeElem_other
  simp only [elemAddr]
  omega

theorem wf_writeElem (m : Memory) (b : Buffer) (i : Nat) (v : Byte) (h : Memory.wf m = true) :
    Memory.wf (writeElem m b i v) = true :=
  wf_writeByte _ _ _ h

theorem wf_writePulse (m : Memory) (i : Nat) (w : Word) (h : Memory.wf m = true) : Memory.wf
    (writePulse m i w) = true :=
  wf_writeWord _ _ _ h

/-! ## Sequences of bytes -/

theorem readElems_eq_some_iff (m : Memory) (b : Buffer) (i n : Nat) (vs : List Byte) :
    readElems m b i n = some vs ↔ vs.length = n ∧ ∀ k, k < n → readElem m b (i + k) = vs[k]? := by
  induction n generalizing i vs with
  | zero => cases vs <;> simp [readElems]
  | succ n ih =>
    simp only [readElems]
    constructor
    · intro h
      split at h
      · cases h
      · next v hv =>
        split at h
        · cases h
        · next ws hws =>
          cases h
          obtain ⟨hl, hk⟩ := (ih _ _).1 hws
          refine ⟨by simp [hl], fun k hk' => ?_⟩
          cases k with
          | zero => simpa using hv
          | succ k => simpa [Nat.add_assoc, Nat.add_comm, Nat.add_left_comm] using hk k (by omega)
    · rintro ⟨hl, hk⟩
      cases vs with
      | nil => simp at hl
      | cons v ws =>
        have h0 := hk 0 (by omega)
        simp only [Nat.add_zero, List.getElem?_cons_zero] at h0
        have hrest : readElems m b (i + 1) n = some ws := by
          refine (ih _ _).2 ⟨by simpa using hl, fun k hk' => ?_⟩
          simpa [Nat.add_assoc, Nat.add_comm, Nat.add_left_comm] using hk (k + 1) (by omega)
        simp [h0, hrest]

theorem readElems_length {m : Memory} {b : Buffer} {i n : Nat} {vs : List Byte} (h : readElems m b i n = some vs) :
    vs.length = n :=
  ((readElems_eq_some_iff ..).1 h).1

theorem readElems_congr {m m' : Memory} {b : Buffer} {i n : Nat}
    (h : ∀ k, k < n → readElem m' b (i + k) = readElem m b (i + k)) : readElems m' b i n = readElems m b i n := by
  induction n generalizing i with
  | zero => rfl
  | succ n ih =>
    have h0 := h 0 (by omega)
    simp only [Nat.add_zero] at h0
    have hr : readElems m' b (i + 1) n = readElems m b (i + 1) n := by
      apply ih
      intro k hk
      have := h (k + 1) (by omega)
      simpa [Nat.add_assoc, Nat.add_comm, Nat.add_left_comm] using this
    simp only [readElems, h0, hr]

theorem writeElems_append (m : Memory) (b : Buffer) (i : Nat) (us vs : List Byte) :
    writeElems m b i (us ++ vs) = writeElems (writeElems m b i us) b (i + us.length) vs := by
  induction us generalizing m i with
  | nil => simp [writeElems]
  | cons u us ih => simp [writeElems, ih, Nat.add_assoc, Nat.add_comm 1]

/-- A read of an element after a sequence was written: the element of the sequence, or what was there before. -/
theorem readElem_writeElems (m : Memory) (b b' : Buffer) (i j : Nat) (vs : List Byte) :
    readElem (writeElems m b i vs) b' j =
      if bufferBase b + i ≤ bufferBase b' + j ∧ bufferBase b' + j < bufferBase b + i + vs.length
      then vs[bufferBase b' + j - (bufferBase b + i)]? else readElem m b' j := by
  induction vs generalizing m i with
  | nil => simp [writeElems]
  | cons v vs ih =>
    simp only [writeElems, ih, readElem_writeElem, List.length_cons]
    rcases Nat.lt_trichotomy (bufferBase b' + j) (bufferBase b + i) with h | h | h
    · rw [if_neg (by omega), if_neg (by omega), if_neg (by omega)]
    · rw [if_neg (by omega), if_pos h, if_pos (by omega), h]
      simp
    · by_cases h2 : bufferBase b' + j < bufferBase b + i + (vs.length + 1)
      · rw [if_pos (by omega), if_pos (by omega)]
        have : bufferBase b' + j - (bufferBase b + i) = bufferBase b' + j - (bufferBase b + (i + 1)) + 1 := by omega
        rw [this, List.getElem?_cons_succ]
      · rw [if_neg (by omega), if_neg (by omega), if_neg (by omega)]

@[simp] theorem readElems_writeElems_same (m : Memory) (b : Buffer) (i : Nat) (vs : List Byte) :
    readElems (writeElems m b i vs) b i vs.length = some vs := by
  refine (readElems_eq_some_iff ..).2 ⟨rfl, fun k hk => ?_⟩
  rw [readElem_writeElems, if_pos (by omega)]
  congr 1
  omega

theorem readByte_writeElems_other (m : Memory) {b : Buffer} {i a : Nat} (vs : List Byte)
    (h : ∀ j, i ≤ j → j < i + vs.length → a ≠ elemAddr b j) : readByte (writeElems m b i vs) a = readByte m a := by
  induction vs generalizing m i with
  | nil => rfl
  | cons v vs ih =>
    rw [writeElems, ih _ (fun j h1 h2 => h j (by omega) (by simp only [List.length_cons]; omega)),
      readByte_writeElem_other _ _ (h i (le_refl i) (by simp))]

theorem readPulse_writeElems (m : Memory) {b : Buffer} {i j : Nat} (vs : List Byte)
    (h : bufferBase b + i + vs.length ≤ bufferBase .pls) : readPulse (writeElems m b i vs) j = readPulse m j := by
  induction vs generalizing m i with
  | nil => rfl
  | cons v vs ih =>
    simp only [List.length_cons] at h
    rw [writeElems, ih _ (by omega), readPulse_writeElem _ _ (by omega)]

theorem wf_writeElems (m : Memory) (b : Buffer) (i : Nat) (vs : List Byte) (h : Memory.wf m = true) :
    Memory.wf (writeElems m b i vs) = true := by
  induction vs generalizing m i with
  | nil => exact h
  | cons v vs ih => exact ih _ _ (wf_writeElem _ _ _ _ h)

/-! ## Sequences of pulses -/

theorem readPulses_eq_some_iff (m : Memory) (i n : Nat) (ws : List Word) :
    readPulses m i n = some ws ↔ ws.length = n ∧ ∀ k, k < n → readPulse m (i + k) = ws[k]? := by
  induction n generalizing i ws with
  | zero => cases ws <;> simp [readPulses]
  | succ n ih =>
    simp only [readPulses]
    constructor
    · intro h
      split at h
      · cases h
      · next v hv =>
        split at h
        · cases h
        · next us hus =>
          cases h
          obtain ⟨hl, hk⟩ := (ih _ _).1 hus
          refine ⟨by simp [hl], fun k hk' => ?_⟩
          cases k with
          | zero => simpa using hv
          | succ k => simpa [Nat.add_assoc, Nat.add_comm, Nat.add_left_comm] using hk k (by omega)
    · rintro ⟨hl, hk⟩
      cases ws with
      | nil => simp at hl
      | cons v us =>
        have h0 := hk 0 (by omega)
        simp only [Nat.add_zero, List.getElem?_cons_zero] at h0
        have hrest : readPulses m (i + 1) n = some us := by
          refine (ih _ _).2 ⟨by simpa using hl, fun k hk' => ?_⟩
          simpa [Nat.add_assoc, Nat.add_comm, Nat.add_left_comm] using hk (k + 1) (by omega)
        simp [h0, hrest]

theorem readPulses_congr {m m' : Memory} {i n : Nat}
    (h : ∀ k, k < n → readPulse m' (i + k) = readPulse m (i + k)) : readPulses m' i n = readPulses m i n := by
  induction n generalizing i with
  | zero => rfl
  | succ n ih =>
    have h0 := h 0 (by omega)
    simp only [Nat.add_zero] at h0
    have hr : readPulses m' (i + 1) n = readPulses m (i + 1) n := by
      apply ih
      intro k hk
      have := h (k + 1) (by omega)
      simpa [Nat.add_assoc, Nat.add_comm, Nat.add_left_comm] using this
    simp only [readPulses, h0, hr]

/-- `PLS[i..i+a+b)` is `PLS[i..i+a)` followed by `PLS[i+a..i+a+b)`. -/
theorem readPulses_add {m : Memory} {i a b : Nat} {us vs : List Word} (hu : readPulses m i a = some us)
    (hv : readPulses m (i + a) b = some vs) : readPulses m i (a + b) = some (us ++ vs) := by
  obtain ⟨hul, huk⟩ := (readPulses_eq_some_iff ..).1 hu
  obtain ⟨hvl, hvk⟩ := (readPulses_eq_some_iff ..).1 hv
  refine (readPulses_eq_some_iff ..).2 ⟨by simp [hul, hvl], fun k hk => ?_⟩
  by_cases h : k < a
  · rw [huk k h, List.getElem?_append_left (by omega)]
  · have := hvk (k - a) (by omega)
    rw [show i + a + (k - a) = i + k by omega] at this
    rw [this, List.getElem?_append_right (by omega), hul]

theorem writePulses_append (m : Memory) (i : Nat) (us vs : List Word) :
    writePulses m i (us ++ vs) = writePulses (writePulses m i us) (i + us.length) vs := by
  induction us generalizing m i with
  | nil => simp [writePulses]
  | cons u us ih => simp [writePulses, ih, Nat.add_assoc, Nat.add_comm 1]

/-- A read of a pulse after a sequence was written: the pulse of the sequence, or what was there before. -/
theorem readPulse_writePulses (m : Memory) (i j : Nat) (ws : List Word) :
    readPulse (writePulses m i ws) j = if i ≤ j ∧ j < i + ws.length then ws[j - i]? else readPulse m j := by
  induction ws generalizing m i with
  | nil => simp [writePulses]
  | cons w ws ih =>
    simp only [writePulses, ih, readPulse_writePulse, List.length_cons]
    rcases Nat.lt_trichotomy j i with h | h | h
    · rw [if_neg (by omega), if_neg (by omega), if_neg (by omega)]
    · rw [if_neg (by omega), if_pos h, if_pos (by omega), h]
      simp
    · by_cases h2 : j < i + (ws.length + 1)
      · rw [if_pos (by omega), if_pos (by omega)]
        have : j - i = j - (i + 1) + 1 := by omega
        rw [this, List.getElem?_cons_succ]
      · rw [if_neg (by omega), if_neg (by omega), if_neg (by omega)]

@[simp] theorem readPulses_writePulses_same (m : Memory) (i : Nat) (ws : List Word) :
    readPulses (writePulses m i ws) i ws.length = some ws := by
  refine (readPulses_eq_some_iff ..).2 ⟨rfl, fun k hk => ?_⟩
  rw [readPulse_writePulses, if_pos (by omega)]
  congr 1
  omega

theorem readByte_writePulses_other (m : Memory) {i a : Nat} (ws : List Word)
    (h : ∀ j, i ≤ j → j < i + ws.length → a < elemAddr .pls j ∨ elemAddr .pls j + 4 ≤ a) :
    readByte (writePulses m i ws) a = readByte m a := by
  induction ws generalizing m i with
  | nil => rfl
  | cons w ws ih =>
    rw [writePulses, ih _ (fun j h1 h2 => h j (by omega) (by simp only [List.length_cons]; omega)),
      readByte_writePulse_other _ _ (h i (le_refl i) (by simp))]

theorem readElem_writePulses (m : Memory) {b : Buffer} {i j : Nat} (ws : List Word)
    (h : bufferBase b + j < bufferBase .pls) : readElem (writePulses m i ws) b j = readElem m b j := by
  induction ws generalizing m i with
  | nil => rfl
  | cons w ws ih => rw [writePulses, ih, readElem_writePulse _ _ (by omega)]

theorem wf_writePulses (m : Memory) (i : Nat) (ws : List Word) (h : Memory.wf m = true) :
    Memory.wf (writePulses m i ws) = true := by
  induction ws generalizing m i with
  | nil => exact h
  | cons w ws ih => exact ih _ _ (wf_writePulse _ _ _ h)

/-! ## Mapped bytes -/

theorem Mapped.writeElem {P : Params} {m : Memory} (h : Mapped P m) {b : Buffer} {i : Nat} (v : Byte)
    (hi : i < bufferCap P b) : Mapped P (writeElem m b i v) := by
  intro c hc
  rcases mem_writeByte _ _ _ _ hc with hc | hc
  · exact h c hc
  · exact ⟨b, i, 0, hi, by cases b <;> decide, by simpa using hc⟩

theorem Mapped.writePulse {P : Params} {m : Memory} (h : Mapped P m) {i : Nat} (w : Word) (hi : i < P.plsCap) :
    Mapped P (writePulse m i w) := by
  intro c hc
  have lane : ∀ k, k < 4 → c.1 = elemAddr .pls i + k →
      ∃ b j k, j < bufferCap P b ∧ k < lanes b ∧ c.1 = elemAddr b j + k :=
    fun k hk e => ⟨.pls, i, k, hi, hk, e⟩
  rcases mem_writeByte _ _ _ _ hc with hc | hc
  · rcases mem_writeByte _ _ _ _ hc with hc | hc
    · rcases mem_writeByte _ _ _ _ hc with hc | hc
      · rcases mem_writeByte _ _ _ _ hc with hc | hc
        · exact h c hc
        · exact lane 0 (by omega) (by simpa using hc)
      · exact lane 1 (by omega) hc
    · exact lane 2 (by omega) hc
  · exact lane 3 (by omega) hc

theorem Mapped.writeElems {P : Params} {m : Memory} (h : Mapped P m) {b : Buffer} {i : Nat} (vs : List Byte)
    (hi : i + vs.length ≤ bufferCap P b) : Mapped P (writeElems m b i vs) := by
  induction vs generalizing m i with
  | nil => exact h
  | cons v vs ih =>
    simp only [List.length_cons] at hi
    exact ih (h.writeElem v (by omega)) (by omega)

theorem Mapped.writePulses {P : Params} {m : Memory} (h : Mapped P m) {i : Nat} (ws : List Word)
    (hi : i + ws.length ≤ P.plsCap) : Mapped P (writePulses m i ws) := by
  induction ws generalizing m i with
  | nil => exact h
  | cons w ws ih =>
    simp only [List.length_cons] at hi
    exact ih (h.writePulse w (by omega)) (by omega)

/-! ## Addresses outside a range of elements -/

/-- An address outside a range is not the address of an element of it. -/
theorem Outside.ne_elemAddr {b : Buffer} {i n a j : Nat} (h : Outside b i n a) (h1 : i ≤ j)
    (h2 : j < i + n) : a ≠ elemAddr b j := by
  have := h j 0 h1 h2 (by cases b <;> decide)
  simpa using this

theorem readByte_writeElems_outside {m : Memory} {b : Buffer} {i n a : Nat} {vs : List Byte} (h : Outside b i n a)
    (hl : vs.length ≤ n) :
    readByte (writeElems m b i vs) a = readByte m a :=
  readByte_writeElems_other _ _ fun j h1 h2 => h.ne_elemAddr h1 (by omega)

theorem readByte_writePulses_outside {m : Memory} {i n a : Nat} {vs : List Word} (h : Outside .pls i n a)
    (hl : vs.length ≤ n) :
    readByte (writePulses m i vs) a = readByte m a :=
  readByte_writePulses_other _ _ fun j h1 h2 => by
    have h0 := h j 0 h1 (by omega) (by decide)
    have h1' := h j 1 h1 (by omega) (by decide)
    have h2' := h j 2 h1 (by omega) (by decide)
    have h3 := h j 3 h1 (by omega) (by decide)
    omega

end Sys2Proof.Machine
end

