-- ==== Sys2Proof/Laws/Packet.lean ====
section
/-! SUPPORT. The laws of the packet codec: what `pack` writes, what `unpack` accepts, and what each can do at all. -/

namespace Sys2Proof.Machine

/-! ## Lists of pairs -/

@[simp] theorem pairs_length (ds : List Byte) : (pairs ds).length = 2 * ds.length := by
  induction ds with
  | nil => rfl
  | cons d ds ih => simp only [pairs, List.length_cons, ih]; omega

@[simp] theorem packetOf_length (ds : List Byte) : (packetOf ds).length = 2 * ds.length + 5 := by
  simp [packetOf]

theorem complement_complement (x : Byte) : complement (complement x) = x := by
  have := x.isLt
  apply BitVec.eq_of_toNat_eq
  simp only [complement, BitVec.toNat_ofNat]
  omega

theorem complement_ne (x : Byte) : complement x ≠ x := by
  intro h
  have h := congrArg BitVec.toNat h
  have := x.isLt
  simp only [complement, BitVec.toNat_ofNat] at h
  omega

/-! ## Reading and splitting -/

theorem readElems_cons {m : Memory} {b : Buffer} {i n : Nat} {v : Byte} {vs : List Byte}
    (h : readElems m b i (n + 1) = some (v :: vs)) : readElem m b i = some v ∧ readElems m b (i + 1) n = some vs := by
  simp only [readElems] at h
  split at h
  · cases h
  · next u hu =>
    split at h
    · cases h
    · next us hus => cases h; exact ⟨hu, hus⟩

theorem readElems_append {m : Memory} {b : Buffer} {i n : Nat} {us vs : List Byte}
    (h : readElems m b i n = some (us ++ vs)) :
    readElems m b i us.length = some us ∧ readElems m b (i + us.length) vs.length = some vs := by
  obtain ⟨hl, hk⟩ := (readElems_eq_some_iff ..).1 h
  simp only [List.length_append] at hl
  refine ⟨(readElems_eq_some_iff ..).2 ⟨rfl, fun k hk' => ?_⟩, (readElems_eq_some_iff ..).2 ⟨rfl, fun k hk' => ?_⟩⟩
  · rw [hk k (by omega), List.getElem?_append_left hk']
  · rw [Nat.add_assoc, hk (us.length + k) (by omega), List.getElem?_append_right (by omega), Nat.add_sub_cancel_left]

theorem readElems_join {m : Memory} {b : Buffer} {i a c : Nat} {us vs : List Byte} (hu : readElems m b i a = some us)
    (hv : readElems m b (i + a) c = some vs) : readElems m b i (a + c) = some (us ++ vs) := by
  obtain ⟨hul, huk⟩ := (readElems_eq_some_iff ..).1 hu
  obtain ⟨hvl, hvk⟩ := (readElems_eq_some_iff ..).1 hv
  refine (readElems_eq_some_iff ..).2 ⟨by simp [hul, hvl], fun k hk => ?_⟩
  by_cases h : k < a
  · rw [huk k h, List.getElem?_append_left (by omega)]
  · have := hvk (k - a) (by omega)
    rw [show i + a + (k - a) = i + k by omega] at this
    rw [this, List.getElem?_append_right (by omega), hul]

/-- An element inside a written stretch has a value. -/
theorem Written.elem {m : Memory} {b : Buffer} {n j : Nat} (h : Written m b 0 n) (hj : j < n) :
    ∃ v, readElem m b j = some v := by
  obtain ⟨vs, h⟩ := h
  obtain ⟨hl, hk⟩ := (readElems_eq_some_iff ..).1 h
  have := hk j hj
  rw [Nat.zero_add] at this
  exact ⟨vs[j]'(by omega), by rw [this, List.getElem?_eq_getElem]⟩

theorem Written.mono {m : Memory} {b : Buffer} {i n k : Nat} (h : Written m b i n) (hk : k ≤ n) : Written m b i k := by
  obtain ⟨vs, h⟩ := h
  obtain ⟨hl, hv⟩ := (readElems_eq_some_iff ..).1 h
  refine ⟨vs.take k, (readElems_eq_some_iff ..).2 ⟨by simp; omega, fun j hj => ?_⟩⟩
  rw [hv j (by omega), List.getElem?_take_of_lt hj]

/-! ## pack -/

/-- The pairs of a readable payload: written in order, the sum added up (R130). The bound keeps `TXD` clear of `PKT`. -/
theorem packPairs_of_readElems {n i : Nat} {sum : Byte} {m : Memory} {ds : List Byte}
    (h : readElems m .txd i n = some ds) (hb : i + n ≤ 0x1000) :
    packPairs n i sum m = some (writeElems m .pkt (3 + 2 * i) (pairs ds), ds.foldl (· + ·) sum) := by
  induction n generalizing i sum m ds with
  | zero =>
    obtain rfl : ds = [] := by simpa [readElems] using h.symm
    simp [packPairs, pairs, writeElems]
  | succ n ih =>
    cases ds with
    | nil => exact absurd (readElems_length h) (by simp)
    | cons d ds =>
      obtain ⟨hd, hds⟩ := readElems_cons h
      have hds' : readElems (writeElem (writeElem m .pkt (3 + 2 * i) d) .pkt (4 + 2 * i) (complement d)) .txd
          (i + 1) n =
          some ds := by
        rw [← hds]
        apply readElems_congr
        intro k hk
        rw [readElem_writeElem_other _ _ (by simp only [bufferBase]; omega),
          readElem_writeElem_other _ _ (by simp only [bufferBase]; omega)]
      simp only [packPairs, hd, ih hds' (by omega), pairs, writeElems, List.foldl_cons]
      rw [show 3 + 2 * (i + 1) = 3 + 2 * i + 1 + 1 by omega, show 4 + 2 * i = 3 + 2 * i + 1 by omega]

theorem readElems_of_packPairs {n i : Nat} {sum : Byte} {m : Memory} {r : Memory × Byte}
    (h : packPairs n i sum m = some r) (hb : i + n ≤ 0x1000) : ∃ ds, readElems m .txd i n = some ds := by
  induction n generalizing i sum m with
  | zero => exact ⟨[], rfl⟩
  | succ n ih =>
    simp only [packPairs] at h
    split at h
    · cases h
    · next d hd =>
      obtain ⟨ds, hds⟩ := ih h (by omega)
      refine ⟨d :: ds, ?_⟩
      have : readElems m .txd (i + 1) n = some ds := by
        rw [← hds]
        apply Eq.symm
        apply readElems_congr
        intro k hk
        rw [readElem_writeElem_other _ _ (by simp only [bufferBase]; omega),
          readElem_writeElem_other _ _ (by simp only [bufferBase]; omega)]
      simp [readElems, hd, this]

theorem writeHeader_eq (m : Memory) :
    writeHeader m = writeElems m .pkt 0 [Config.header0, Config.header1, Config.header2] := rfl

theorem readElems_txd_writeHeader (m : Memory) {n : Nat} (hb : n ≤ 0x1000) :
    readElems (writeHeader m) .txd 0 n = readElems m .txd 0 n := by
  apply readElems_congr
  intro k hk
  rw [writeHeader_eq, readElem_writeElems, if_neg (by simp only [bufferBase]; omega)]

/-- `pack` of a readable payload that fits: the packet of R74, written in order, and its length (R130). -/
theorem pack_of_readElems {L cap : Nat} {m : Memory} {ds : List Byte} (h : readElems m .txd 0 L = some ds)
    (hcap : 2 * L + 5 ≤ cap) (hb : L ≤ 0x1000) :
    pack L cap m = some (writeElems m .pkt 0 (packetOf ds), .ok, 2 * L + 5) := by
  have hl := readElems_length h
  have hp := packPairs_of_readElems (sum := 0) (m := writeHeader m) (by rw [readElems_txd_writeHeader m hb]; exact h)
    (by omega : 0 + L ≤ 0x1000)
  have hfit : ¬ cap < 2 * L + Config.pktOverhead := Nat.not_lt.2 hcap
  simp only [pack, if_neg hfit, hp, packetOf, writeElems_append, List.length_append, pairs_length, hl]
  simp only [writeHeader_eq, writeElems, checksum, List.length_cons, List.length_nil, Config.pktOverhead]
  rw [show 0 + (0 + 1 + 1 + 1 + 2 * L) = 3 + 2 * L by omega, show 4 + 2 * L = 3 + 2 * L + 1 by omega]

/-- `pack` that does not fit writes nothing (R131). -/
theorem pack_tooSmall {L cap : Nat} (m : Memory) (h : cap < 2 * L + 5) : pack L cap m = some
    (m, .bufferTooSmall, 0) := by
  simp [pack, Config.pktOverhead, h]

/-- All that `pack` can do when it has a result. -/
theorem pack_cases {L cap : Nat} {m m' : Memory} {c : Code} {n : Nat} (h : pack L cap m = some (m', c, n))
    (hcap : cap ≤ 0x1000) :
    (cap < 2 * L + 5 ∧ m' = m ∧ c = .bufferTooSmall ∧ n = 0) ∨
    (2 * L + 5 ≤ cap ∧ c = .ok ∧ n = 2 * L + 5 ∧
      ∃ ds, readElems m .txd 0 L = some ds ∧ m' = writeElems m .pkt 0 (packetOf ds)) := by
  rcases Nat.lt_or_ge cap (2 * L + 5) with hc | hc
  · rw [pack_tooSmall m hc] at h
    cases h
    exact .inl ⟨hc, rfl, rfl, rfl⟩
  · have hb : L ≤ 0x1000 := by omega
    have : ∃ ds, readElems m .txd 0 L = some ds := by
      have hfit : ¬ cap < 2 * L + Config.pktOverhead := Nat.not_lt.2 hc
      simp only [pack, if_neg hfit] at h
      split at h
      · cases h
      · next m1 sum hp =>
        obtain ⟨ds, hds⟩ := readElems_of_packPairs hp (by omega)
        exact ⟨ds, by rw [← readElems_txd_writeHeader m hb]; exact hds⟩
    obtain ⟨ds, hds⟩ := this
    rw [pack_of_readElems hds hc hb] at h
    cases h
    exact .inr ⟨hc, rfl, rfl, ds, hds, rfl⟩

/-- `pack` of a payload that fits has no result when an element of it has no value (U6). -/
theorem pack_none {L cap : Nat} {m : Memory} (h : readElems m .txd 0 L = none) (hc : 2 * L + 5 ≤ cap)
    (hcap : cap ≤ 0x1000) : pack L cap m = none := by
  cases hp : pack L cap m with
  | none => rfl
  | some r =>
    obtain ⟨m', c, n⟩ := r
    rcases pack_cases hp hcap with ⟨hh, -⟩ | ⟨-, -, -, ds, hds, -⟩
    · omega
    · rw [h] at hds
      cases hds

/-! ## unpack -/

/-- The header is there (R138). -/
def HeaderGood (m : Memory) : Prop :=
  readElem m .pkt 0 = some Config.header0 ∧ readElem m .pkt 1 = some Config.header1 ∧
    readElem m .pkt 2 = some Config.header2

theorem headerTest_cases {m : Memory} {h : Byte} {cur c : Nat} (ht : headerTest m h cur = some c) :
    (c = cur + 1 ∧ readElem m .pkt cur = some h) ∨ (c = cur ∧ readElem m .pkt cur ≠ some h) := by
  simp only [headerTest] at ht
  split at ht
  · cases ht
  · next b hb =>
    cases ht
    by_cases e : b = h
    · exact .inl ⟨by simp [e], by rw [hb, e]⟩
    · exact .inr ⟨by simp [e], by rw [hb]; simpa using e⟩

/-- The cursor stands at 3 exactly when the three header bytes are there (R138). -/
theorem headerCursor_eq_three {m : Memory} {c : Nat} (h : headerCursor m = some c) : c = 3 ↔ HeaderGood m := by
  simp only [headerCursor] at h
  split at h
  · cases h
  · next c1 h1 =>
    split at h
    · cases h
    · next c2 h2 =>
      rcases headerTest_cases h1 with ⟨e1, r1⟩ | ⟨e1, r1⟩ <;> subst e1 <;>
        rcases headerTest_cases h2 with ⟨e2, r2⟩ | ⟨e2, r2⟩ <;> subst e2 <;>
        rcases headerTest_cases h with ⟨e3, r3⟩ | ⟨e3, r3⟩ <;> subst e3 <;>
        simp_all [HeaderGood]

theorem headerCursor_some {m : Memory} {n : Nat} (h : Written m .pkt 0 n)
    (hn : 3 ≤ n) : ∃ c, headerCursor m = some c := by
  have step : ∀ (b : Byte) (cur : Nat), cur < 3 → ∃ c, headerTest m b cur = some c ∧ c ≤ cur + 1 := by
    intro b cur hc
    obtain ⟨v, hv⟩ := h.elem (j := cur) (by omega)
    refine ⟨if v = b then cur + 1 else cur, by simp [headerTest, hv], ?_⟩
    split <;> omega
  obtain ⟨c1, h1, l1⟩ := step Config.header0 0 (by omega)
  obtain ⟨c2, h2, l2⟩ := step Config.header1 c1 (by omega)
  obtain ⟨c3, h3, -⟩ := step Config.header2 c2 (by omega)
  exact ⟨c3, by simp [headerCursor, h1, h2, h3]⟩

/-- A write to `RXD` below `PKT` leaves `PKT` readable as before. -/
theorem readElem_pkt_writeElem_rxd (m : Memory) {k j : Nat} (v : Byte) (h : k < 0x2000) :
    readElem (writeElem m .rxd k v) .pkt j = readElem m .pkt j :=
  readElem_writeElem_other _ _ (by simp only [bufferBase]; omega)

theorem readElems_pkt_writeElem_rxd (m : Memory) {k i n : Nat} (v : Byte) (h : k < 0x2000) :
    readElems (writeElem m .rxd k v) .pkt i n = readElems m .pkt i n :=
  readElems_congr fun _ _ => readElem_pkt_writeElem_rxd m v h

theorem readElem_pkt_writeElems_rxd (m : Memory) {k j : Nat} (vs : List Byte) (h : k + vs.length ≤ 0x2000) :
    readElem (writeElems m .rxd k vs) .pkt j = readElem m .pkt j := by
  rw [readElem_writeElems, if_neg (by simp only [bufferBase]; omega)]

/-- All that the pair scan can do when it has a result (R139, R140): it accepts the whole of a list of pairs, or stops
at a wrong pair with the bytes before it emitted. -/
theorem unpackPairs_cases {cap n cur k : Nat} {sum : Byte} {m m' : Memory} {c : Code} {j : Nat} {s : Byte}
    (h : unpackPairs cap n cur k sum m = some (m', c, j, s)) (hb : k + n ≤ cap) (hcap : cap ≤ 0x2000) :
    (c = .ok ∧ j = k + n ∧ ∃ ds, ds.length = n ∧ readElems m .pkt cur (2 * n) = some (pairs ds) ∧
      m' = writeElems m .rxd k ds ∧ s = ds.foldl (· + ·) sum) ∨
    (c = .notAPacket ∧ j = 0 ∧ ∃ ds, ds.length < n ∧ m' = writeElems m .rxd k ds ∧
      ∃ d e, readElem m .pkt (cur + 2 * ds.length) = some d ∧ readElem m .pkt (cur + 2 * ds.length + 1) = some e ∧
        e ≠ complement d) := by
  induction n generalizing cur k sum m with
  | zero =>
    cases h
    exact .inl ⟨rfl, by omega, [], rfl, rfl, rfl, rfl⟩
  | succ n ih =>
    simp only [unpackPairs] at h
    split at h
    · next e d he hd =>
      split at h
      · next hne =>
        cases h
        exact .inr ⟨rfl, rfl, [], by simp, rfl, d, e, by simpa using hd, by simpa using he, hne⟩
      · next hne =>
        rw [if_neg (by omega)] at h
        rw [ne_eq, not_not] at hne
        rcases ih h (by omega) with ⟨hc, hj, ds, hl, hr, hm, hs⟩ | ⟨hc, hj, ds, hl, hm, d', e', hd', he', hne'⟩
        · refine .inl ⟨hc, by omega, d :: ds, by simp [hl], ?_, by rw [hm]; rfl, by rw [hs]; rfl⟩
          rw [readElems_pkt_writeElem_rxd _ _ (by omega)] at hr
          have h2 : readElems m .pkt cur 2 = some [d, e] := by simp [readElems, hd, he]
          have := readElems_join h2 hr
          rw [show 2 + 2 * n = 2 * (n + 1) by omega] at this
          rw [this, pairs, hne]
          rfl
        · refine .inr ⟨hc, hj, d :: ds, by simp [hl], by rw [hm]; rfl, d', e', ?_, ?_, hne'⟩
          · rw [readElem_pkt_writeElem_rxd _ _ (by omega)] at hd'
            rw [← hd', List.length_cons]
            congr 1
            omega
          · rw [readElem_pkt_writeElem_rxd _ _ (by omega)] at he'
            rw [← he', List.length_cons]
            congr 1
            omega
    · cases h

/-- The pair scan has a result when the pairs have values. -/
theorem unpackPairs_some {cap n cur k : Nat} {sum : Byte} {m : Memory} (h : Written m .pkt cur (2 * n))
    (hb : k + n ≤ cap) (hcap : cap ≤ 0x2000) : ∃ r, unpackPairs cap n cur k sum m = some r := by
  induction n generalizing cur k sum m with
  | zero => exact ⟨_, rfl⟩
  | succ n ih =>
    obtain ⟨vs, hvs⟩ := h
    obtain ⟨hl, hk⟩ := (readElems_eq_some_iff ..).1 hvs
    obtain ⟨d, e, vs, rfl⟩ : ∃ d e ws, vs = d :: e :: ws := by
      match vs, hl with
      | d :: e :: ws, _ => exact ⟨d, e, ws, rfl⟩
      | [_], hl => simp at hl; omega
      | [], hl => simp at hl
    have hd := hk 0 (by omega)
    have he := hk 1 (by omega)
    simp only [Nat.add_zero, List.getElem?_cons_zero, List.getElem?_cons_succ] at hd he
    simp only [unpackPairs, hd, he]
    split
    · exact ⟨_, rfl⟩
    · rw [if_neg (by omega)]
      apply ih _ (by omega)
      refine ⟨vs, ?_⟩
      rw [readElems_pkt_writeElem_rxd _ _ (by omega)]
      have h2 : 2 * (n + 1) = 2 * n + 1 + 1 := by omega
      rw [h2] at hvs
      exact (readElems_cons (readElems_cons hvs).2).2

/-- `checksumCode` answers `Ok` exactly when both bytes are right (R141), and `NotAPacket` otherwise. -/
theorem checksumCode_cases {m : Memory} {len : Nat} {sum : Byte} {c : Code} (h : checksumCode m len sum = some c) :
    (c = .ok ∧ readElem m .pkt (len - 2) = some sum ∧ readElem m .pkt (len - 1) = some (complement sum)) ∨
    (c = .notAPacket ∧ ¬ (readElem m .pkt (len - 2) = some sum ∧ readElem m .pkt (len - 1) = some
        (complement sum))) := by
  simp only [checksumCode] at h
  split at h
  · cases h
  · next b hb =>
    split at h
    · next hne =>
      cases h
      refine .inr ⟨rfl, fun hh => hne ?_⟩
      rw [hb] at hh
      simpa using hh.1
    · next he =>
      rw [ne_eq, not_not] at he
      split at h
      · cases h
      · next e' he' =>
        cases h
        by_cases hq : e' = complement sum
        · exact .inl ⟨by simp [hq], by rw [hb, he], by rw [he', hq]⟩
        · refine .inr ⟨by simp [hq], fun hh => hq ?_⟩
          rw [he'] at hh
          simpa using hh.2

theorem checksumCode_some {m : Memory} {len : Nat} (sum : Byte) (h : Written m .pkt 0 len) (hl : 2 ≤ len) :
    ∃ c, checksumCode m len sum = some c := by
  obtain ⟨b, hb⟩ := h.elem (j := len - 2) (by omega)
  obtain ⟨e, he⟩ := h.elem (j := len - 1) (by omega)
  simp only [checksumCode, hb, he]
  split <;> exact ⟨_, rfl⟩

/-- All that `unpack` can do when it has a result (R136): the length tests, a wrong header,
    a wrong pair or checksum with
some bytes already in `RXD`, or the acceptance of a packet. -/
theorem unpack_cases {len cap : Nat} {m m' : Memory} {c : Code} {k : Nat} (h : unpack len cap m = some (m', c, k))
    (hcap : cap ≤ 0x2000) :
    (c = .bufferTooSmall ∧ k = 0 ∧ m' = m ∧ 5 ≤ len ∧ cap < (len - 5) / 2) ∨
    (c = .notAPacket ∧ k = 0 ∧ ∃ ds, ds.length ≤ (len - 5) / 2 ∧ ds.length ≤ cap ∧ m' = writeElems m .rxd 0 ds) ∨
    (c = .ok ∧ len = 2 * k + 5 ∧ k ≤ cap ∧
      ∃ ds, ds.length = k ∧ readElems m .pkt 0 len = some (packetOf ds) ∧ m' = writeElems m .rxd 0 ds) := by
  unfold unpack at h
  split at h
  · next ht => cases h; exact .inl ⟨rfl, rfl, rfl, ht.1, ht.2⟩
  · next ht =>
    split at h
    · cases h; exact .inr (.inl ⟨rfl, rfl, [], by simp, by simp, rfl⟩)
    · next hs =>
      split at h
      · cases h
      · next cur hcur =>
        split at h
        · cases h; exact .inr (.inl ⟨rfl, rfl, [], by simp, by simp, rfl⟩)
        · next h3 =>
          rw [ne_eq, not_not] at h3
          obtain ⟨g0, g1, g2⟩ := (headerCursor_eq_three hcur).1 h3
          split at h
          · cases h
          · next m1 k1 sum1 hu =>
            rcases unpackPairs_cases hu (by omega) hcap with ⟨-, hk, ds, hl, hr, hm, hsum⟩ | ⟨hc, -⟩
            · subst hm
              have rd : ∀ j, readElem (writeElems m .rxd 0 ds) .pkt j = readElem m .pkt j :=
                fun j => readElem_pkt_writeElems_rxd _ _ (by omega)
              split at h
              · cases h
              · next hck =>
                cases h
                refine .inr (.inr ⟨rfl, by omega, by omega, ds, by omega, ?_, rfl⟩)
                rcases checksumCode_cases hck with ⟨-, c1, c2⟩ | ⟨hbad, -⟩
                · rw [rd] at c1 c2
                  have hh : readElems m .pkt 0 3 = some [Config.header0, Config.header1, Config.header2] := by
                    simp [readElems, g0, g1, g2]
                  have hp := readElems_join hh hr
                  have hc2 : readElems m .pkt (0 + (3 + 2 * ((len - 5) / 2))) 2 =
                      some [checksum ds, complement (checksum ds)] := by
                    have e1 : len - 2 = 0 + (3 + 2 * ((len - 5) / 2)) := by omega
                    have e2 : len - 1 = 0 + (3 + 2 * ((len - 5) / 2)) + 1 := by omega
                    rw [hsum, e1] at c1
                    rw [hsum, e2] at c2
                    simp only [readElems, c1, c2, checksum]
                  have := readElems_join hp hc2
                  rw [show 3 + 2 * ((len - 5) / 2) + 2 = len by omega] at this
                  exact this
                · cases hbad
              · next c' _ hck =>
                cases h
                rcases checksumCode_cases hck with ⟨hbad, -⟩ | ⟨hc, -⟩
                · exact absurd hbad (by assumption)
                · exact .inr (.inl ⟨hc, rfl, ds, by omega, by omega, rfl⟩)
            · cases hc
          · next m1 c1 k1 s1 hne hu =>
            cases h
            rcases unpackPairs_cases hu (by omega) hcap with ⟨hc, -⟩ | ⟨hc, -, ds, hl, hm, -⟩
            · exact absurd hc (by simpa using hne)
            · exact .inr (.inl ⟨hc, rfl, ds, by omega, by omega, hm⟩)

/-- `unpack` has a result when the packet's elements have values. -/
theorem unpack_some {len cap : Nat} {m : Memory} (h : Written m .pkt 0 len) (hcap : cap ≤ 0x2000) :
    ∃ r, unpack len cap m = some r := by
  unfold unpack
  split
  · exact ⟨_, rfl⟩
  · split
    · exact ⟨_, rfl⟩
    · obtain ⟨c, hc⟩ := headerCursor_some h (by omega)
      rw [hc]
      simp only
      split
      · exact ⟨_, rfl⟩
      · have hw : Written m .pkt 3 (2 * ((len - 5) / 2)) := by
          obtain ⟨vs, hvs⟩ := h
          obtain ⟨hl, hk⟩ := (readElems_eq_some_iff ..).1 hvs
          refine ⟨(vs.drop 3).take (2 * ((len - 5) / 2)), (readElems_eq_some_iff ..).2 ⟨by simp; omega, fun j hj => ?_⟩⟩
          have := hk (3 + j) (by omega)
          rw [Nat.zero_add] at this
          rw [this, List.getElem?_take_of_lt hj, List.getElem?_drop]
        obtain ⟨⟨m1, c1, k1, s1⟩, hr⟩ := unpackPairs_some (cap := cap) (k := 0) (sum := 0) hw (by omega) hcap
        rw [hr]
        rcases unpackPairs_cases hr (by omega) hcap with ⟨rfl, -, ds, hl, -, hm, -⟩ | ⟨rfl, -⟩
        · have hw' : Written m1 .pkt 0 len := by
            obtain ⟨vs, hvs⟩ := h
            refine ⟨vs, ?_⟩
            rw [← hvs]
            apply readElems_congr
            intro j _
            rw [hm, readElem_pkt_writeElems_rxd _ _ (by omega)]
          obtain ⟨c2, hc2⟩ := checksumCode_some s1 hw' (by omega)
          simp only [hc2]
          cases c2 <;> exact ⟨_, rfl⟩
        · exact ⟨_, rfl⟩

theorem unpackPairs_pairs {cap cur k : Nat} {sum : Byte} {m : Memory} {ds : List Byte}
    (h : readElems m .pkt cur (2 * ds.length) = some (pairs ds)) (hb : k + ds.length ≤ cap) (hcap : cap ≤ 0x2000) :
    unpackPairs cap ds.length cur k sum m =
      some (writeElems m .rxd k ds, .ok, k + ds.length, ds.foldl (· + ·) sum) := by
  induction ds generalizing cur k sum m with
  | nil => rfl
  | cons d ds ih =>
    simp only [List.length_cons] at hb h ⊢
    rw [show 2 * (ds.length + 1) = 2 * ds.length + 1 + 1 by omega, pairs] at h
    obtain ⟨h0, h⟩ := readElems_cons h
    obtain ⟨h1, h⟩ := readElems_cons h
    simp only [unpackPairs, h0, h1, ne_eq, not_true_eq_false, if_false]
    rw [if_neg (by omega), ih _ (by omega)]
    · simp [writeElems, Nat.add_assoc, Nat.add_comm 1]
    · rw [readElems_pkt_writeElem_rxd _ _ (by omega)]; exact h

/-- `unpack` accepts a packet that fits and delivers its payload (R136). -/
theorem unpack_packetOf {cap : Nat} {m : Memory} {ds : List Byte}
    (h : readElems m .pkt 0 (2 * ds.length + 5) = some (packetOf ds)) (hcap : ds.length ≤ cap) (hb : cap ≤ 0x2000) :
    unpack (2 * ds.length + 5) cap m = some (writeElems m .rxd 0 ds, .ok, ds.length) := by
  obtain ⟨h1, h2⟩ := readElems_append (us := [Config.header0, Config.header1, Config.header2] ++ pairs ds) h
  obtain ⟨h0, h1⟩ := readElems_append h1
  simp only [List.length_append, pairs_length, List.length_cons, List.length_nil] at h0 h1 h2
  have hg : headerCursor m = some 3 := by
    obtain ⟨a0, h0⟩ := readElems_cons h0
    obtain ⟨a1, h0⟩ := readElems_cons h0
    obtain ⟨a2, -⟩ := readElems_cons h0
    simp only [Nat.zero_add, Nat.reduceAdd] at a1 a2
    simp [headerCursor, headerTest, a0, a1, a2]
  have hd : (2 * ds.length + 5 - 5) / 2 = ds.length := by omega
  have hu := unpackPairs_pairs (k := 0) (sum := 0) h1 (by omega) hb
  obtain ⟨c0, h2⟩ := readElems_cons h2
  obtain ⟨c1, -⟩ := readElems_cons h2
  have hck : checksumCode (writeElems m .rxd 0 ds) (2 * ds.length + 5) (ds.foldl (· + ·) 0) = some .ok := by
    have e1 : 2 * ds.length + 5 - 2 = 0 + (0 + 1 + 1 + 1 + 2 * ds.length) := by omega
    have e2 : 2 * ds.length + 5 - 1 = 0 + (0 + 1 + 1 + 1 + 2 * ds.length) + 1 := by omega
    simp only [checksumCode]
    rw [readElem_pkt_writeElems_rxd _ _ (by omega), readElem_pkt_writeElems_rxd _ _ (by omega), e1, e2, c0, c1]
    simp [checksum]
  unfold unpack
  rw [if_neg (by omega), if_neg (by omega), hg]
  simp only [hd, ne_eq, not_true_eq_false, if_false]
  rw [show (3 : Nat) = 0 + (0 + 1 + 1 + 1) by omega, hu]
  simp only [hck, Nat.zero_add]

/-! ## The packet as a list -/

theorem pktCap_le {P : Params} (hP : P.Legal) : P.pktCap ≤ 2053 := by
  have := hP.maxPayload_le; simp only [Params.pktCap]; omega

theorem complement_eq_not (x : Byte) : complement x = ~~~x := by revert x; decide +kernel

/-- The checksum is the sum of the bytes modulo 256 (R76). -/
theorem checksum_eq (ds : List Byte) : checksum ds = BitVec.ofNat 8 (ds.map (·.toNat)).sum := by
  have : ∀ (ds : List Byte) (a : Byte), ds.foldl (· + ·) a = a + BitVec.ofNat 8 (ds.map (·.toNat)).sum := by
    intro ds
    induction ds with
    | nil => intro a; simp
    | cons d ds ih =>
      intro a
      simp only [List.foldl_cons, ih, List.map_cons, List.sum_cons]
      apply BitVec.eq_of_toNat_eq
      simp [BitVec.toNat_add]
      omega
  rw [checksum, this]; simp

theorem pairs_get (ds : List Byte) (i : Nat) (d : Byte) (h : ds[i]? = some d) : (pairs ds)[2*i]? = some d ∧
    (pairs ds)[2*i+1]? = some (complement d) := by
  induction ds generalizing i with
  | nil => simp at h
  | cons e ds ih =>
    cases i with
    | zero => simp at h; subst h; simp [pairs]
    | succ i =>
      simp at h
      have := ih i h
      simpa [pairs, Nat.mul_add] using this

theorem packet_get (m : Memory) (ds : List Byte) (j : Nat) (v : Byte) (h : (packetOf ds)[j]? = some v) : readElem
    (writeElems m .pkt 0 (packetOf ds)) .pkt j = some v := by
  have hj := (List.getElem?_eq_some_iff.1 h).1
  rw [readElem_writeElems, if_pos (by omega)]
  simpa using h

/-- A packet determines its payload. -/
theorem packetOf_inj {ds es : List Byte} (h : packetOf ds = packetOf es) : ds = es := by
  have hl : ds.length = es.length := by
    have := congrArg List.length h; simp at this; exact this
  apply List.ext_getElem?
  intro i
  by_cases hi : i < ds.length
  · have e1 : ds[i]? = some ds[i] := by simp [hi]
    have e2 : es[i]? = some (es[i]'(by omega)) := by simp [hl ▸ hi]
    obtain ⟨a, -⟩ := pairs_get ds i _ e1
    obtain ⟨b, -⟩ := pairs_get es i _ e2
    have hp : pairs ds = pairs es := by
      simp only [packetOf] at h
      have := List.append_inj_left h (by simp [hl])
      exact List.append_cancel_left this
    rw [hp, b] at a
    rw [e1, e2]; exact a.symm
  · simp [hi, hl ▸ hi]

/-! ## A wrong pair, and the bytes of `TXD` -/

/-- The pair scan stops at the first wrong pair, the bytes before it emitted (R139). -/
theorem unpackPairs_bad {cap n cur k : Nat} {sum : Byte} {m : Memory} {ds : List Byte} {d e : Byte}
    (h : readElems m .pkt cur (2 * ds.length) = some (pairs ds)) (hn : ds.length < n) (hb : k + n ≤ cap)
        (hcap : cap ≤ 0x2000)
    (hd : readElem m .pkt (cur + 2 * ds.length) = some d) (he : readElem m .pkt (cur + 2 * ds.length + 1) = some e)
        (hne : e ≠ complement d) :
    ∃ s', unpackPairs cap n cur k sum m = some (writeElems m .rxd k ds, .notAPacket, 0, s') := by
  induction ds generalizing n cur k sum m with
  | nil =>
    obtain ⟨n, rfl⟩ : ∃ n', n = n' + 1 := ⟨n - 1, by simp at hn; omega⟩
    simp at hd he
    exact ⟨sum, by simp [unpackPairs, hd, he, hne, writeElems]⟩
  | cons x ds ih =>
    obtain ⟨n, rfl⟩ : ∃ n', n = n' + 1 := ⟨n - 1, by simp at hn; omega⟩
    have h' : readElems m .pkt cur ((2 * ds.length + 1) + 1) = some (x :: complement x :: pairs ds) := h
    obtain ⟨a, h'⟩ := readElems_cons h'
    obtain ⟨b, h'⟩ := readElems_cons h'
    simp only [List.length_cons] at hd he hn
    obtain ⟨s', hs'⟩ := ih (m := writeElem m .rxd k x) (n := n) (cur := cur + 2) (k := k + 1) (sum := sum + x)
      (by rw [readElems_pkt_writeElem_rxd _ _ (by omega)]; exact h') (by omega) (by omega)
      (by rw [readElem_pkt_writeElem_rxd _ _ (by omega), ← hd]; congr 1; omega)
      (by rw [readElem_pkt_writeElem_rxd _ _ (by omega), ← he]; congr 1; omega)
    refine ⟨s', ?_⟩
    simp only [unpackPairs, b, a]
    rw [if_neg (by simp), if_neg (by omega), hs']; rfl

theorem packPairs_txd {n i j : Nat} {sum : Byte} {m : Memory} {r : Memory × Byte}
    (h : packPairs n i sum m = some r) (hj : j < 0x1000) : readElem r.1 .txd j = readElem m .txd j := by
  induction n generalizing i sum m with
  | zero => cases h; rfl
  | succ n ih =>
    simp only [packPairs] at h
    split at h
    · cases h
    · rw [ih h, readElem_writeElem_other _ _ (by simp only [bufferBase]; omega), readElem_writeElem_other _ _
          (by simp only [bufferBase]; omega)]

theorem pack_txd {L cap j : Nat} {m m' : Memory} {c : Code} {n : Nat} (h : pack L cap m = some (m', c, n))
    (hj : j < 0x1000) : readElem m' .txd j = readElem m .txd j := by
  unfold pack at h
  split at h
  · cases h; rfl
  · split at h
    · cases h
    · next hp =>
      cases h
      rw [readElem_writeElem_other _ _ (by simp only [bufferBase]; omega), readElem_writeElem_other _ _
          (by simp only [bufferBase]; omega)]
      rw [packPairs_txd hp hj, writeHeader_eq, readElem_writeElems, if_neg (by simp only [bufferBase]; omega)]

theorem unpackPairs_txd {cap n cur k j : Nat} {sum : Byte} {m : Memory} {r : Memory × Code × Nat × Byte}
    (h : unpackPairs cap n cur k sum m = some r) (hj : j < 0x1000) : readElem r.1 .txd j = readElem m .txd j := by
  induction n generalizing cur k sum m with
  | zero => cases h; rfl
  | succ n ih =>
    simp only [unpackPairs] at h
    split at h
    · split at h
      · cases h; rfl
      · split at h
        · cases h; rfl
        · rw [ih h, readElem_writeElem_other _ _ (by simp only [bufferBase]; omega)]
    · cases h

theorem unpack_txd {len cap j : Nat} {m m' : Memory} {c : Code} {k : Nat} (h : unpack len cap m = some (m', c, k))
    (hj : j < 0x1000) : readElem m' .txd j = readElem m .txd j := by
  unfold unpack at h
  split at h
  · cases h; rfl
  · split at h
    · cases h; rfl
    · split at h
      · cases h
      · split at h
        · cases h; rfl
        · split at h
          · cases h
          · next hu =>
            split at h
            · cases h
            · cases h; exact unpackPairs_txd hu hj
            · cases h; exact unpackPairs_txd hu hj
          · next hu => cases h; exact unpackPairs_txd hu hj

/-! ## What `unpack` writes, however it ends -/

/-- The complement of a byte, as a number (R76). -/
theorem eq_complement_iff (d e : Byte) : e = complement d ↔ e.toNat = 255 - d.toNat := by
  have h := d.isLt
  constructor
  · rintro rfl; simp only [complement, BitVec.toNat_ofNat]; omega
  · intro h; apply BitVec.eq_of_toNat_eq; simp only [complement, BitVec.toNat_ofNat]; omega

/-- Each good pair takes two bytes. -/
theorem goodPairs_length_le : (ps : List Byte) → 2 * (goodPairs ps).length ≤ ps.length
  | [] => by simp [goodPairs]
  | [_] => by simp [goodPairs]
  | d :: e :: rest => by
    have := goodPairs_length_le rest
    simp only [goodPairs]
    split
    · simp only [List.length_cons]; omega
    · simp

/-- All pairs of an encoded payload are good. -/
theorem goodPairs_pairs (ds : List Byte) : goodPairs (pairs ds) = ds := by
  induction ds with
  | nil => rfl
  | cons d ds ih => rw [pairs, goodPairs, if_pos ((eq_complement_iff _ _).1 rfl), ih]

/-- The pair scan writes the first bytes of the good pairs, however it ends (R139). -/
theorem unpackPairs_delivered {cap n cur k : Nat} {sum : Byte} {m : Memory} {ps : List Byte}
    (h : readElems m .pkt cur (2 * n) = some ps) (hb : k + n ≤ cap) (hcap : cap ≤ 0x2000) :
    ∃ c j s, unpackPairs cap n cur k sum m = some (writeElems m .rxd k (goodPairs ps), c, j, s) := by
  induction n generalizing cur k sum m ps with
  | zero => cases h; exact ⟨_, _, _, rfl⟩
  | succ n ih =>
    obtain ⟨d, e, rest, rfl⟩ : ∃ d e rest, ps = d :: e :: rest := by
      have hl := readElems_length h
      match ps, hl with
      | d :: e :: ws, _ => exact ⟨d, e, ws, rfl⟩
      | [_], hl => simp at hl; omega
      | [], hl => simp at hl
    rw [show 2 * (n + 1) = 2 * n + 1 + 1 by omega] at h
    obtain ⟨hd, h⟩ := readElems_cons h
    obtain ⟨he, h⟩ := readElems_cons h
    simp only [unpackPairs, hd, he, goodPairs, ne_eq, eq_complement_iff]
    by_cases hg : e.toNat = 255 - d.toNat
    · rw [if_neg (not_not.2 hg), if_neg (by omega), if_pos hg]
      exact ih (by rw [readElems_pkt_writeElem_rxd _ _ (by omega)]; exact h) (by omega)
    · rw [if_pos hg, if_neg hg]
      exact ⟨_, _, _, rfl⟩

/-- What `unpack` writes to `RXD`, however it ends (R137 to R142). -/
theorem unpack_delivered {len cap : Nat} {m : Memory} {ps : List Byte} (h : readElems m .pkt 0 len = some ps)
    (hcap : cap ≤ 0x2000) : ∃ c k, unpack len cap m = some (writeElems m .rxd 0 (delivered cap ps), c, k) := by
  have hl := readElems_length h
  obtain ⟨-, hk⟩ := (readElems_eq_some_iff ..).1 h
  unfold unpack
  split
  · exact ⟨_, _, by rw [delivered, if_neg (by omega)]; rfl⟩
  · split
    · exact ⟨_, _, by rw [delivered, if_neg (by omega)]; rfl⟩
    · next h1 h2 =>
      obtain ⟨cur, hcur⟩ := headerCursor_some ⟨ps, h⟩ (by omega)
      have htake : ps.take 3 = [0x55, 0xFF, 0x00] ↔ HeaderGood m := by
        have e0 := hk 0 (by omega)
        have e1 := hk 1 (by omega)
        have e2 := hk 2 (by omega)
        match ps, hl with
        | a :: b :: c :: rest, _ =>
          simp at e0 e1 e2
          simp [HeaderGood, e0, e1, e2, Config.header0, Config.header1, Config.header2]
        | [_, _], hl => simp at hl; omega
        | [_], hl => simp at hl; omega
        | [], hl => simp at hl; omega
      simp only [hcur]
      split
      · next h3 =>
        have hne : delivered cap ps = [] := by
          rw [delivered, if_neg]
          rintro ⟨-, -, -, hh⟩
          exact h3 ((headerCursor_eq_three hcur).2 (htake.1 hh))
        exact ⟨_, _, by rw [hne]; rfl⟩
      · next h3 =>
        rw [ne_eq, not_not] at h3
        have hg := htake.2 ((headerCursor_eq_three hcur).1 h3)
        have hr : readElems m .pkt 3 (2 * ((len - 5) / 2)) = some ((ps.drop 3).take (ps.length - 5)) := by
          refine (readElems_eq_some_iff ..).2 ⟨by simp; omega, fun j hj => ?_⟩
          have := hk (3 + j) (by omega)
          rw [Nat.zero_add] at this
          rw [this, List.getElem?_take_of_lt (by omega), List.getElem?_drop]
        have hd : delivered cap ps = goodPairs ((ps.drop 3).take (ps.length - 5)) := by
          rw [delivered, if_pos ⟨by omega, by omega, by omega, hg⟩]
        obtain ⟨c, j, s, hu⟩ := unpackPairs_delivered (sum := 0) hr (by omega : 0 + _ ≤ cap) hcap
        rw [← hd] at hu
        have hdl : (delivered cap ps).length ≤ 0x2000 := by
          have := goodPairs_length_le ((ps.drop 3).take (ps.length - 5))
          rw [← hd] at this
          simp only [List.length_take, List.length_drop] at this
          omega
        rw [hu]
        cases c with
        | ok =>
          have hw : Written (writeElems m .rxd 0 (delivered cap ps)) .pkt 0 len := by
            refine ⟨ps, ?_⟩
            rw [← h]
            apply readElems_congr
            intro i _
            exact readElem_pkt_writeElems_rxd _ _ (by omega)
          obtain ⟨q, hq⟩ := checksumCode_some s hw (by omega)
          simp only [hq]
          cases q <;> exact ⟨_, _, rfl⟩
        | _ => exact ⟨_, _, rfl⟩

/-- Of a packet of R74 that fits, the whole payload is delivered (R142). -/
theorem delivered_packetOf {cap : Nat} {ds : List Byte} (h : ds.length ≤ cap) : delivered cap (packetOf ds) = ds := by
  have hl : (packetOf ds).length = 2 * ds.length + 5 := packetOf_length ds
  have hp : (pairs ds).length = 2 * ds.length := pairs_length ds
  rw [delivered, if_pos ⟨by omega, by omega, by omega, rfl⟩, hl]
  have : ((packetOf ds).drop 3).take (2 * ds.length + 5 - 5) = pairs ds := by
    rw [packetOf, List.append_assoc, Nat.add_sub_cancel]
    exact List.take_left' hp
  rw [this, goodPairs_pairs]

end Sys2Proof.Machine
end

