-- ==== Sys2Proof/Laws/Pulse.lean ====
section
/-! SUPPORT. The laws of the pulse codec: the fields of a pulse word, the bit count of an encoded segment,
    the shape of a
byte's runs, what one pulse can do to the decoder, and the round trip of one byte. -/

namespace Sys2Proof.Machine

/-! ## The pulse word -/

@[simp] theorem dur_pulse {p : Polarity} {d : Nat} (h : d < 2 ^ 31) : dur (pulse p d) = d := by
  cases p <;> simp only [dur, pulse, Polarity.toNat, BitVec.toNat_ofNat] <;> omega

@[simp] theorem pol_pulse (p : Polarity) (d : Nat) : pol (pulse p d) = p := by
  cases p
  · simp only [pol, pulse, Polarity.toNat, BitVec.toNat_ofNat]
    rw [if_pos (by omega)]
  · simp only [pol, pulse, Polarity.toNat, BitVec.toNat_ofNat]
    rw [if_neg (by omega)]

theorem adj_small {P : Params} (hP : P.Legal) (p : Polarity) : 2 * (adj P p).natAbs < P.bitPeriod := by
  cases p
  · exact hP.spaceAdj_small
  · exact hP.markAdj_small

/-- A run of 1 to 10 bits, its duration as an integer: positive and below 2^31 (R70, R78). -/
theorem runDuration_bounds {P : Params} (hP : P.Legal) (p : Polarity) {k : Nat} (hk : 1 ≤ k) (hk' : k ≤ 10) :
    ((runDuration P p k : Nat) : Int) = (k : Int) * (P.bitPeriod : Int) + adj P p ∧ 0 < runDuration P p k ∧
      runDuration P p k < 2 ^ 31 := by
  have ha := adj_small hP p
  have hb := hP.bitPeriod_le
  have hmul : P.bitPeriod ≤ k * P.bitPeriod := Nat.le_mul_of_pos_left _ hk
  have hmul' : k * P.bitPeriod ≤ 10 * P.bitPeriod := Nat.mul_le_mul_right _ hk'
  have hcast : ((k * P.bitPeriod : Nat) : Int) = (k : Int) * (P.bitPeriod : Int) := by push_cast; ring
  unfold runDuration
  rw [← hcast]
  omega

/-- The decoder counts back exactly the bits of an encoded segment (R77, R78). -/
theorem bitCount_runSegment {P : Params} (hP : P.Legal) (p : Polarity) {k : Nat} (hk : 1 ≤ k) (hk' : k ≤ 10) :
    bitCount P (runSegment P (p, k)) = k := by
  obtain ⟨he, -, hlt⟩ := runDuration_bounds hP p hk hk'
  have ha := adj_small hP p
  have hcast : ((k * P.bitPeriod : Nat) : Int) = (k : Int) * (P.bitPeriod : Int) := by push_cast; ring
  simp only [bitCount, runSegment, dur_pulse hlt]
  rw [← hcast] at he
  rw [Nat.div_eq_of_lt_le]
  · rw [show k * (2 * P.bitPeriod) = 2 * (k * P.bitPeriod) by ring]
    omega
  · rw [show (k + 1) * (2 * P.bitPeriod) = 2 * (k * P.bitPeriod) + 2 * P.bitPeriod by ring]
    omega

@[simp] theorem pol_runSegment (P : Params) (r : Polarity × Nat) : pol (runSegment P r) = r.1 := pol_pulse ..

/-- The synthetic tail is a mark of exactly 10 bits for every bit period (R165). -/
theorem bitCount_tailPulse {P : Params} (hP : P.Legal) : bitCount P (tailPulse P) = 10 := by
  have hb := hP.bitPeriod_le
  have hb' := hP.bitPeriod_pos
  simp only [bitCount, tailPulse, Config.tailBits]
  rw [dur_pulse (by omega), Nat.div_eq_of_lt_le] <;> omega

@[simp] theorem pol_tailPulse (P : Params) : pol (tailPulse P) = .mark := pol_pulse ..

/-! ## The runs of a byte -/

/-- Every run of a byte's frame has 1 to 10 bits (R106). -/
theorem run_bounds : ∀ b : Byte, ∀ r ∈ runs (frame b), 1 ≤ r.2 ∧ r.2 ≤ 10 := by decide +kernel

/-- A byte has 2 to 10 runs (R106). -/
theorem runs_length : ∀ b : Byte, 2 ≤ (runs (frame b)).length ∧ (runs (frame b)).length ≤ 10 := by decide +kernel

theorem segments_length (P : Params) (b : Byte) : (segments P b).length = (runs (frame b)).length := by
  simp [segments]

theorem segments_length_le (P : Params) (b : Byte) : (segments P b).length ≤ 10 := by
  rw [segments_length]; exact (runs_length b).2

theorem two_le_segments_length (P : Params) (b : Byte) : 2 ≤ (segments P b).length := by
  rw [segments_length]; exact (runs_length b).1

/-- The first run of a byte's frame is a space: the start bit (R103). -/
theorem runs_head : ∀ b : Byte, ∃ k rest, runs (frame b) = (.space, k + 1) :: rest := by
  have h : ∀ b : Byte, (match runs (frame b) with | (.space, k + 1) :: _ => true | _ => false) = true :=
      by decide +kernel
  intro b
  have hb := h b
  match hr : runs (frame b), hb with
  | (.space, k + 1) :: rest, _ => exact ⟨k, rest, rfl⟩

/-! ## One pulse through the decoder -/

theorem stepBits_add (p : Polarity) (a b : Nat) (x : Decoder × DecOut) :
    stepBits p (a + b) x = stepBits p b (stepBits p a x) := by
  induction a generalizing x with
  | zero => simp [stepBits]
  | succ a ih => rw [Nat.succ_add]; exact ih _

/-- A pulse of at most 10 bits goes through the frame machine bit by bit (R110). -/
theorem decode1_of_le {P : Params} {w : Word} (h : bitCount P w ≤ 10) (d : Decoder) :
    decode1 P d w =
      ((stepBits (pol w) (bitCount P w) (d, DecOut.none)).1, summarise (stepBits (pol w) (bitCount P w)
          (d, DecOut.none)).2) := by
  simp [decode1, startPulse, Config.maxRun, h]

/-- An encoded segment goes through the frame machine bit by bit, whatever the parameters (R78, R110). -/
theorem decode1_runSegment {P : Params} (hP : P.Legal) (d : Decoder) (p : Polarity) {k : Nat} (hk : 1 ≤ k)
    (hk' : k ≤ 10) :
    decode1 P d (runSegment P (p, k)) =
      ((stepBits p k (d, DecOut.none)).1, summarise (stepBits p k (d, DecOut.none)).2) := by
  rw [decode1_of_le (by rw [bitCount_runSegment hP p hk hk']; exact hk'), bitCount_runSegment hP p hk hk',
      pol_runSegment]

/-- A break (R112): the state after it, and the outcome. -/
theorem decode1_break {P : Params} {w : Word} (hs : pol w = .space) (h : 10 < bitCount P w) (d : Decoder) :
    decode1 P d w = ({ pos := 1, par := 0, data := 0 }, { DecOut.none with bd := true, kind := .breakDetected }) := by
  simp [decode1, startPulse, Config.maxRun, Nat.not_le.2 h, hs, stepBits, stepBit, Decoder.initial, summarise, worst,
    DecOut.none]

/-- An over-long mark counts as 10 bits (R112). -/
theorem decode1_longMark {P : Params} {w : Word} (hm : pol w = .mark) (h : 10 < bitCount P w) (d : Decoder) :
    decode1 P d w = ((stepBits .mark 10 (d, DecOut.none)).1, summarise (stepBits .mark 10 (d, DecOut.none)).2) := by
  simp [decode1, startPulse, Config.maxRun, Nat.not_le.2 h, hm]

/-- `DEC_POS` moves on by one. -/
theorem toNat_succ4 (x : BitVec 4) (h : x.toNat < 15) : (x + 1).toNat = x.toNat + 1 := by
  rw [BitVec.toNat_add, show (1 : BitVec 4).toNat = 1 from rfl]
  omega

theorem stepBit_pos_le (p : Polarity) (x : Decoder × DecOut) (h : x.1.pos.toNat ≤ 10) :
    (stepBit p x).1.pos.toNat ≤ 10 := by
  unfold stepBit
  split
  · cases p
    · simp
    · exact h
  · split
    · next h8 => simp only [toNat_succ4 _ (show x.1.pos.toNat < 15 by omega)]; omega
    · split <;> simp

theorem stepBits_pos_le (p : Polarity) (n : Nat) (x : Decoder × DecOut) (h : x.1.pos.toNat ≤ 10) :
    (stepBits p n x).1.pos.toNat ≤ 10 := by
  induction n generalizing x with
  | zero => exact h
  | succ n ih => exact ih _ (stepBit_pos_le p x h)

/-- `DEC_POS` stays a legal position (R20, R28). -/
theorem decode1_pos_le (P : Params) (d : Decoder) (w : Word) (h : d.pos.toNat ≤ 10) :
    (decode1 P d w).1.pos.toNat ≤ 10 := by
  unfold decode1
  apply stepBits_pos_le
  unfold startPulse
  split
  · exact h
  · split
    · exact h
    · simp [Decoder.initial]

/-- A mark of m bits from a legal position: it moves on, and from the stop bit on nothing more happens
    (R114 to R117). -/
theorem stepBits_mark_pos (m : Nat) (x : Decoder × DecOut) (h : x.1.pos.toNat ≤ 10) :
    (stepBits .mark m x).1.pos.toNat =
      if x.1.pos.toNat = 0 then 0 else if x.1.pos.toNat + m ≤ 10 then x.1.pos.toNat + m else 0 := by
  induction m generalizing x with
  | zero => simp only [stepBits]; split <;> [assumption; (split <;> omega)]
  | succ m ih =>
    rw [stepBits, ih _ (stepBit_pos_le _ _ h)]
    have hp : (stepBit .mark x).1.pos.toNat = if x.1.pos.toNat = 0 then 0 else if x.1.pos.toNat =
        10 then 0 else x.1.pos.toNat + 1 := by
      unfold stepBit
      split
      · simp [*]
      · split
        · rw [if_neg (by omega)]; exact toNat_succ4 _ (by omega)
        · split
          · simp [*]
          · rw [if_pos (Nat.le_antisymm h (by omega))]; rfl
    rw [hp]
    split
    · simp
    · split
      · simp; omega
      · split
        · omega
        · split
          · rw [if_pos (by omega)]; omega
          · rw [if_neg (by omega)]

/-- A mark of 10 or more bits leaves `DEC_POS` = 0 from every legal position (R121). -/
theorem decode1_flush {P : Params} {w : Word} (hm : pol w = .mark) (h : 10 ≤ bitCount P w) (d : Decoder)
    (hd : d.pos.toNat ≤ 10) : (decode1 P d w).1.pos = 0 := by
  have key : (stepBits .mark 10 (d, DecOut.none)).1.pos = 0 := by
    apply BitVec.eq_of_toNat_eq
    rw [stepBits_mark_pos 10 _ hd]
    have : d.pos.toNat = 0 ∨ 0 < d.pos.toNat := by omega
    rcases this with h0 | h0
    · simp [h0]
    · rw [if_neg (by simpa using by omega), if_neg (by simpa using by omega)]; simp
  have he : decode1 P d w =
      ((stepBits .mark 10 (d, DecOut.none)).1, summarise (stepBits .mark 10 (d, DecOut.none)).2) := by
    rcases Nat.lt_or_ge 10 (bitCount P w) with h' | h'
    · exact decode1_longMark hm h' d
    · have he := decode1_of_le h' d
      rwa [hm, show bitCount P w = 10 by omega] at he
  rw [he]
  generalize stepBits .mark 10 (d, DecOut.none) = y at key ⊢
  exact key

/-- `KIND` is the most severe of the flags of every outcome (R24). -/
theorem decode1_kind (P : Params) (d : Decoder) (w : Word) :
    (decode1 P d w).2.kind = worst (decode1 P d w).2.pe (decode1 P d w).2.fe (decode1 P d w).2.bd := rfl

theorem stepBits_byte (p : Polarity) (n : Nat) (x : Decoder × DecOut) (h : x.2.bv = false → x.2.byte = 0) :
    (stepBits p n x).2.bv = false → (stepBits p n x).2.byte = 0 := by
  induction n generalizing x with
  | zero => exact h
  | succ n ih =>
    apply ih
    unfold stepBit
    split
    · cases p <;> exact h
    · split
      · exact h
      · split
        · simp
        · exact h

/-- `BYTE` is 0 when no byte was emitted (R24). -/
theorem decode1_byte (P : Params) (d : Decoder) (w : Word) (h : (decode1 P d w).2.bv = false) :
    (decode1 P d w).2.byte = 0 := by
  refine stepBits_byte _ _ _ ?_ h
  unfold startPulse
  split
  · intro _; rfl
  · split <;> (intro _; rfl)

/-! ## The round trip -/

theorem decodeAll_append (P : Params) (d : Decoder) (us vs : List Word) :
    decodeAll P d (us ++ vs) =
      ((decodeAll P (decodeAll P d us).1 vs).1, (decodeAll P d us).2 ++ (decodeAll P (decodeAll P d us).1 vs).2) := by
  induction us generalizing d with
  | nil => rfl
  | cons u us ih => simp [decodeAll, ih]

/-- The decoder fed the runs of a byte as bits. -/
def stepRuns (d : Decoder) : List (Polarity × Nat) → Decoder × List DecOut
  | [] => (d, [])
  | r :: rs =>
    ((stepRuns (stepBits r.1 r.2 (d, DecOut.none)).1 rs).1,
      summarise (stepBits r.1 r.2 (d, DecOut.none)).2 :: (stepRuns (stepBits r.1 r.2 (d, DecOut.none)).1 rs).2)

/-- Encoded segments decode as their bits, whatever the parameters. -/
theorem decodeAll_runSegment {P : Params} (hP : P.Legal) (d : Decoder) (rs : List (Polarity × Nat))
    (h : ∀ r ∈ rs, 1 ≤ r.2 ∧ r.2 ≤ 10) : decodeAll P d (rs.map (runSegment P)) = stepRuns d rs := by
  induction rs generalizing d with
  | nil => rfl
  | cons r rs ih =>
    obtain ⟨p, k⟩ := r
    obtain ⟨h1, h2⟩ := h _ (List.mem_cons_self ..)
    simp only [List.map_cons, decodeAll, stepRuns, decode1_runSegment hP d p h1 h2]
    rw [ih _ fun r hr => h r (List.mem_cons_of_mem _ hr)]

/-- At position 0 the parity count and the data byte do not matter: the start bit clears them (R114). -/
theorem stepRuns_start (d : Decoder) (hd : d.pos = 0) (b : Byte) :
    stepRuns d (runs (frame b)) = stepRuns Decoder.initial (runs (frame b)) := by
  obtain ⟨k, rest, hr⟩ := runs_head b
  have : ∀ k, stepBits .space (k + 1) (d, DecOut.none) = stepBits .space (k + 1) (Decoder.initial, DecOut.none) := by
    intro k
    simp [stepBits, stepBit, hd, Decoder.initial]
  simp [hr, stepRuns, this]

/-- The frame of a byte, decoded from the awaiting-start state: the byte and nothing else (R120). -/
theorem stepRuns_frame : ∀ b : Byte,
    (stepRuns Decoder.initial (runs (frame b))).1.pos = 0 ∧
    emitted (stepRuns Decoder.initial (runs (frame b))).2 = [b] ∧
    (stepRuns Decoder.initial (runs (frame b))).2.all (fun o => !o.pe && !o.fe && !o.bd) = true := by
  decide +kernel

/-- One byte, decoded from position 0: the decoder is back at position 0 and has emitted the byte without error. -/
theorem decodeAll_segments {P : Params} (hP : P.Legal) (d : Decoder) (hd : d.pos = 0) (b : Byte) :
    (decodeAll P d (segments P b)).1.pos = 0 ∧ emitted (decodeAll P d (segments P b)).2 = [b] ∧
      clean (decodeAll P d (segments P b)).2 := by
  rw [segments, decodeAll_runSegment hP d _ (run_bounds b), stepRuns_start d hd b]
  obtain ⟨h1, h2, h3⟩ := stepRuns_frame b
  refine ⟨h1, h2, fun o ho => ?_⟩
  have := List.all_eq_true.1 h3 o ho
  simp only [Bool.and_eq_true, Bool.not_eq_true'] at this
  exact ⟨this.1.1, this.1.2, this.2⟩

/-! ## The runs of a byte alternate (R106) -/

theorem chain_runs : ∀ b : Byte, ((runs (frame b)).map (·.1)).IsChain (· ≠ ·) := by decide +kernel

theorem last_runs : ∀ b : Byte, ((runs (frame b)).map (·.1)).getLast? = some .mark := by decide +kernel

/-! ## Counting marks, and the flags of one decode -/

theorem countMark_toNat (par : BitVec 4) (p : Polarity) : (countMark par p).toNat = (par.toNat + p.toNat) % 16 := by
  cases p
  · simp [countMark, Polarity.toNat]; have := par.isLt; omega
  · simp [countMark, Polarity.toNat, BitVec.toNat_add]

/-- A parity error comes with a byte, a framing error with a space, and no bit flags a break (R116 to R119). -/
theorem stepBits_flags (p : Polarity) (n : Nat) (x : Decoder × DecOut) (h1 : x.2.pe = true → x.2.bv = true)
    (h2 : x.2.fe = true → p = .space) :
   ((stepBits p n x).2.pe = true → (stepBits p n x).2.bv = true) ∧ ((stepBits p n x).2.fe = true → p = .space) ∧
       (stepBits p n x).2.bd = x.2.bd := by
  induction n generalizing x with
  | zero => exact ⟨h1, h2, rfl⟩
  | succ n ih =>
    have key : ((stepBit p x).2.pe = true → (stepBit p x).2.bv = true) ∧ ((stepBit p x).2.fe = true → p = .space) ∧
        (stepBit p x).2.bd = x.2.bd := by
      unfold stepBit
      split_ifs <;> cases p <;> simp_all
    obtain ⟨a, b, c⟩ := ih _ key.1 key.2.1
    exact ⟨a, b, c.trans key.2.2⟩

/-- A mark leaves a decoder at position 0 as it is (R114). -/
theorem stepBits_mark_idle (n : Nat) (x : Decoder × DecOut) (h : x.1.pos.toNat = 0) : stepBits .mark n x = x := by
  induction n with
  | zero => rfl
  | succ n ih =>
    have : stepBit .mark x = x := by unfold stepBit; rw [if_pos h]
    rw [stepBits, this, ih]

/-! ## Sequences of pulses -/

theorem decodeAll_concat (P : Params) (d : Decoder) (ws : List Word) (w : Word) : (decodeAll P d (ws ++ [w])).1 =
    (decode1 P (decodeAll P d ws).1 w).1 := by
  rw [decodeAll_append]; rfl

theorem decodeAll_pos (P : Params) (d : Decoder) (ws : List Word) (h : d.pos.toNat ≤ 10) :
    (decodeAll P d ws).1.pos.toNat ≤ 10 := by
  induction ws generalizing d with
  | nil => exact h
  | cons w ws ih => exact ih _ (decode1_pos_le _ _ _ h)

theorem decodeAll_length (P : Params) (d : Decoder) (ws : List Word) : (decodeAll P d ws).2.length = ws.length := by
  induction ws generalizing d with
  | nil => rfl
  | cons w ws ih => simp [decodeAll, ih]

/-! ## The break flag -/

theorem stepBit_bd (p : Polarity) (x : Decoder × DecOut) : (stepBit p x).2.bd = x.2.bd := by
  unfold stepBit
  split_ifs <;> cases p <;> rfl

theorem stepBits_bd (p : Polarity) (n : Nat) (x : Decoder × DecOut) : (stepBits p n x).2.bd = x.2.bd := by
  induction n generalizing x with
  | zero => rfl
  | succ n ih => rw [stepBits, ih, stepBit_bd]

/-- A pulse of at most 10 bits is no break (R112). -/
theorem decode1_bd {P : Params} {d : Decoder} {w : Word} (h : bitCount P w ≤ 10) : (decode1 P d w).2.bd = false := by
  rw [decode1_of_le h]
  exact stepBits_bd ..

end Sys2Proof.Machine
end

