-- ==== Sys2Proof/Laws/Transaction.lean ====
section
/-! SUPPORT. The laws of the Transport port and of the phases of COMMAND: what a request changes, what `ENC_PLS` writes,
and what one pulse of a burst does. -/

namespace Sys2Proof.Machine

/-! ## Requests: what they change, whatever answers -/

theorem askOpen_state (s : State) :
    ∃ tr d, (askOpen s).2 = { s with transport := tr, requests := .openLink :: s.requests, draws := d } := by
  unfold askOpen
  split <;> exact ⟨_, _, rfl⟩

theorem askReset_state (s : State) :
    ∃ tr d, (askReset s).2 = { s with transport := tr, requests := .resetLink :: s.requests, draws := d } := by
  unfold askReset
  split <;> exact ⟨_, _, rfl⟩

theorem askSend_state (ws : List Word) (s : State) :
    ∃ tr d, (askSend ws s).2 = { s with transport := tr, requests := .send ws :: s.requests, draws := d } := by
  unfold askSend
  split <;> exact ⟨_, _, rfl⟩

theorem askReceive_state (n : Nat) (s : State) :
    ∃ tr d, (askReceive n s).2 = { s with transport := tr, requests := .receive n :: s.requests, draws := d } := by
  unfold askReceive
  split <;> exact ⟨_, _, rfl⟩

/-- An answer cut to what was asked for keeps duty T3 (R150). -/
theorem boundAnswer_withinDuty (n : Nat) (a : ReceiveAnswer) : (boundAnswer n a).withinDuty n = true := by
  cases a <;> simp [boundAnswer, ReceiveAnswer.withinDuty]

/-- A free answer keeps duty T3 (R150). -/
theorem askReceive_free {n : Nat} {s : State} (h : s.transport.receives = []) :
    (askReceive n s).1.withinDuty n = true := by
  simp only [askReceive, h]
  cases Config.receiveAnswer s.draws <;> simp [boundAnswer, ReceiveAnswer.withinDuty]

/-! ## Encoding the packet (R162) -/

@[simp] theorem pulsesOf_nil (P : Params) : pulsesOf P [] = [] := rfl

@[simp] theorem pulsesOf_cons (P : Params) (b : Byte) (bs : List Byte) :
    pulsesOf P (b :: bs) = segments P b ++ pulsesOf P bs := rfl

theorem pulsesOf_append (P : Params) (as bs : List Byte) : pulsesOf P (as ++ bs) = pulsesOf P as ++ pulsesOf P bs :=
  List.flatMap_append

theorem pulsesOf_length_le (P : Params) (bs : List Byte) : (pulsesOf P bs).length ≤ 10 * bs.length := by
  induction bs with
  | nil => simp
  | cons b bs ih =>
    have := segments_length_le P b
    simp only [pulsesOf_cons, List.length_append, List.length_cons]
    omega

theorem le_pulsesOf_length (P : Params) (bs : List Byte) : 2 * bs.length ≤ (pulsesOf P bs).length := by
  induction bs with
  | nil => simp
  | cons b bs ih =>
    have := two_le_segments_length P b
    simp only [pulsesOf_cons, List.length_append, List.length_cons]
    omega

/-- With room for 12 segments a byte the test of R162 never fails, and the whole pulse sequence is written in order. -/
theorem encodeBytes_of_readElems {P : Params} {n i t : Nat} {m : Memory} {bs : List Byte}
    (h : readElems m .pkt i n = some bs) (hroom : t + 12 * n ≤ P.plsCap) (hb : i + n ≤ 0x4000) :
    encodeBytes P n i t m = some (writePulses m t (pulsesOf P bs), .ok, t + (pulsesOf P bs).length) := by
  induction n generalizing i t m bs with
  | zero =>
    obtain rfl : bs = [] := by simpa [readElems] using h.symm
    simp [encodeBytes, writePulses]
  | succ n ih =>
    cases bs with
    | nil => exact absurd (readElems_length h) (by simp)
    | cons b bs =>
      obtain ⟨hd, hds⟩ := readElems_cons h
      have hseg := segments_length_le P b
      have htest : ¬ P.plsCap - t < Config.segWorst := by simp only [Config.segWorst]; omega
      have hrest : readElems (writePulses m t (segments P b)) .pkt (i + 1) n = some bs := by
        rw [← hds]
        apply readElems_congr
        intro k hk
        exact readElem_writePulses _ _ (by simp only [bufferBase]; omega)
      have hih := ih (t := t + (segments P b).length) hrest (by omega) (by omega)
      simp only [encodeBytes, if_neg htest, hd, hih, pulsesOf_cons, writePulses_append, List.length_append,
          Nat.add_assoc]

/-! ## One pulse of the burst (R166) -/

theorem storeByte_fields (b : Byte) (s : State) :
    (storeByte b s).params = s.params ∧ (storeByte b s).dec = s.dec ∧ (storeByte b s).decOut = s.decOut ∧
    (storeByte b s).phase = s.phase ∧ (storeByte b s).busy = s.busy ∧ (storeByte b s).code = s.code ∧
    (storeByte b s).cmd = s.cmd ∧ (storeByte b s).arg0 = s.arg0 ∧ (storeByte b s).arg1 = s.arg1 ∧
    (storeByte b s).txnOpcode = s.txnOpcode ∧ (storeByte b s).txCount = s.txCount ∧
        (storeByte b s).rxCount = s.rxCount ∧
    (storeByte b s).inputs = s.inputs ∧ (storeByte b s).transport = s.transport ∧
        (storeByte b s).requests = s.requests ∧
    (storeByte b s).draws = s.draws ∧ (storeByte b s).readData = s.readData ∧ (storeByte b s).result = s.result := by
  unfold storeByte
  split <;> simp

theorem decodeIntoPacket_fields (s : State) (w : Word) :
    (decodeIntoPacket s w).params = s.params ∧ (decodeIntoPacket s w).dec = (decode1 s.params s.dec w).1 ∧
    (decodeIntoPacket s w).decOut = (decode1 s.params s.dec w).2 ∧
    (decodeIntoPacket s w).phase = s.phase ∧ (decodeIntoPacket s w).busy = s.busy ∧
    (decodeIntoPacket s w).code = s.code ∧ (decodeIntoPacket s w).cmd = s.cmd ∧
    (decodeIntoPacket s w).arg0 = s.arg0 ∧ (decodeIntoPacket s w).arg1 = s.arg1 ∧
    (decodeIntoPacket s w).txnOpcode = s.txnOpcode ∧ (decodeIntoPacket s w).txCount = s.txCount ∧
    (decodeIntoPacket s w).rxCount = s.rxCount ∧ (decodeIntoPacket s w).inputs = s.inputs ∧
    (decodeIntoPacket s w).transport = s.transport ∧ (decodeIntoPacket s w).requests = s.requests ∧
    (decodeIntoPacket s w).draws = s.draws ∧ (decodeIntoPacket s w).readData = s.readData ∧
    (decodeIntoPacket s w).result = s.result := by
  simp only [decodeIntoPacket]
  split
  · simpa using storeByte_fields _ { s with dec := _, decOut := _, txnErr := _ }
  · simp

/-- A whole burst through the decoder: its state is that of `decodeAll`, and the other registers but the four of R166
keep their values. -/
theorem foldl_decodeIntoPacket_fields (ws : List Word) (s : State) :
    (ws.foldl decodeIntoPacket s).params = s.params ∧
    (ws.foldl decodeIntoPacket s).dec = (decodeAll s.params s.dec ws).1 ∧
    (ws.foldl decodeIntoPacket s).phase = s.phase ∧ (ws.foldl decodeIntoPacket s).busy = s.busy ∧
    (ws.foldl decodeIntoPacket s).code = s.code ∧ (ws.foldl decodeIntoPacket s).cmd = s.cmd ∧
    (ws.foldl decodeIntoPacket s).arg0 = s.arg0 ∧ (ws.foldl decodeIntoPacket s).arg1 = s.arg1 ∧
    (ws.foldl decodeIntoPacket s).txnOpcode = s.txnOpcode ∧ (ws.foldl decodeIntoPacket s).txCount = s.txCount ∧
    (ws.foldl decodeIntoPacket s).rxCount = s.rxCount ∧ (ws.foldl decodeIntoPacket s).inputs = s.inputs ∧
    (ws.foldl decodeIntoPacket s).transport = s.transport ∧ (ws.foldl decodeIntoPacket s).requests = s.requests ∧
    (ws.foldl decodeIntoPacket s).draws = s.draws ∧ (ws.foldl decodeIntoPacket s).readData = s.readData ∧
    (ws.foldl decodeIntoPacket s).result = s.result := by
  induction ws generalizing s with
  | nil => simp [decodeAll]
  | cons w ws ih =>
    have h := ih (decodeIntoPacket s w)
    have h1 := decodeIntoPacket_fields s w
    simp only [List.foldl_cons, decodeAll]
    simp only [h1] at h
    exact h

/-- One pulse of a burst keeps what a sound memory and the decoder's registers need. -/
structure BurstInv (P : Params) (s : State) : Prop where
  params : s.params = P
  wf : Memory.wf s.mem = true
  mapped : Mapped P s.mem
  pos : s.dec.pos.toNat ≤ 10
  kind : s.decOut.kind = worst s.decOut.pe s.decOut.fe s.decOut.bd
  byte : s.decOut.bv = false → s.decOut.byte = 0
  worst : s.txnErr.worst = worst s.txnErr.pe s.txnErr.fe s.txnErr.bd
  bytes : s.rxBytes.toNat ≤ P.pktCap
  written : Written s.mem .pkt 0 s.rxBytes.toNat

theorem Written.push {m : Memory} {n : Nat} (h : Written m .pkt 0 n) (b : Byte) :
    Written (writeElem m .pkt n b) .pkt 0 (n + 1) := by
  obtain ⟨vs, hvs⟩ := h
  refine ⟨vs ++ [b], ?_⟩
  apply readElems_join
  · rw [← hvs]
    apply readElems_congr
    intro k hk
    exact readElem_writeElem_other _ _ (by simp only [bufferBase]; omega)
  · simp [readElems]

theorem count16_toNat {n : Nat} (h : n < 65536) : (count16 n).toNat = n := by
  simp only [count16, BitVec.toNat_ofNat]
  omega

theorem BurstInv.step {P : Params} (hP : P.Legal) {s : State} (h : BurstInv P s) (w : Word) :
    BurstInv P (decodeIntoPacket s w) := by
  obtain ⟨hp, hwf, hmap, hpos, -, -, hworst, hbytes, hwr⟩ := h
  have hcap : P.pktCap ≤ 2053 := by have := hP.maxPayload_le; simp only [Params.pktCap]; omega
  have hpos' := decode1_pos_le s.params s.dec w hpos
  simp only [decodeIntoPacket]
  split
  · unfold storeByte
    split
    · next hlt =>
      simp only [hp] at hlt
      refine ⟨hp, wf_writeElem _ _ _ _ hwf, hmap.writeElem _ hlt, hpos', decode1_kind .., decode1_byte _ _ _, rfl,
          ?_, ?_⟩
      · simp only [count16_toNat (show s.rxBytes.toNat + 1 < 65536 by omega)]; omega
      · simp only [count16_toNat (show s.rxBytes.toNat + 1 < 65536 by omega)]; exact hwr.push _
    · exact ⟨hp, hwf, hmap, hpos', decode1_kind .., decode1_byte _ _ _, rfl, hbytes, hwr⟩
  · exact ⟨hp, hwf, hmap, hpos', decode1_kind .., decode1_byte _ _ _, rfl, hbytes, hwr⟩

theorem BurstInv.foldl {P : Params} (hP : P.Legal) (ws : List Word) {s : State} (h : BurstInv P s) :
    BurstInv P (ws.foldl decodeIntoPacket s) := by
  induction ws generalizing s with
  | nil => exact h
  | cons w ws ih => exact ih (h.step hP w)

/-- A decoded byte goes nowhere but to `PKT`. -/
theorem readPulse_storeByte {s : State} (hcap : s.params.pktCap ≤ 0x4000) (b : Byte) (i : Nat) :
    readPulse (storeByte b s).mem i = readPulse s.mem i := by
  unfold storeByte
  split
  · exact readPulse_writeElem _ _ (by simp only [bufferBase]; omega)
  · rfl

/-! ## The burst of a clean byte sequence (R120, R166) -/

/-- Outcomes that flag nothing leave `TXN_ERR` clear, and the emitted bytes go to `PKT` in order. -/
theorem foldl_decodeIntoPacket_clean {ws : List Word} {s : State} (hclean : clean (decodeAll s.params s.dec ws).2)
    (hfit : s.rxBytes.toNat + (emitted (decodeAll s.params s.dec ws).2).length ≤ s.params.pktCap)
    (hcap : s.params.pktCap < 65536) (herr : s.txnErr = TxnErr.clear) :
    (ws.foldl decodeIntoPacket s).txnErr = TxnErr.clear ∧
    (ws.foldl decodeIntoPacket s).rxBytes.toNat =
      s.rxBytes.toNat + (emitted (decodeAll s.params s.dec ws).2).length ∧
    (ws.foldl decodeIntoPacket s).mem =
      writeElems s.mem .pkt s.rxBytes.toNat (emitted (decodeAll s.params s.dec ws).2) := by
  induction ws generalizing s with
  | nil => simp [decodeAll, emitted, herr, writeElems]
  | cons w ws ih =>
    have hf := decodeIntoPacket_fields s w
    have h1 := hclean _ (List.mem_cons_self ..)
    have hcl : clean (decodeAll s.params (decode1 s.params s.dec w).1 ws).2 :=
      fun o ho => hclean o (List.mem_cons_of_mem _ ho)
    simp only [decodeAll] at hfit h1
    have herr' : recordDecode s.txnErr (decode1 s.params s.dec w).2 = TxnErr.clear := by
      simp [recordDecode, herr, TxnErr.clear, h1, worst]
    cases hbv : (decode1 s.params s.dec w).2.bv with
    | false =>
      have hstep : decodeIntoPacket s w =
          { s with
            dec := (decode1 s.params s.dec w).1, decOut := (decode1 s.params s.dec w).2
            txnErr := TxnErr.clear } := by
        simp [decodeIntoPacket, hbv, herr']
      have hem : emitted ((decode1 s.params s.dec w).2 :: (decodeAll s.params (decode1 s.params s.dec w).1 ws).2) =
          emitted (decodeAll s.params (decode1 s.params s.dec w).1 ws).2 := by
        simp [emitted, hbv]
      rw [hem] at hfit
      simp only [List.foldl_cons, decodeAll, hem, hstep]
      exact ih (s := { s with dec := _, decOut := _, txnErr := TxnErr.clear }) hcl hfit hcap rfl
    | true =>
      have hem : emitted ((decode1 s.params s.dec w).2 :: (decodeAll s.params (decode1 s.params s.dec w).1 ws).2) =
          (decode1 s.params s.dec w).2.byte :: emitted (decodeAll s.params (decode1 s.params s.dec w).1 ws).2 := by
        simp [emitted, hbv]
      rw [hem, List.length_cons] at hfit
      have hlt : s.rxBytes.toNat < s.params.pktCap := by omega
      have hstep : decodeIntoPacket s w =
          { s with
            dec := (decode1 s.params s.dec w).1, decOut := (decode1 s.params s.dec w).2, txnErr := TxnErr.clear
            mem := writeElem s.mem .pkt s.rxBytes.toNat (decode1 s.params s.dec w).2.byte
            rxBytes := count16 (s.rxBytes.toNat + 1) } := by
        simp [decodeIntoPacket, hbv, herr', storeByte, hlt]
      have hcount := count16_toNat (show s.rxBytes.toNat + 1 < 65536 by omega)
      simp only [List.foldl_cons, decodeAll, hem, hstep, List.length_cons, writeElems]
      have := ih (s := { s with
            dec := (decode1 s.params s.dec w).1, decOut := (decode1 s.params s.dec w).2, txnErr := TxnErr.clear
            mem := writeElem s.mem .pkt s.rxBytes.toNat (decode1 s.params s.dec w).2.byte
            rxBytes := count16 (s.rxBytes.toNat + 1) }) hcl (by simp only [hcount]; omega) hcap rfl
      simp only [hcount] at this
      refine ⟨this.1, by rw [this.2.1]; omega, this.2.2⟩

/-! ## Any burst (R166, R167) -/

/-- One pulse of a burst, in full: the flags are added to the record, an emitted byte goes to `PKT` or is dropped. -/
theorem decodeIntoPacket_result (s : State) (w : Word) (hcap : s.params.pktCap < 65536)
    (hr : s.rxBytes.toNat ≤ s.params.pktCap) :
    (decodeIntoPacket s w).txnErr.pe = (s.txnErr.pe || (decode1 s.params s.dec w).2.pe) ∧
    (decodeIntoPacket s w).txnErr.fe = (s.txnErr.fe || (decode1 s.params s.dec w).2.fe) ∧
    (decodeIntoPacket s w).txnErr.bd = (s.txnErr.bd || (decode1 s.params s.dec w).2.bd) ∧
    (decodeIntoPacket s w).txnErr.ov =
      (s.txnErr.ov || decide (s.params.pktCap < s.rxBytes.toNat + (emitted [(decode1 s.params s.dec w).2]).length)) ∧
    (decodeIntoPacket s w).rxBytes.toNat =
      min (s.rxBytes.toNat + (emitted [(decode1 s.params s.dec w).2]).length) s.params.pktCap ∧
    (decodeIntoPacket s w).mem =
      writeElems s.mem .pkt s.rxBytes.toNat
        ((emitted [(decode1 s.params s.dec w).2]).take (s.params.pktCap - s.rxBytes.toNat)) := by
  simp only [decodeIntoPacket]
  cases hbv : (decode1 s.params s.dec w).2.bv with
  | false =>
    have hem : emitted [(decode1 s.params s.dec w).2] = [] := by simp [emitted, hbv]
    rw [hem]
    simp [recordDecode, writeElems]
    omega
  | true =>
    have hem : emitted [(decode1 s.params s.dec w).2] = [(decode1 s.params s.dec w).2.byte] := by simp [emitted, hbv]
    rw [hem]
    simp only [if_true, storeByte]
    split
    · next hlt =>
      have hlt : s.rxBytes.toNat < s.params.pktCap := hlt
      obtain ⟨k, hk⟩ : ∃ k, s.params.pktCap - s.rxBytes.toNat = k + 1 := ⟨s.params.pktCap - s.rxBytes.toNat - 1,
          by omega⟩
      simp [recordDecode, writeElems, count16_toNat (show s.rxBytes.toNat + 1 < 65536 by omega), hk]
      omega
    · next hlt =>
      have hlt : ¬ s.rxBytes.toNat < s.params.pktCap := hlt
      simp [recordOverrun, recordDecode, writeElems, show s.params.pktCap - s.rxBytes.toNat = 0 by omega]
      omega

theorem emitted_cons (o : DecOut) (os : List DecOut) : emitted (o :: os) = emitted [o] ++ emitted os := by
  cases h : o.bv <;> simp [emitted, h]

/-- A whole burst, in full. -/
theorem foldl_decodeIntoPacket_result (ws : List Word) (s : State) (hcap : s.params.pktCap < 65536)
    (hr : s.rxBytes.toNat ≤ s.params.pktCap) :
    (ws.foldl decodeIntoPacket s).txnErr.pe = (s.txnErr.pe || (decodeAll s.params s.dec ws).2.any (·.pe)) ∧
    (ws.foldl decodeIntoPacket s).txnErr.fe = (s.txnErr.fe || (decodeAll s.params s.dec ws).2.any (·.fe)) ∧
    (ws.foldl decodeIntoPacket s).txnErr.bd = (s.txnErr.bd || (decodeAll s.params s.dec ws).2.any (·.bd)) ∧
    (ws.foldl decodeIntoPacket s).txnErr.ov =
      (s.txnErr.ov ||
        decide (s.params.pktCap < s.rxBytes.toNat + (emitted (decodeAll s.params s.dec ws).2).length)) ∧
    (ws.foldl decodeIntoPacket s).rxBytes.toNat =
      min (s.rxBytes.toNat + (emitted (decodeAll s.params s.dec ws).2).length) s.params.pktCap ∧
    (ws.foldl decodeIntoPacket s).mem =
      writeElems s.mem .pkt s.rxBytes.toNat
        ((emitted (decodeAll s.params s.dec ws).2).take (s.params.pktCap - s.rxBytes.toNat)) := by
  induction ws generalizing s with
  | nil =>
    simp [decodeAll, emitted, writeElems]
    omega
  | cons w ws ih =>
    obtain ⟨h1, h2, h3, h4, h5, h6⟩ := decodeIntoPacket_result s w hcap hr
    have hf := decodeIntoPacket_fields s w
    have hle : (emitted [(decode1 s.params s.dec w).2]).length ≤ 1 := by
      cases h : (decode1 s.params s.dec w).2.bv <;> simp [emitted, h]
    obtain ⟨i1, i2, i3, i4, i5, i6⟩ := ih (decodeIntoPacket s w) (by rw [hf.1]; exact hcap) (by rw [hf.1, h5]; omega)
    simp only [hf.1, hf.2.1] at i1 i2 i3 i4 i5 i6
    simp only [List.foldl_cons, decodeAll]
    have hem := emitted_cons (decode1 s.params s.dec w).2 (decodeAll s.params (decode1 s.params s.dec w).1 ws).2
    refine ⟨by rw [i1, h1]; simp [Bool.or_assoc], by rw [i2, h2]; simp [Bool.or_assoc],
      by rw [i3, h3]; simp [Bool.or_assoc], ?_, ?_, ?_⟩
    · have hl := congrArg List.length hem
      rw [List.length_append] at hl
      rw [i4, h4, h5, Bool.or_assoc, ← Bool.decide_or]
      exact congrArg _ (decide_eq_decide.2 (by omega))
    · rw [i5, h5, hem, List.length_append]
      omega
    · rw [i6, h6, h5, hem, List.take_append, writeElems_append]
      congr 1
      · rw [List.length_take]; omega
      · congr 1
        omega

/-! ## The bytes of `TXD`, and the rest of the state, through a burst -/

theorem encodeBytes_txd {P : Params} {n i t j : Nat} {m : Memory} {r : Memory × Code × Nat}
    (h : encodeBytes P n i t m = some r) (hj : j < 0x1000) : readElem r.1 .txd j = readElem m .txd j := by
  induction n generalizing i t m with
  | zero => cases h; rfl
  | succ n ih =>
    simp only [encodeBytes] at h
    split at h
    · cases h; rfl
    · split at h
      · cases h
      · rw [ih h, readElem_writePulses _ _ (by simp only [bufferBase]; omega)]

theorem storeByte_txd (b : Byte) (s : State) {j : Nat} (hj : j < 0x1000) : readElem
    (storeByte b s).mem .txd j = readElem s.mem .txd j := by
  unfold storeByte
  split
  · exact readElem_writeElem_other _ _ (by simp only [bufferBase]; omega)
  · rfl

theorem foldl_decodeIntoPacket_txd (ws : List Word) (s : State) {j : Nat}
    (hj : j < 0x1000) : readElem (ws.foldl decodeIntoPacket s).mem .txd j = readElem s.mem .txd j := by
  induction ws generalizing s with
  | nil => rfl
  | cons w ws ih =>
    rw [List.foldl_cons, ih]
    simp only [decodeIntoPacket]
    split
    · rw [storeByte_txd _ _ hj]
    · rfl

/-- A burst changes the five fields of R166 and no other. -/
theorem foldl_decodeIntoPacket_eq (ws : List Word) (s : State) :
    ws.foldl decodeIntoPacket s = { s with
      dec := (ws.foldl decodeIntoPacket s).dec, decOut := (ws.foldl decodeIntoPacket s).decOut
      txnErr := (ws.foldl decodeIntoPacket s).txnErr, rxBytes := (ws.foldl decodeIntoPacket s).rxBytes
      mem := (ws.foldl decodeIntoPacket s).mem } := by
  have h := foldl_decodeIntoPacket_fields ws s
  generalize ws.foldl decodeIntoPacket s = u at *
  obtain ⟨⟩ := u
  obtain ⟨h1, h2, h3, h4, h5, h6, h7, h8, h9, h10, h11, h12, h13, h14, h15, h16, h17⟩ := h
  simp only at *
  subst h1 h2 h3 h4 h5 h6 h7 h8 h9 h10 h11 h12 h13 h14 h15 h16 h17
  rfl

/-- `DEC_OUT` is the outcome of the last pulse (R24). -/
theorem foldl_decodeIntoPacket_decOut (ws : List Word) (s : State) (o : DecOut)
    (h : (decodeAll s.params s.dec ws).2.getLast? = some o) : (ws.foldl decodeIntoPacket s).decOut = o := by
  induction ws generalizing s with
  | nil => simp [decodeAll] at h
  | cons w ws ih =>
    have hf := decodeIntoPacket_fields s w
    cases ws with
    | nil => simp [decodeAll] at h; simp [hf, h]
    | cons v ws => 
      rw [List.foldl_cons]; apply ih
      simp only [decodeAll] at h ⊢
      rw [List.getLast?_cons_cons] at h
      rw [hf.1, hf.2.1]; exact h

theorem foldl_decodeIntoPacket_worst (ws : List Word) (s : State) (h : s.txnErr.worst =
    worst s.txnErr.pe s.txnErr.fe s.txnErr.bd) : (ws.foldl decodeIntoPacket s).txnErr.worst = worst
        (ws.foldl decodeIntoPacket s).txnErr.pe (ws.foldl decodeIntoPacket s).txnErr.fe
            (ws.foldl decodeIntoPacket s).txnErr.bd := by
  induction ws generalizing s with
  | nil => exact h
  | cons w ws ih =>
    apply ih
    simp only [decodeIntoPacket]
    split
    · unfold storeByte; split <;> rfl
    · rfl

/-- No recorded flag and a summary that fits them is the clear record (R25). -/
theorem clear_of_not_recorded {e : TxnErr} (h : errorRecorded e = false)
    (hw : e.worst = worst e.pe e.fe e.bd) : e = TxnErr.clear := by
  obtain ⟨pe, fe, bd, ov, k⟩ := e
  simp [errorRecorded] at h
  obtain ⟨⟨⟨rfl, rfl⟩, rfl⟩, rfl⟩ := h
  simp at hw; subst hw; rfl

/-! ## Pulses in `PLS` -/

theorem WrittenPulses.push {m : Memory} {n : Nat} {ws : List Word} (h : WrittenPulses m 0 n) : WrittenPulses
    (writePulses m n ws) 0 (n + ws.length) := by
  obtain ⟨us, hu⟩ := h
  refine ⟨us ++ ws, readPulses_add ?_ (by rw [Nat.zero_add]; exact readPulses_writePulses_same ..)⟩
  rw [← hu]
  apply readPulses_congr
  intro k hk
  rw [readPulse_writePulses, if_neg (by omega)]

theorem readPulses_tail {m : Memory} {n : Nat} {ws : List Word} {w : Word} (h : readPulses m 0 (n+1) = some ws)
    (hw : readPulse m n = some w) : ∃ us, ws = us ++ [w] := by
  obtain ⟨hl, hk⟩ := (readPulses_eq_some_iff ..).1 h
  refine ⟨ws.take n, ?_⟩
  apply List.ext_getElem?
  intro k
  have hlt : (ws.take n).length = n := by simp [hl]
  rcases Nat.lt_trichotomy k n with h | h | h
  · rw [List.getElem?_append_left (by omega), List.getElem?_take_of_lt h]
  · subst h
    rw [List.getElem?_append_right (by omega), hlt, ← hk k (by omega), Nat.zero_add, hw]; simp
  · rw [List.getElem?_eq_none (by omega), List.getElem?_eq_none (by simp; omega)]

end Sys2Proof.Machine
end

