-- ==== Sys2Proof/Laws/Step.lean ====
section
/-! SUPPORT. One lemma per meaning and per phase of COMMAND: everything it can do when it answers a next state. Callers
cite these and unfold no meaning. -/

namespace Sys2Proof.Machine

/-! ## Who moves -/

/-- When it is the block's move, the step is the block's move. -/
theorem step_of_blockMoves {s : State} (h : s.BlockMoves) : step s = blockStep s.popInput := by
  rcases h with h | ⟨rest, h⟩
  · obtain ⟨⟩ := s
    simp only at h; subst h
    simp [step, State.popInput]
  · simp [step, State.popInput, h]

/-- In `EXEC` and `ENC_PKT` the block runs the operation of its command word. -/
theorem blockStep_start {s : State} (h : startsOperation s.phase = true) : blockStep s = runOperation s := if_pos h

/-- In every other phase it goes on with what runs. -/
theorem blockStep_later {s : State} (h : startsOperation s.phase = false) : blockStep s = continueCommand s := by
  rw [blockStep, if_neg]; simp [h]

@[simp] theorem decode_encode (i : Instr) : decode (encode i) = .ok i := by cases i <;> rfl

theorem runOperation_ok {s : State} {i : Instr} (h : decode s.cmd = .ok i) : runOperation s = exec i s := by
  simp [runOperation, h]

theorem runOperation_error {s : State} {e : DecodeError} (h : decode s.cmd = .error e) :
    runOperation s = .next (nullOperation s) := by
  simp [runOperation, h]

@[simp] theorem orUnwritten_some (s : State) : orUnwritten (some s) = .next s := rfl

@[simp] theorem orUnwritten_none : orUnwritten none = .fault .unwrittenElement := rfl

theorem orUnwritten_eq_next {o : Option State} {t : State} : orUnwritten o = .next t ↔ o = some t := by
  cases o <;> simp [orUnwritten]

/-! ## The four codec operations -/

/-- PENC (R100, R101). -/
theorem execPenc_cases {s t : State} (h : execPenc s = .next t) :
    (pencCap s < 12 ∧ t = fail .bufferTooSmall s) ∨
    (12 ≤ pencCap s ∧ t = finishWith (segments s.params (pencByte s)).length .ok
      { s with mem := writePulses s.mem 0 (segments s.params (pencByte s)) }) := by
  unfold execPenc at h
  split at h
  · next hc => cases h; exact .inl ⟨hc, rfl⟩
  · next hc => cases h; exact .inr ⟨Nat.le_of_not_lt hc, rfl⟩

/-- PDEC always answers (R110). -/
theorem execPdec_eq (s : State) :
    execPdec s = .next (finishWith (decode1 s.params s.dec (pdecPulse s)).2.bv.toNat .ok
      { s with dec := (decode1 s.params s.dec (pdecPulse s)).1, decOut := (decode1 s.params s.dec
          (pdecPulse s)).2 }) := rfl

/-- KENC is `pack` (R130). -/
theorem execKenc_cases {s t : State} (h : execKenc s = .next t) :
    ∃ m c n, pack (lengthOperand s) (kencCap s) s.mem = some (m, c, n) ∧ t = finishWith n c { s with mem := m } := by
  rw [execKenc, orUnwritten_eq_next] at h
  split at h
  · cases h
  · next m c n hp => cases h; exact ⟨m, c, n, hp, rfl⟩

theorem execKenc_pack {s : State} {m : Memory} {c : Code} {n : Nat}
    (h : pack (lengthOperand s) (kencCap s) s.mem = some (m, c, n)) :
    execKenc s = .next (finishWith n c { s with mem := m }) := by
  rw [execKenc, h]; rfl

/-- KDEC is `unpack`, but for a length that `PKT` cannot hold (R85, R136). -/
theorem execKdec_cases {s t : State} (h : execKdec s = .next t) :
    (s.params.pktCap < lengthOperand s ∧ t = fail .refused s) ∨
    (lengthOperand s ≤ s.params.pktCap ∧
      ∃ m c k, unpack (lengthOperand s) (payloadCap s) s.mem = some (m, c,
          k) ∧ t = finishWith k c { s with mem := m }) := by
  unfold execKdec at h
  split at h
  · next hc => cases h; exact .inl ⟨hc, rfl⟩
  · next hc =>
    rw [orUnwritten_eq_next] at h
    split at h
    · cases h
    · next m c k hu => cases h; exact .inr ⟨Nat.le_of_not_lt hc, m, c, k, hu, rfl⟩

theorem execKdec_refused {s : State} (h : s.params.pktCap < lengthOperand s) : execKdec s = .next (fail .refused s) :=
  if_pos h

theorem execKdec_unpack {s : State} {m : Memory} {c : Code} {k : Nat} (h : lengthOperand s ≤ s.params.pktCap)
    (hu : unpack (lengthOperand s) (payloadCap s) s.mem = some (m, c, k)) :
    execKdec s = .next (finishWith k c { s with mem := m }) := by
  rw [execKdec, if_neg (Nat.not_lt.2 h), hu]; rfl

/-! ## The three link operations -/

/-- OPEN (R155). -/
theorem execOpen_cases (s : State) :
    ∃ a tr d, execOpen s =
      .next (finishWith 0 (openCode a)
        { s with transport := tr, requests := .openLink :: s.requests, draws := d }) := by
  obtain ⟨tr, d, h⟩ := askOpen_state s
  exact ⟨(askOpen s).1, tr, d, by rw [← h]; rfl⟩

/-- CLOSE (R156). -/
theorem execClose_eq (s : State) : execClose s = .next (finishWith 0 .ok { s with requests :=
    .closeLink :: s.requests }) :=
  rfl

/-- RESET (R157). -/
theorem execReset_cases (s : State) :
    ∃ a tr d, execReset s =
      .next (finishWith 0 (resetCode a)
        { s with transport := tr, requests := .resetLink :: s.requests, draws := d }) := by
  obtain ⟨tr, d, h⟩ := askReset_state s
  exact ⟨(askReset s).1, tr, d, by rw [← h]; rfl⟩

/-! ## COMMAND -/

/-- Phase `ENC_PKT` (R161). -/
theorem execCommand_cases {s t : State} (h : execCommand s = .next t) :
    (lengthOperand s = 0 ∧ t = fail .refused s) ∨
    ∃ op m c n, lengthOperand s ≠ 0 ∧ readElem s.mem .txd 0 = some op ∧
      pack (lengthOperand s) s.params.pktCap s.mem = some (m, c, n) ∧
      (c = .ok ∧ t = { openTransaction op s with mem := m, phase := .encPls } ∨
        c ≠ .ok ∧ t = fail c { openTransaction op s with mem := m }) := by
  unfold execCommand at h
  split at h
  · next h0 => cases h; exact .inl ⟨h0, rfl⟩
  · next h0 =>
    rw [orUnwritten_eq_next] at h
    split at h
    · cases h
    · next op hop =>
      split at h
      · cases h
      · next m n hp => cases h; exact .inr ⟨op, m, .ok, n, h0, hop, hp, .inl ⟨rfl, rfl⟩⟩
      · next m c n hc hp => cases h; exact .inr ⟨op, m, c, n, h0, hop, hp, .inr ⟨fun e => hc (e ▸ rfl), rfl⟩⟩

/-- Phase `ENC_PLS` (R162). -/
theorem phaseEncPls_cases {s t : State} (h : phaseEncPls s = .next t) :
    ∃ m c n, encodeBytes s.params (2 * lengthOperand s + Config.pktOverhead) 0 0 s.mem = some (m, c, n) ∧
      (c = .ok ∧ t = { s with mem := m, txCount := count16 n, phase := .send } ∨
        c ≠ .ok ∧ t = fail c { s with mem := m }) := by
  rw [phaseEncPls, orUnwritten_eq_next] at h
  split at h
  · cases h
  · next m n he => cases h; exact ⟨m, .ok, n, he, .inl ⟨rfl, rfl⟩⟩
  · next m c n hc he => cases h; exact ⟨m, c, n, he, .inr ⟨fun e => hc (e ▸ rfl), rfl⟩⟩

/-- Phase `SEND` (R163). -/
theorem phaseSend_cases {s t : State} (h : phaseSend s = .next t) :
    ∃ ws a tr d, readPulses s.mem 0 s.txCount.toNat = some ws ∧
      (a = SendAnswer.ok ∧
          t = { s with transport := tr, requests := .send ws :: s.requests, draws := d, phase := .recv } ∨
        a ≠ SendAnswer.ok ∧
          t = fail (sendCode a) { s with transport := tr, requests := .send ws :: s.requests, draws := d }) := by
  rw [phaseSend, orUnwritten_eq_next] at h
  split at h
  · cases h
  · next ws hw =>
    obtain ⟨tr, d, hst⟩ := askSend_state ws s
    refine ⟨ws, (askSend ws s).1, tr, d, hw, ?_⟩
    simp only [hst] at h
    cases ha : (askSend ws s).1 <;> rw [ha] at h <;> cases h
    · exact .inl ⟨rfl, rfl⟩
    · exact .inr ⟨nofun, rfl⟩
    · exact .inr ⟨nofun, rfl⟩

/-- Phase `RECV`, one request (R164). -/
theorem phaseRecv_cases {s t : State} (h : phaseRecv s = .next t) :
    ∃ a tr d u, u = { s with transport := tr, requests := .receive (receiveRoom s) :: s.requests, draws := d } ∧
      (a = ReceiveAnswer.notOpen ∧ t = fail .notOpen u ∨ a = .deviceError ∧ t = fail .deviceError u ∨
        a = .bufferFull ∧ t = fail .bufferFull u ∨
        a = .pulses [] ∧ s.rxCount.toNat = 0 ∧ t = fail .noReply u ∨
        a = .pulses [] ∧ s.rxCount.toNat ≠ 0 ∧ t = { u with phase := .tail } ∨
        ∃ ws, a = .pulses ws ∧ ws ≠ [] ∧ ws.length ≤ receiveRoom s ∧ t = takePulses ws u) := by
  obtain ⟨tr, d, hst⟩ := askReceive_state (receiveRoom s) s
  refine ⟨(askReceive (receiveRoom s) s).1, tr, d, _, rfl, ?_⟩
  simp only [phaseRecv, hst] at h
  cases ha : (askReceive (receiveRoom s) s).1 with
  | notOpen => rw [ha] at h; cases h; exact .inl ⟨rfl, rfl⟩
  | deviceError => rw [ha] at h; cases h; exact .inr (.inl ⟨rfl, rfl⟩)
  | bufferFull => rw [ha] at h; cases h; exact .inr (.inr (.inl ⟨rfl, rfl⟩))
  | pulses ws =>
    rw [ha] at h
    cases ws with
    | nil =>
      simp only at h
      split at h
      · next h0 => cases h; exact .inr (.inr (.inr (.inl ⟨rfl, h0, rfl⟩)))
      · next h0 => cases h; exact .inr (.inr (.inr (.inr (.inl ⟨rfl, h0, rfl⟩))))
    | cons w ws =>
      simp only at h
      split at h
      · cases h
      · next hl => cases h; exact .inr (.inr (.inr (.inr (.inr ⟨w :: ws, rfl, by simp, Nat.le_of_not_lt hl, rfl⟩))))

/-- `PLS[c..)` takes the pulses; the last entry is kept free (R164). -/
theorem takePulses_eq (ws : List Word) (s : State) :
    takePulses ws s =
      if s.rxCount.toNat + ws.length = s.params.plsCap - 1 then
        fail .bufferFull { s with
          mem := writePulses s.mem s.rxCount.toNat ws, rxCount := count16 (s.rxCount.toNat + ws.length) }
      else { s with
        mem := writePulses s.mem s.rxCount.toNat ws, rxCount := count16 (s.rxCount.toNat + ws.length) } := rfl

/-- Phase `DEC_PLS` (R166, R167). -/
theorem phaseDecPls_cases {s t : State} (h : phaseDecPls s = .next t) :
    ∃ ws u, readPulses s.mem 0 (s.rxCount.toNat + 1) = some ws ∧ u = ws.foldl decodeIntoPacket { s with rxBytes := 0 } ∧
      (errorRecorded u.txnErr = true ∧ t = fail .recvError u ∨
        errorRecorded u.txnErr = false ∧ t = { u with phase := .decPkt }) := by
  rw [phaseDecPls, orUnwritten_eq_next] at h
  split at h
  · cases h
  · next ws hw =>
    refine ⟨ws, _, hw, rfl, ?_⟩
    simp only at h
    split at h
    · next he => cases h; exact .inl ⟨he, rfl⟩
    · next he => cases h; exact .inr ⟨by simpa using he, rfl⟩

/-- Phase `DEC_PKT` (R168). -/
theorem phaseDecPkt_cases {s t : State} (h : phaseDecPkt s = .next t) :
    ∃ m c k, unpack s.rxBytes.toNat (payloadCap s) s.mem = some (m, c, k) ∧
      (c = .ok ∧ t = { s with mem := m, phase := .check } ∨ c ≠ .ok ∧ t = fail .recvError { s with mem := m }) := by
  rw [phaseDecPkt, orUnwritten_eq_next] at h
  split at h
  · cases h
  · next m k hu => cases h; exact ⟨m, .ok, k, hu, .inl ⟨rfl, rfl⟩⟩
  · next m c k hc hu => cases h; exact ⟨m, c, k, hu, .inr ⟨fun e => hc (e ▸ rfl), rfl⟩⟩

/-- Phase `CHECK` (R169). -/
theorem phaseCheck_cases {s t : State} (h : phaseCheck s = .next t) :
    t = fail .recvError s ∨
    (replyLength s ≠ 0 ∧ readElem s.mem .rxd 0 = some (complement s.txnOpcode) ∧
      t = finishWith (replyLength s) .ok s) := by
  unfold phaseCheck at h
  split at h
  · cases h; exact .inl rfl
  · next h0 =>
    rw [orUnwritten_eq_next] at h
    split at h
    · cases h
    · next b hb =>
      split at h
      · cases h; exact .inl rfl
      · next hc => cases h; exact .inr ⟨h0, by rw [hb, not_not.1 hc], rfl⟩

/-! ## What a phase answers when it can read what it needs -/

/-- `ENC_PKT` of a request that fits. -/
theorem execCommand_packs {s : State} {op : Byte} {m : Memory} {n : Nat} (h0 : lengthOperand s ≠ 0)
    (hop : readElem s.mem .txd 0 = some op) (hp : pack (lengthOperand s) s.params.pktCap s.mem = some (m, .ok, n)) :
    execCommand s = .next { openTransaction op s with mem := m, phase := .encPls } := by
  simp only [execCommand, if_neg h0, hop, hp, orUnwritten_some]

/-- `ENC_PKT` of a request that is too long (R161). -/
theorem execCommand_tooSmall {s : State} {op : Byte} (h0 : lengthOperand s ≠ 0)
    (hop : readElem s.mem .txd 0 = some op) (hp : s.params.pktCap < 2 * lengthOperand s + 5) :
    execCommand s = .next (fail .bufferTooSmall { openTransaction op s with mem := s.mem }) := by
  simp only [execCommand, if_neg h0, hop, pack_tooSmall s.mem hp, orUnwritten_some]

/-- `ENC_PLS` of a packet whose pulses fit. -/
theorem phaseEncPls_encodes {s : State} {m : Memory} {n : Nat}
    (h : encodeBytes s.params (2 * lengthOperand s + Config.pktOverhead) 0 0 s.mem = some (m, .ok, n)) :
    phaseEncPls s = .next { s with mem := m, txCount := count16 n, phase := .send } := by
  simp only [phaseEncPls, h, orUnwritten_some]

/-- `SEND` of pulses that are there. -/
theorem phaseSend_asks {s : State} {ws : List Word} (h : readPulses s.mem 0 s.txCount.toNat = some ws) :
    phaseSend s =
      if (askSend ws s).1 = .ok then .next { (askSend ws s).2 with phase := .recv }
      else .next (fail (sendCode (askSend ws s).1) (askSend ws s).2) := by
  simp only [phaseSend, h]
  cases (askSend ws s).1 <;> rfl

/-- `DEC_PLS` of pulses that are there. -/
theorem phaseDecPls_decodes {s u : State} {ws : List Word} (h : readPulses s.mem 0 (s.rxCount.toNat + 1) = some ws)
    (hu : ws.foldl decodeIntoPacket { s with rxBytes := 0 } = u) :
    phaseDecPls s =
      if errorRecorded u.txnErr = true then .next (fail .recvError u) else .next { u with phase := .decPkt } := by
  subst hu
  simp only [phaseDecPls, h]
  split <;> rfl

/-- `DEC_PKT` of bytes that are there. -/
theorem phaseDecPkt_unpacks {s : State} {m : Memory} {c : Code} {k : Nat}
    (h : unpack s.rxBytes.toNat (payloadCap s) s.mem = some (m, c, k)) :
    phaseDecPkt s =
      if c = .ok then .next { s with mem := m, phase := .check } else .next (fail .recvError { s with mem := m }) := by
  simp only [phaseDecPkt, h]
  cases c <;> rfl

/-- `CHECK` of a reply that is there. -/
theorem phaseCheck_checks {s : State} {b : Byte} (h0 : replyLength s ≠ 0) (h : readElem s.mem .rxd 0 = some b) :
    phaseCheck s =
      if b = complement s.txnOpcode then .next (finishWith (replyLength s) .ok s) else .next (fail .recvError s) := by
  simp only [phaseCheck, if_neg h0, h]
  by_cases hb : b = complement s.txnOpcode <;> simp [hb]

/-! ## The block's move, by phase -/

/-- An idle block does nothing until the host writes `CMD` (R210). -/
theorem blockStep_idle {s : State} (h : s.phase = .idle) : blockStep s = .next s := by
  rw [blockStep_later (by rw [h]; rfl), continueCommand, h]

/-- Everything a move of the block can be. -/
theorem blockStep_cases {s t : State} (h : blockStep s = .next t) :
    (s.phase = .idle ∧ t = s) ∨
    ((s.phase = .exec ∨ s.phase = .encPkt) ∧
      ((∃ e, decode s.cmd = .error e ∧ t = fail .refused s) ∨ ∃ i, decode s.cmd = .ok i ∧ exec i s = .next t)) ∨
    (s.phase = .encPls ∧ phaseEncPls s = .next t) ∨ (s.phase = .send ∧ phaseSend s = .next t) ∨
    (s.phase = .recv ∧ phaseRecv s = .next t) ∨ (s.phase = .tail ∧ phaseTail s = .next t) ∨
    (s.phase = .decPls ∧ phaseDecPls s = .next t) ∨ (s.phase = .decPkt ∧ phaseDecPkt s = .next t) ∨
    (s.phase = .check ∧ phaseCheck s = .next t) := by
  cases hp : s.phase <;>
    first
    | (rw [blockStep_start (by rw [hp]; rfl)] at h
       cases hd : decode s.cmd with
       | error e => rw [runOperation_error hd] at h; cases h; exact .inr (.inl ⟨by simp, .inl ⟨e, rfl, rfl⟩⟩)
       | ok i => rw [runOperation_ok hd] at h; exact .inr (.inl ⟨by simp, .inr ⟨i, rfl, h⟩⟩))
    | (rw [blockStep_later (by rw [hp]; rfl), continueCommand, hp] at h
       simpa [eq_comm] using h)

/-! ## Several steps -/

theorem step_nil {s : State} (h : s.inputs = []) : step s = blockStep s := by simp [step, h]

theorem run_succ (n : Nat) (s t : State) (h : step s = .next t) : run (n + 1) s = run n t := by
  simp only [run, Host.Core.run]
  have : Sys2Proof.core.step s = .next t := h
  rw [this]

/-! ## Sound states -/

/-- Finishing an operation keeps a sound state sound, when what the operation wrote is sound. -/
theorem State.Inv.finished {s u : State} (h : s.Inv) (n : Nat) (c : Code) (hp : u.params = s.params)
    (hw : Memory.wf u.mem = true) (hm : Mapped s.params u.mem) (hd : u.dec.pos.toNat ≤ 10)
    (hc : c ≠ .breakDetected ∧ c ≠ .framingError ∧ c ≠ .parityError)
    (hk : u.decOut.kind = worst u.decOut.pe u.decOut.fe u.decOut.bd) (hb : u.decOut.bv = false → u.decOut.byte = 0)
    (he : u.txnErr.worst = worst u.txnErr.pe u.txnErr.fe u.txnErr.bd) : (finishWith n c u).Inv where
  params_legal := by rw [finishWith_params, hp]; exact h.params_legal
  mem_wf := hw
  mem_mapped := by rw [finishWith_params, hp]; exact hm
  dec_pos := hd
  busy_phase := by simp
  busy_code := by simp
  code_kind := hc
  dec_out_kind := hk
  dec_out_byte := hb
  txn_err_worst := he
  command_phase := trivial
  command_ready := trivial

/-- The same when the decoder and the error record are untouched. -/
theorem State.Inv.finished_of_eq {s u : State} (h : s.Inv) (n : Nat) (c : Code) (hp : u.params = s.params)
    (hw : Memory.wf u.mem = true) (hm : Mapped s.params u.mem)
    (hc : c ≠ .breakDetected ∧ c ≠ .framingError ∧ c ≠ .parityError)
    (hd : u.dec = s.dec) (hk : u.decOut = s.decOut) (he : u.txnErr = s.txnErr) : (finishWith n c u).Inv :=
  h.finished n c hp hw hm (hd ▸ h.dec_pos) hc (hk ▸ h.dec_out_kind) (hk ▸ h.dec_out_byte) (he ▸ h.txn_err_worst)

/-- Going on to another phase keeps a sound state sound, when what the phase wrote is sound. -/
theorem State.Inv.goOn {s u : State} (h : s.Inv) (hp : u.params = s.params) (hw : Memory.wf u.mem = true)
    (hm : Mapped s.params u.mem) (hd : u.dec.pos.toNat ≤ 10) (hph : u.phase ≠ .idle) (hsp : s.phase ≠ .idle)
    (hb : u.busy = s.busy) (hc : u.code = s.code)
    (hk : u.decOut.kind = worst u.decOut.pe u.decOut.fe u.decOut.bd) (hbv : u.decOut.bv = false → u.decOut.byte = 0)
    (he : u.txnErr.worst = worst u.txnErr.pe u.txnErr.fe u.txnErr.bd) (hcp : u.CommandPhase)
    (hcr : u.CommandReady) : u.Inv where
  params_legal := hp ▸ h.params_legal
  mem_wf := hw
  mem_mapped := hp ▸ hm
  dec_pos := hd
  busy_phase := ⟨fun _ => hph, fun _ => hb ▸ h.busy_phase.2 hsp⟩
  busy_code := fun hb' => hc ▸ h.busy_code (hb ▸ hb')
  code_kind := hc ▸ h.code_kind
  dec_out_kind := hk
  dec_out_byte := hbv
  txn_err_worst := he
  command_phase := hcp
  command_ready := hcr

/-- Taking an input and answering the port keeps a sound state sound. -/
theorem State.Inv.port {s : State} (h : s.Inv) (i : List Input) (r : Word) (d : Nat) :
    State.Inv { s with inputs := i, readData := r, draws := d } :=
  ⟨h.1, h.2, h.3, h.4, h.5, h.6, h.7, h.8, h.9, h.10, h.11, h.12⟩

end Sys2Proof.Machine
end

