-- ==== Sys2Proof/Laws/Exchange.lean ====
section
/-! SUPPORT. The laws of the host's sequence EXCHANGE: what the host writes, what issuing one operation does, and the
polling loop against a run of the machine. -/

namespace Sys2Proof.Machine

/-! ## What the host writes -/

/-- A `CMD` write while idle (R26). -/
theorem hostWrite_cmd {s : State} (w : Word) (hb : s.busy = false) : hostWrite 0 w s = startOperation w s := by
  simp [hostWrite, hb, place, registerAt, bufferBase, writeRegister]

theorem hostWrite_arg0 {s : State} (w : Word) (hb : s.busy = false) : hostWrite 2 w s = { s with arg0 := w } := by
  simp [hostWrite, hb, place, registerAt, bufferBase, writeRegister]

theorem hostWrite_arg1 {s : State} (w : Word) (hb : s.busy = false) : hostWrite 3 w s = { s with arg1 := w } := by
  simp [hostWrite, hb, place, registerAt, bufferBase, writeRegister]

/-- A write of an element of `TXD` while idle (R30). -/
theorem hostWrite_txd {s : State} (hP : s.params.Legal) (hb : s.busy = false) {k : Nat} (b : Byte)
    (hk : k < s.params.maxPayload) :
    hostWrite (BitVec.ofNat 16 (bufferBase .txd + k)) (b.setWidth 32) s =
      { s with mem := writeElem s.mem .txd k b } := by
  have hM := hP.maxPayload_le
  have hi : (BitVec.ofNat 16 (bufferBase .txd + k)).toNat = bufferBase .txd + k := by
    simp only [BitVec.toNat_ofNat, bufferBase]
    omega
  have hw : (b.setWidth 32).setWidth 8 = b := by
    apply BitVec.eq_of_toNat_eq
    have := b.isLt
    simp only [BitVec.toNat_setWidth]
    omega
  simp only [hostWrite, hb, hi, place_element s.params hP .txd k hk, writeElement, hw]
  simp

/-- The request bytes go to `TXD` in order. -/
theorem writeRequest_eq {s : State} (hP : s.params.Legal) (hb : s.busy = false) (bs : List Byte) {i : Nat}
    (hi : i + bs.length ≤ s.params.maxPayload) :
    writeRequest i bs s = { s with mem := writeElems s.mem .txd i bs } := by
  induction bs generalizing s i with
  | nil => rfl
  | cons b bs ih =>
    simp only [List.length_cons] at hi
    rw [writeRequest, hostWrite_txd hP hb b (by omega)]
    exact ih (s := { s with mem := writeElem s.mem .txd i b }) hP hb (by simp only; omega)

/-! ## One operation -/

/-- An operation that ends in one move ends there for any host that waits at all. -/
theorem issueOperation_done {i : Instr} {s t : State} {fuel : Nat} (hb : s.busy = false) (hf : 1 ≤ fuel)
    (h : exec i (startOperation (encode i) s) = .next t) (ht : t.busy = false) :
    issueOperation fuel i s = .next t := by
  obtain ⟨n, rfl⟩ : ∃ n, fuel = n + 1 := ⟨fuel - 1, by omega⟩
  have hstart : startsOperation (startOperation (encode i) s).phase = true := by cases i <;> rfl
  have hstep : blockStep (startOperation (encode i) s) = .next t := by
    rw [blockStep_start hstart, runOperation_ok (decode_encode i), h]
  rw [issueOperation, hostWrite_cmd _ hb, untilIdle, startOperation_busy, if_pos rfl, hstep, andThen]
  cases n with
  | zero => rfl
  | succ n => rw [untilIdle, ht]; rfl

/-- OPEN with the next answer determined (R155). -/
theorem issueOperation_open {s : State} {fuel : Nat} {a : OpenAnswer} {rest : List OpenAnswer} (hb : s.busy = false)
    (hf : 1 ≤ fuel) (h : s.transport.opens = a :: rest) :
    issueOperation fuel .openLink s = .next { s with
      cmd := encode .openLink, result := 0, code := openCode a, phase := .idle
      requests := .openLink :: s.requests, transport := { s.transport with opens := rest } } := by
  refine issueOperation_done hb hf ?_ hb
  simp only [exec, execOpen, askOpen, h, finishWith, finish, issue, startOperation, hb]
  rfl

/-- RESET with the next answer determined (R157). -/
theorem issueOperation_reset {s : State} {fuel : Nat} {a : ResetAnswer} {rest : List ResetAnswer}
    (hb : s.busy = false) (hf : 1 ≤ fuel) (h : s.transport.resets = a :: rest) :
    issueOperation fuel .resetLink s = .next { s with
      cmd := encode .resetLink, result := 0, code := resetCode a, phase := .idle
      requests := .resetLink :: s.requests, transport := { s.transport with resets := rest } } := by
  refine issueOperation_done hb hf ?_ hb
  simp only [exec, execReset, askReset, h, finishWith, finish, issue, startOperation, hb]
  rfl

/-- CLOSE (R156). -/
theorem issueOperation_close {s : State} {fuel : Nat} (hb : s.busy = false) (hf : 1 ≤ fuel) :
    issueOperation fuel .closeLink s = .next { s with
      cmd := encode .closeLink, result := 0, code := .ok, phase := .idle, requests := .closeLink :: s.requests } := by
  refine issueOperation_done hb hf ?_ hb
  simp only [exec, execClose, askClose, closeCode, finishWith, finish, issue, startOperation, hb]
  rfl

/-- The state in which COMMAND starts once the host has written the request and the operands. -/
def commandStart (bytes : List Byte) (cap : Word) (s : State) : State :=
  { s with
    mem := writeElems s.mem .txd 0 bytes, arg0 := BitVec.ofNat 32 bytes.length, arg1 := cap
    cmd := encode .command, busy := true, code := .ok, phase := .encPkt }

/-- Issuing COMMAND is polling from its start. -/
theorem issueCommand_eq {s : State} (hP : s.params.Legal) (hb : s.busy = false) (fuel : Nat) {bytes : List Byte}
    (cap : Word) (hl : bytes.length ≤ s.params.maxPayload) :
    issueCommand fuel bytes cap s = untilIdle fuel (commandStart bytes cap s) := by
  rw [issueCommand, List.take_of_length_le hl, writeRequest_eq hP hb _ (by omega),
    hostWrite_arg0 (s := { s with mem := writeElems s.mem .txd 0 bytes }) _ hb,
    hostWrite_arg1
      (s := { s with mem := writeElems s.mem .txd 0 bytes, arg0 := BitVec.ofNat 32 bytes.length }) _ hb,
    issueOperation,
    hostWrite_cmd
      (s := { s with
        mem := writeElems s.mem .txd 0 bytes, arg0 := BitVec.ofNat 32 bytes.length, arg1 := cap }) _ hb]
  rfl

/-! ## Polling and running -/

theorem untilIdle_idle {s : State} (hb : s.busy = false) (fuel : Nat) : untilIdle fuel s = .next s := by
  cases fuel with
  | zero => rfl
  | succ n => rw [untilIdle, hb]; rfl

theorem untilIdle_busy {s t : State} (hb : s.busy = true) (n : Nat) (h : blockStep s = .next t) :
    untilIdle (n + 1) s = untilIdle n t := by
  rw [untilIdle, if_pos hb, h, andThen]

/-- A move of the block takes no input. -/
theorem blockStep_inputs {s t : State} (h : blockStep s = .next t) : t.inputs = s.inputs := by
  rcases blockStep_cases h with ⟨hp', rfl⟩ | ⟨hp, ⟨e, he, rfl⟩ | ⟨i, hi, hx⟩⟩ | ⟨hp, hx⟩ | ⟨hp, hx⟩ | ⟨hp, hx⟩ |
    ⟨hp, hx⟩ | ⟨hp, hx⟩ | ⟨hp, hx⟩ | ⟨hp, hx⟩
  · rfl
  · rfl
  · cases i with
    | penc => rcases execPenc_cases hx with ⟨-, rfl⟩ | ⟨-, rfl⟩ <;> rfl
    | pdec => cases hx; rfl
    | kenc => obtain ⟨m, c, n, -, rfl⟩ := execKenc_cases hx; rfl
    | kdec => rcases execKdec_cases hx with ⟨-, rfl⟩ | ⟨-, m, c, k, -, rfl⟩ <;> rfl
    | openLink => obtain ⟨a, tr, d, he⟩ := execOpen_cases s; rw [exec, he] at hx; cases hx; rfl
    | closeLink => cases hx; rfl
    | resetLink => obtain ⟨a, tr, d, he⟩ := execReset_cases s; rw [exec, he] at hx; cases hx; rfl
    | command => rcases execCommand_cases hx with ⟨-, rfl⟩ | ⟨op, m, c, n, -, -, -, ⟨-, rfl⟩ | ⟨-, rfl⟩⟩ <;> rfl
  · obtain ⟨m, c, n, -, ⟨-, rfl⟩ | ⟨-, rfl⟩⟩ := phaseEncPls_cases hx <;> rfl
  · obtain ⟨ws, a, tr, d, -, ⟨-, rfl⟩ | ⟨-, rfl⟩⟩ := phaseSend_cases hx <;> rfl
  · obtain ⟨a, tr, d, u, rfl, hc⟩ := phaseRecv_cases hx
    rcases hc with ⟨-, rfl⟩ | ⟨-, rfl⟩ | ⟨-, rfl⟩ | ⟨-, -, rfl⟩ | ⟨-, -, rfl⟩ | ⟨ws, -, -, -, rfl⟩
    any_goals rfl
    rw [takePulses_eq]
    split <;> rfl
  · cases hx; rfl
  · obtain ⟨ws, u, -, rfl, ⟨-, rfl⟩ | ⟨-, rfl⟩⟩ := phaseDecPls_cases hx
    all_goals
      have hF := foldl_decodeIntoPacket_fields ws { s with rxBytes := 0 }
      simp only [fail_inputs, hF]
  · obtain ⟨m, c, k, -, ⟨-, rfl⟩ | ⟨-, rfl⟩⟩ := phaseDecPkt_cases hx <;> rfl
  · rcases phaseCheck_cases hx with rfl | ⟨-, -, rfl⟩ <;> rfl

end Sys2Proof.Machine
end

