-- ==== Sys2Proof/Laws/PerInstr.lean ====
section
/-! SUPPORT. Statements about every operation as syntax, one lemma per constructor. -/

namespace Sys2Proof.Laws.RoundTrip

/-- The operation is well formed, its command word is, and the decoder reads it back (spec/30_encoding.md R80). -/
def Statement (i : Instr) : Prop := i.wf = true ∧ commandWordWf (encode i) = true ∧ decode (encode i) = .ok i

theorem penc : Statement .penc := ⟨rfl, by decide, rfl⟩
theorem pdec : Statement .pdec := ⟨rfl, by decide, rfl⟩
theorem kenc : Statement .kenc := ⟨rfl, by decide, rfl⟩
theorem kdec : Statement .kdec := ⟨rfl, by decide, rfl⟩
theorem openLink : Statement .openLink := ⟨rfl, by decide, rfl⟩
theorem closeLink : Statement .closeLink := ⟨rfl, by decide, rfl⟩
theorem resetLink : Statement .resetLink := ⟨rfl, by decide, rfl⟩
theorem command : Statement .command := ⟨rfl, by decide, rfl⟩

end Sys2Proof.Laws.RoundTrip
end

