-- ==== Sys2Proof/Tests/Slice0.lean ====
section
/-! SUPPORT. The model's own tests: the well-formedness smoke, command words written out bit by bit, one-step tests whose
expected values are the vectors of spec/95_test_vectors.md, and for every obligation with hypotheses a concrete state
that meets them. -/

namespace Sys2Proof.Machine

/-! ## Helpers -/

/-- The outcome is a next state with the property. -/
def nextIs (o : Host.Outcome State Fault Refusal) (p : State → Bool) : Bool :=
  match o with
  | .next s => p s
  | .fault _ => false
  | .refused _ => false

/-- `ARG0` and `ARG1` written. -/
def withArgs (a0 a1 : Word) (s : State) : State := { s with arg0 := a0, arg1 := a1 }

/-- A byte buffer written from element 0 on. -/
def withBytes (b : Buffer) (vs : List Byte) (s : State) : State := { s with mem := writeElems s.mem b 0 vs }

/-- The decoder state written. -/
def withDec (pos par : BitVec 4) (data : Byte) (s : State) : State := { s with dec := { pos := pos, par := par, data := data } }

/-- The given inputs pending. -/
def withInputs (is : List Input) (s : State) : State := { s with inputs := is }

/-- A space of k bit periods of 417 (95_test_vectors.md). -/
def sp (k : Nat) : Word := pulse .space (417 * k)

/-- A mark of k bit periods of 417. -/
def mk (k : Nat) : Word := pulse .mark (417 * k)

/-- A COMMAND in a phase. -/
def inPhase (p : Phase) (s : State) : State := { s with busy := true, phase := p, cmd := 0x0000000B }

/-! ## Well-formedness: each check refuses something -/

theorem test_instr_wf : [Instr.penc, .pdec, .kenc, .kdec, .openLink, .closeLink, .resetLink, .command].all Instr.wf = true := by
  decide

theorem test_upper_bits_refused :
    [0x00000011, 0x00000010, 0x80000001, 0xFFFFFFFB].all (fun w : Word => !commandUpperZero w && !commandWordWf w) = true := by
  decide

theorem test_reserved_op_refused :
    [0x0, 0x5, 0x6, 0x7, 0xC, 0xD, 0xE, 0xF].all (fun w : Word => !commandOpMapped w && !commandWordWf w) = true := by decide

theorem test_default_legal : Params.default.legal = true := by decide

theorem test_bit_period_zero : Params.legal { Params.default with bitPeriod := 0, markAdj := 0, spaceAdj := 0 } = false := by decide

theorem test_bit_period_large : Params.legal { Params.default with bitPeriod := 65536 } = false := by decide

theorem test_mark_adj_large : Params.legal { Params.default with markAdj := -209 } = false := by decide

theorem test_space_adj_large : Params.legal { Params.default with spaceAdj := 209 } = false := by decide

theorem test_adj_bound_legal : Params.legal { Params.default with markAdj := -208, spaceAdj := 208 } = true := by decide

theorem test_no_payload : Params.legal { Params.default with maxPayload := 0 } = false := by decide

theorem test_payload_large : Params.legal { Params.default with maxPayload := 1025, plsCap := 32768 } = false := by decide

theorem test_pls_cap_small : Params.legal { Params.default with plsCap := 444 } = false := by decide

theorem test_pls_cap_large : Params.legal { Params.default with plsCap := 32769 } = false := by decide

theorem test_largest_instance_legal : Params.legal { Params.default with maxPayload := 1024, plsCap := 32768 } = true := by decide

theorem test_overrun_out_of_duty : ReceiveAnswer.withinDuty 1 (.pulses [0, 0]) = false := by decide

theorem test_answers_within_duty :
    [ReceiveAnswer.pulses [], .pulses [0], .notOpen, .deviceError, .bufferFull].all (ReceiveAnswer.withinDuty 1) = true := by decide

theorem test_wf_rising : Memory.wf [(4, 0), (5, 0)] = true ∧ Memory.wf [(5, 0), (4, 0)] = false ∧ Memory.wf [(4, 0), (4, 0)] = false := by
  decide

/-! ## Command words, written bit by bit from R80: 28 zero bits, then OP -/

theorem test_decode_penc : decode 0b00000000000000000000000000000001 = .ok .penc := by rfl
theorem test_decode_pdec : decode 0b00000000000000000000000000000010 = .ok .pdec := by rfl
theorem test_decode_kenc : decode 0b00000000000000000000000000000011 = .ok .kenc := by rfl
theorem test_decode_kdec : decode 0b00000000000000000000000000000100 = .ok .kdec := by rfl
theorem test_decode_open : decode 0b00000000000000000000000000001000 = .ok .openLink := by rfl
theorem test_decode_close : decode 0b00000000000000000000000000001001 = .ok .closeLink := by rfl
theorem test_decode_reset : decode 0b00000000000000000000000000001010 = .ok .resetLink := by rfl
theorem test_decode_command : decode 0b00000000000000000000000000001011 = .ok .command := by rfl
theorem test_decode_bit4 : decode 0b00000000000000000000000000010001 = .error .reservedBits := by rfl
theorem test_decode_op12 : decode 0b00000000000000000000000000001100 = .error .reservedOp := by rfl

/-! ## One step each: 95_test_vectors.md -/

/-- V1, E2: 0x41 is S1 M1 S5 M1 S1 M2. -/
theorem test_penc_41 :
    nextIs (exec .penc (withArgs 0x41 12 State.reset)) (fun t =>
      t.code == .ok && t.result == 6 &&
      readPulses t.mem 0 6 == some [0x000001A1, 0x800001A1, 0x00000825, 0x800001A1, 0x000001A1, 0x80000342]) = true := by
  decide +kernel

/-- V3: MARK_ADJ = 150, SPACE_ADJ = −150. -/
theorem test_penc_offsets :
    nextIs (exec .penc (withArgs 0xFFFFFF41 12 (State.resetWith { Params.default with markAdj := 150, spaceAdj := -150 })))
      (fun t => (readPulses t.mem 0 6).map (·.map dur) == some [267, 567, 1935, 567, 267, 984]) = true := by
  decide +kernel

/-- V11: framing and parity error and byte in one call. -/
theorem test_pdec_three_in_one :
    nextIs (exec .pdec (withArgs (sp 2) 0 (withDec 9 2 0x41 State.reset))) (fun t =>
      decOutWord t.decOut == 0x3741 && t.result == 1 && t.dec == { pos := 0, par := 2, data := 0x41 } && t.code == .ok) = true := by
  decide +kernel

/-- V13: 4379 units of space are a break. -/
theorem test_pdec_break_threshold :
    nextIs (exec .pdec (withArgs (pulse .space 4379) 0 State.reset)) (fun t =>
      decOutWord t.decOut == 0x2800 && t.result == 0 && t.dec == { pos := 1, par := 0, data := 0 }) = true := by
  decide +kernel

/-- V25. -/
theorem test_kenc_three_bytes :
    nextIs (exec .kenc (withArgs 3 11 (withBytes .txd [0x12, 0x34, 0x56] State.reset))) (fun t =>
      t.code == .ok && t.result == 11 &&
      readElems t.mem .pkt 0 11 == some [0x55, 0xFF, 0x00, 0x12, 0xED, 0x34, 0xCB, 0x56, 0xA9, 0x9C, 0x63]) = true := by
  decide +kernel

/-- V21, E9: one byte short. -/
theorem test_kenc_too_small :
    nextIs (exec .kenc (withArgs 1 6 (withBytes .txd [0x41] State.reset))) (fun t =>
      t.code == .bufferTooSmall && t.result == 0 && readElem t.mem .pkt 0 == none) = true := by
  decide +kernel

/-- V30: the third pair fails with two bytes already written. -/
theorem test_kdec_partial :
    nextIs (exec .kdec (withArgs 11 16
        (withBytes .pkt [0x55, 0xFF, 0x00, 0x01, 0xFE, 0x02, 0xFD, 0x03, 0xFF, 0x06, 0xF9] State.reset))) (fun t =>
      t.code == .notAPacket && t.result == 0 && readElems t.mem .rxd 0 2 == some [0x01, 0x02] &&
      readElem t.mem .rxd 2 == none) = true := by
  decide +kernel

/-- V26: the checksum wraps. -/
theorem test_kdec_wrap :
    nextIs (exec .kdec (withArgs 9 16 (withBytes .pkt [0x55, 0xFF, 0x00, 0xFF, 0x00, 0x02, 0xFD, 0x01, 0xFE] State.reset)))
      (fun t => t.code == .ok && t.result == 2 && readElems t.mem .rxd 0 2 == some [0xFF, 0x02]) = true := by
  decide +kernel

/-- V36. -/
theorem test_open_already_open :
    nextIs (exec .openLink { State.reset with transport := { Transport.free with opens := [.alreadyOpen, .ok] } })
      (fun t => t.code == .alreadyOpen && t.result == 0 && t.requests == [.openLink] && t.transport.opens == [.ok]) = true := by
  decide +kernel

/-- V37: CLOSE keeps the decoder state. -/
theorem test_close_keeps_decoder :
    nextIs (exec .closeLink (withDec 5 1 0x10 State.reset)) (fun t =>
      t.code == .ok && t.dec == { pos := 5, par := 1, data := 0x10 } && t.requests == [.closeLink]) = true := by
  decide +kernel

/-- V38. -/
theorem test_reset_device_error :
    nextIs (exec .resetLink { State.reset with transport := { Transport.free with resets := [.deviceError] } }) (fun t =>
      t.code == .deviceError && t.result == 0 && t.requests == [.resetLink] && t.dec == Decoder.initial) = true := by
  decide +kernel

/-- P1, ENC_PKT. -/
theorem test_command_packs :
    nextIs (exec .command (withArgs 1 16 (withBytes .txd [0x10] State.reset))) (fun t =>
      t.phase == .encPls && t.txnOpcode == 0x10 &&
      readElems t.mem .pkt 0 7 == some [0x55, 0xFF, 0x00, 0x10, 0xEF, 0x10, 0xEF]) = true := by
  decide +kernel

/-- E8: a reply 0x00 to opcode 0x10 fails the echo check. -/
theorem test_command_echo_mismatch :
    nextIs (step (inPhase .check
        (withBytes .rxd [0x00] { State.reset with txnOpcode := 0x10, rxBytes := 7, result := 5 }))) (fun t =>
      t.code == .recvError && t.result == 0 && !t.busy) = true := by
  decide +kernel

/-- V51: an upper bit set is `Refused`. -/
theorem test_reserved_word :
    nextIs (run 2 (withInputs [.write 0 0x80000001, .wait] State.reset)) (fun t =>
      t.code == .refused && t.result == 0 && !t.busy && t.requests == []) = true := by
  decide +kernel

/-- V52: 0x1FF written to `TXD[0]` stores 0xFF. -/
theorem test_host_write_low_byte :
    nextIs (step (withInputs [.write 0x1000 0x1FF] State.reset)) (fun t => readElem t.mem .txd 0 == some 0xFF) = true := by
  decide +kernel

/-- V52: `P_BIT_PERIOD` reads 417 and `STATUS` of a COMMAND that waits in RECV reads 0x100. -/
theorem test_host_reads :
    nextIs (step (withInputs [.read 0x0010] State.reset)) (fun t => t.readData == 0x000001A1) = true ∧
    nextIs (step (withInputs [.read 0x0001] (inPhase .recv State.reset))) (fun t => t.readData == 0x00000100) = true ∧
    nextIs (step (withInputs [.read 0x000B] (inPhase .recv State.reset))) (fun t => t.readData == 4) = true := by
  decide +kernel

/-- V52: `DEC_POS` takes 10 and ignores 11. -/
theorem test_host_dec_pos :
    nextIs (step (withInputs [.write 0x0006 10] State.reset)) (fun t => t.dec.pos == 10) = true ∧
    nextIs (step (withInputs [.write 0x0006 11] State.reset)) (fun t => t.dec.pos == 0) = true := by
  decide +kernel

/-- A word placed where the block fetches runs in the very next step. -/
theorem test_fetch_close : nextIs (step (State.reset.withFetchWord 32 0x9)) (fun t => t.requests == [.closeLink]) = true := by
  decide +kernel

theorem test_reset_memory : Memory.wf State.reset.mem = true := by decide

/-! ## Witnesses: states and operands that meet the hypotheses of each obligation -/

theorem blockMoves_nil : State.BlockMoves State.reset := .inl rfl

theorem witness_ReservedWordIsRefused :
    ∀ n ∈ [0x0, 0x5, 0x6, 0x7, 0xC, 0xD, 0xE, 0xF, 0x10, 0x11, 0x80000001, 0xFFFFFFFF],
      let w := BitVec.ofNat 32 n
      let s := withInputs [.write 0 w, .wait] State.reset
      s.busy = false ∧ s.phase = .idle ∧ s.inputs = .write 0 w :: .wait :: [] ∧
      (w.toNat % 16 ∈ [0x0, 0x5, 0x6, 0x7, 0xC, 0xD, 0xE, 0xF] ∨ w.toNat / 16 ≠ 0) := by
  decide +kernel

theorem witness_StepRunsTheDecodedOperation :
    (∃ s : State, s.phase = .exec ∧ s.BlockMoves ∧ decode s.cmd = .ok .penc) ∧
    (∃ s : State, s.phase = .encPkt ∧ s.BlockMoves ∧ decode s.cmd = .ok .command) ∧
    decodeTableWord 32 0x1 = some .penc ∧ decodeTableWord 32 0xB = some .command :=
  ⟨⟨startOperation 1 State.reset, rfl, .inl rfl, rfl⟩,
    ⟨startOperation 0xB (withInputs [.wait] State.reset), rfl, .inr ⟨_, rfl⟩, rfl⟩, rfl, rfl⟩

theorem witness_CmdWriteStartsAnOperation :
    State.reset.busy = false ∧ (withInputs [.write 0 0x0000000B] State.reset).inputs = .write 0 0x0000000B :: [] ∧
    (withInputs [.write 0 0x0000000C] State.reset).inputs = .write 0 0x0000000C :: [] :=
  ⟨rfl, rfl, rfl⟩

theorem witness_HardwareResetAbandonsTheOperation :
    let s := withInputs [.reset, .wait] (inPhase .recv State.reset)
    s.inputs = .reset :: [.wait] ∧ s.busy = true := by
  decide

theorem witness_BusyHostAccess :
    ∀ n ∈ [0x0000, 0x0001, 0x0002, 0x000A, 0x000B, 0x000C, 0x1000, 0xFFFF],
      let i := BitVec.ofNat 16 n
      let s := inPhase .recv State.reset
      s.busy = true ∧ (withInputs [.read i] s).inputs = .read i :: [] ∧
      (withInputs [.write i 5] s).inputs = .write i 5 :: [] := by
  decide +kernel

/-- Registers at 0x00 and 0x14, the first and the last element of `TXD` (one with a value, one without) and the last
element of `PLS`. -/
theorem witness_IdleHostRead :
    let s := withInputs [.read 0x0014] (withBytes .txd [7] State.reset)
    s.params.Legal ∧ s.busy = false ∧ s.inputs = .read 0x0014 :: [] ∧ (0x0014 : Index).toNat = 0x14 ∧
    (0 < bufferCap s.params .txd ∧ (0x1000 : Index).toNat = bufferBase .txd + 0 ∧ readElem s.mem .txd 0 = some 7) ∧
    (15 < bufferCap s.params .txd ∧ (0x100F : Index).toNat = bufferBase .txd + 15 ∧ readElem s.mem .txd 15 = none) ∧
    (444 < s.params.plsCap ∧ (0x81BC : Index).toNat = 0x8000 + 444 ∧ readPulse s.mem 444 = none) ∧
    readPulse (writePulse s.mem 444 9) 444 = some 9 :=
  ⟨Params.default_legal, by decide +kernel⟩

/-- Both ends of every unmapped range, and of every run of read-only places. -/
theorem witness_UnmappedAndReadOnlyIndices :
    State.reset.params.Legal ∧ State.reset.busy = false ∧
    (∀ x ∈ [0x000F, 0x0015, 0x0FFF, 0x1010, 0x1FFF, 0x2010, 0x3FFF, 0x4025, 0x7FFF, 0x81BD, 0xFFFF],
      UnmappedIndex State.reset.params (BitVec.ofNat 16 x).toNat) ∧
    (∀ x ∈ [0x01, 0x04, 0x05, 0x09, 0x0E, 0x10, 0x14, 0x2000, 0x200F],
      ReadOnlyIndex State.reset.params (BitVec.ofNat 16 x).toNat) := by
  refine ⟨Params.default_legal, rfl, ?_, ?_⟩
  · unfold UnmappedIndex; decide +kernel
  · unfold ReadOnlyIndex; decide +kernel

theorem witness_HostWritesOperandsAndDecoder :
    ∀ p ∈ [(0x0002, 7), (0x0003, 7), (0x0006, 10), (0x0006, 11), (0x0006, 15), (0x0007, 0x1F), (0x0008, 0x1FF)],
      let i := BitVec.ofNat 16 p.1
      let w := BitVec.ofNat 32 p.2
      State.reset.busy = false ∧ (withInputs [.write i w] State.reset).inputs = .write i w :: [] := by
  decide +kernel

theorem witness_HostWriteThenReadElement :
    ∀ p ∈ ([(.txd, 0, 0x1000), (.txd, 15, 0x100F), (.pkt, 0, 0x4000), (.pkt, 36, 0x4024), (.pls, 0, 0x8000),
        (.pls, 444, 0x81BC)] : List (Buffer × Nat × Index)),
      p.1 ≠ .rxd ∧ p.2.1 < bufferCap State.reset.params p.1 ∧ p.2.2.toNat = bufferBase p.1 + p.2.1 := by
  decide

/-- The longest runs: nine spaces in 0x00, ten marks in 0xFF. -/
theorem witness_SegmentDurations :
    Params.default.Legal ∧ (runs (frame 0x00))[0]? = some (.space, 9) ∧ (runs (frame 0xFF))[1]? = some (.mark, 10) :=
  ⟨Params.default_legal, by decide +kernel, by decide +kernel⟩

theorem witness_BitCountRoundsHalfUp :
    Params.default.Legal ∧ 2 * dur (pulse .space 208) < Params.default.bitPeriod ∧
    ¬ 2 * dur (pulse .space 209) < Params.default.bitPeriod :=
  ⟨Params.default_legal, by decide +kernel, by decide +kernel⟩

theorem witness_PencWritesTheSegments :
    let s := withArgs 0x41 12 State.reset
    12 ≤ s.arg1.toNat ∧ 12 ≤ s.params.plsCap := by
  decide

theorem witness_PencCapacityTest :
    min (withArgs 0xFF 11 State.reset).arg1.toNat 445 < 12 ∧ ¬ min (withArgs 0xFF 12 State.reset).arg1.toNat 445 < 12 := by
  decide

/-- One bit at each of the frame's kinds of position, in either polarity. -/
theorem witness_OneBitPulse :
    ∀ p ∈ [0, 1, 8, 9, 10], ∀ q ∈ [Polarity.space, .mark],
      let s := withArgs (pulse q 417) 0 (withDec (BitVec.ofNat 4 p) 1 0x41 State.reset)
      bitCount s.params s.arg0 = 1 ∧ s.dec.pos.toNat ≤ 10 := by
  decide +kernel

theorem witness_PulseIsItsBits :
    ∀ k ∈ [0, 1, 10], bitCount Params.default (sp k) ≤ 10 ∧ bitCount Params.default (sp 1) = 1 ∧
      pol (sp 1) = pol (sp k) := by
  decide +kernel

theorem witness_OverLongPulses :
    State.reset.params.Legal ∧
    (∀ q ∈ [Polarity.space, .mark],
      let s := withArgs (pulse q 4379) 0 State.reset
      10 < bitCount s.params s.arg0) ∧
    pol (pulse .space 4379) = .space ∧ pol (pulse .mark 4379) = .mark :=
  ⟨Params.default_legal, by decide +kernel, by decide +kernel, by decide +kernel⟩

theorem witness_ZeroBitPulse :
    2 * dur (withArgs (pulse .mark 208) 0 State.reset).arg0 < (withArgs (pulse .mark 208) 0 State.reset).params.bitPeriod := by
  decide +kernel

/-- A break, a parity error with a byte, a framing error alone, all but a break at once, and a clean byte (V8 to V12). -/
theorem witness_DecodeFlagCombinations :
    (decode1 Params.default { pos := 5, par := 1, data := 0x10 } (sp 11)).2.bd = true ∧
    (decode1 Params.default { pos := 8, par := 2, data := 0x82 } (sp 2)).2.pe = true ∧
    (decode1 Params.default { pos := 10, par := 3, data := 0x41 } (sp 1)).2.fe = true ∧
    (let o := (decode1 Params.default { pos := 9, par := 2, data := 0x41 } (sp 2)).2
     o.pe = true ∧ o.fe = true ∧ o.bv = true) ∧
    (let o := (decode1 Params.default { pos := 9, par := 2, data := 0x41 } (mk 2)).2
     o.pe = false ∧ o.fe = false ∧ o.bd = false ∧ o.bv = true) := by
  decide +kernel

theorem witness_LongMarkFlushesTheDecoder :
    ∀ p ∈ [0, 1, 9, 10], ∀ d ∈ [4170, 1000000],
      pol (pulse .mark d) = .mark ∧ 10 ≤ bitCount Params.default (pulse .mark d) ∧ (BitVec.ofNat 4 p).toNat ≤ 10 := by
  decide +kernel

theorem witness_PulseRoundTrip :
    Params.default.Legal ∧ Decoder.initial.pos = 0 ∧
    ((decodeAll Params.default Decoder.initial (segments Params.default 0x41)).2[5]?.map (·.bv)) = some true :=
  ⟨Params.default_legal, rfl, by decide +kernel⟩

theorem witness_KencWritesThePacket :
    let s := withArgs 1 7 (withBytes .txd [0x41] State.reset)
    s.params.Legal ∧ readElems s.mem .txd 0 s.arg0.toNat = some [0x41] ∧ 2 * s.arg0.toNat + 5 ≤ s.arg1.toNat ∧
    2 * s.arg0.toNat + 5 ≤ s.params.pktCap :=
  ⟨Params.default_legal, by decide +kernel⟩

theorem witness_KencCapacityTest :
    (let s := withArgs 1 6 State.reset
     min s.arg1.toNat s.params.pktCap < 2 * s.arg0.toNat + 5) ∧
    (let s := withArgs 17 0xFFFFFFFF State.reset
     s.params.maxPayload < s.arg0.toNat) ∧
    nextIs (exec .kenc (withArgs 0 5 State.reset)) (fun t => t.code == .ok) = true := by
  decide +kernel

/-- Two states that differ in `RXD`, the decoder and the phase. -/
theorem witness_KencIsPure :
    let s := withArgs 1 7 (withBytes .txd [0x41] State.reset)
    let u := withDec 5 1 0x10 (withBytes .rxd [9] s)
    s.params = u.params ∧ s.params.Legal ∧ s.arg0 = u.arg0 ∧ s.arg1 = u.arg1 ∧
    readElems s.mem .txd 0 s.arg0.toNat = readElems u.mem .txd 0 u.arg0.toNat ∧
    nextIs (exec .kenc s) (fun _ => true) = true ∧ nextIs (exec .kenc u) (fun _ => true) = true :=
  ⟨rfl, Params.default_legal, rfl, rfl, by decide +kernel⟩

/-- What KDEC leaves in `RXD`, by R137 to R142: a good packet, a wrong header, a wrong third pair (V30), a wrong checksum,
too little capacity, an even length. -/
theorem test_delivered :
    delivered 1 [0x55, 0xFF, 0x00, 0x41, 0xBE, 0x41, 0xBE] = [0x41] ∧
    delivered 1 [0x54, 0xFF, 0x00, 0x41, 0xBE, 0x41, 0xBE] = [] ∧
    delivered 3 [0x55, 0xFF, 0x00, 0x01, 0xFE, 0x02, 0xFD, 0x03, 0xFF, 0x06, 0xF9] = [0x01, 0x02] ∧
    delivered 1 [0x55, 0xFF, 0x00, 0x41, 0xBE, 0x42, 0xBD] = [0x41] ∧
    delivered 0 [0x55, 0xFF, 0x00, 0x41, 0xBE, 0x41, 0xBE] = [] ∧
    delivered 1 [0x55, 0xFF, 0x00, 0x41, 0xBE, 0x41] = [] := by
  decide +kernel

theorem witness_KdecAcceptsExactlyPackets :
    let s := withArgs 7 1 (withBytes .pkt [0x55, 0xFF, 0x00, 0x41, 0xBE, 0x41, 0xBE] State.reset)
    s.params.Legal ∧ s.arg0.toNat ≤ s.params.pktCap ∧
    readElems s.mem .pkt 0 s.arg0.toNat = some [0x55, 0xFF, 0x00, 0x41, 0xBE, 0x41, 0xBE] ∧
    packetOf [0x41] = [0x55, 0xFF, 0x00, 0x41, 0xBE, 0x41, 0xBE] :=
  ⟨Params.default_legal, by decide +kernel⟩

/-- Length 7 with capacity 0, length 4, and length 8 with capacity 1 (V27, V28); PKT_CAP is 37. -/
theorem witness_KdecLengthTests :
    (let s := withArgs 7 0 State.reset
     s.arg0.toNat ≤ s.params.pktCap ∧ 5 ≤ s.arg0.toNat ∧
      min s.arg1.toNat s.params.maxPayload < (s.arg0.toNat - 5) / 2) ∧
    (let s := withArgs 4 16 State.reset
     s.arg0.toNat ≤ s.params.pktCap ∧ s.arg0.toNat < 5) ∧
    (let s := withArgs 8 1 State.reset
     s.arg0.toNat ≤ s.params.pktCap ∧ (s.arg0.toNat - 5) % 2 = 1 ∧
      (s.arg0.toNat - 5) / 2 ≤ min s.arg1.toNat s.params.maxPayload) := by
  decide +kernel

/-- V30. -/
theorem witness_KdecPartialOutput :
    let s := withArgs 11 16 (withBytes .pkt [0x55, 0xFF, 0x00, 0x01, 0xFE, 0x02, 0xFD, 0x03, 0xFF] State.reset)
    s.params.Legal ∧ s.arg0.toNat = 2 * 3 + 5 ∧ 3 ≤ s.arg1.toNat ∧ 3 ≤ s.params.maxPayload ∧
    ([0x01, 0x02] : List Byte).length < 3 ∧
    readElems s.mem .pkt 0 (3 + 2 * 2) = some ([0x55, 0xFF, 0x00] ++ pairs [0x01, 0x02]) ∧
    readElem s.mem .pkt (3 + 2 * 2) = some 0x03 ∧ readElem s.mem .pkt (4 + 2 * 2) = some 0xFF ∧
    (0xFF : Byte).toNat ≠ 255 - (0x03 : Byte).toNat :=
  ⟨Params.default_legal, by decide +kernel⟩

/-- The empty payload and the largest. -/
theorem witness_PacketRoundTrip :
    State.reset.params.Legal ∧ readElems State.reset.mem .txd 0 0 = some [] ∧
    (let ds := List.replicate 16 (0xA5 : Byte)
     ds.length ≤ State.reset.params.maxPayload ∧
      readElems (withBytes .txd ds State.reset).mem .txd 0 ds.length = some ds) :=
  ⟨Params.default_legal, rfl, by decide +kernel⟩

/-- The first bit of the header and the last bit of the checksum's complement. -/
theorem witness_SingleBitFlipIsDetected :
    let s := withArgs 7 16 State.reset
    s.params.Legal ∧ s.arg0.toNat = 2 * ([0x41] : List Byte).length + 5 ∧ ([0x41] : List Byte).length ≤ s.arg1.toNat ∧
    ([0x41] : List Byte).length ≤ s.params.maxPayload ∧
    (packetOf [0x41])[0]? = some 0x55 ∧ (packetOf [0x41])[6]? = some 0xBE ∧
    readElems (withBytes .pkt ((packetOf [0x41]).set 0 (0x55 ^^^ 1)) s).mem .pkt 0 7 =
      some ((packetOf [0x41]).set 0 (0x55 ^^^ BitVec.ofNat 8 (2 ^ 0))) ∧
    readElems (withBytes .pkt ((packetOf [0x41]).set 6 (0xBE ^^^ 128)) s).mem .pkt 0 7 =
      some ((packetOf [0x41]).set 6 (0xBE ^^^ BitVec.ofNat 8 (2 ^ 7))) :=
  ⟨Params.default_legal, by decide +kernel⟩

/-- The state after reset, whatever the Transport answers, is sound. -/
theorem inv_reset (tr : Transport) : State.Inv { State.reset with transport := tr } where
  params_legal := Params.default_legal
  mem_wf := rfl
  mem_mapped := fun c hc => nomatch hc
  dec_pos := Nat.zero_le _
  busy_phase := by simp [State.reset, State.resetWith]
  busy_code := fun _ => rfl
  code_kind := ⟨nofun, nofun, nofun⟩
  dec_out_kind := rfl
  dec_out_byte := fun _ => rfl
  txn_err_worst := rfl
  command_phase := trivial
  command_ready := trivial

/-- A COMMAND that has just started is sound. -/
theorem inv_encPkt : State.Inv (inPhase .encPkt State.reset) where
  params_legal := Params.default_legal
  mem_wf := rfl
  mem_mapped := fun c hc => nomatch hc
  dec_pos := Nat.zero_le _
  busy_phase := by simp [inPhase]
  busy_code := fun _ => rfl
  code_kind := ⟨nofun, nofun, nofun⟩
  dec_out_kind := rfl
  dec_out_byte := fun _ => rfl
  txn_err_worst := rfl
  command_phase := rfl
  command_ready := trivial

theorem witness_ExchangeStopsAtTheFirstFailure :
    (State.reset.busy = false ∧ OpenAnswer.notFound ≠ .ok ∧ ResetAnswer.deviceError ≠ .ok ∧ SendAnswer.notOpen ≠ .ok) ∧
    ({ Transport.free with opens := [.notFound] } : Transport).opens = .notFound :: [] ∧
    ({ Transport.free with opens := [.ok], resets := [.deviceError] } : Transport).resets = .deviceError :: [] ∧
    (let s := { State.reset with
       transport := { Transport.free with opens := [.ok], resets := [.ok], sends := [.notOpen] } }
     nextIs (issueCommand 3 [0x10] 16 s) (fun u => !u.busy && u.code == .notOpen) = true ∧
      ([0x10] : List Byte).length ≤ s.params.maxPayload) ∧
    (let cuts : List (List Word) := [pulsesOf Params.default (packetOf [0xEF])]
     let s : State := { State.reset with
       transport := { Transport.free with
         opens := [.ok], resets := [.ok], sends := [.ok], receives := cuts.map .pulses ++ [.pulses []] } }
     s.Inv ∧ s.inputs = [] ∧ s.dec.pos = 0 ∧ ([0xEF] : List Byte).length ≤ (16 : Word).toNat ∧
      (∀ c ∈ cuts, c ≠ []) ∧ cuts.flatten = pulsesOf s.params (packetOf [0xEF])) :=
  ⟨by decide, rfl, rfl, by decide +kernel, inv_reset _, by decide +kernel⟩

theorem witness_OperandsOutsideTheDomain :
    (withArgs 38 16 State.reset).params.pktCap < (withArgs 38 16 State.reset).arg0.toNat ∧
    (withArgs 0 16 State.reset).arg0 = 0 ∧
    (let s := withArgs 17 16 (withBytes .txd [0x10] State.reset)
     s.params.maxPayload < s.arg0.toNat ∧ readElem s.mem .txd 0 = some 0x10) := by
  decide +kernel

theorem witness_UnwrittenElementsStop :
    State.reset.params.Legal ∧
    (let s := withArgs 2 9 (withBytes .txd [0x10] State.reset)
     2 * s.arg0.toNat + 5 ≤ s.arg1.toNat ∧ 2 * s.arg0.toNat + 5 ≤ s.params.pktCap ∧
      readElems s.mem .txd 0 s.arg0.toNat = none) ∧
    (let s := withArgs 5 0 State.reset
     s.arg0.toNat = 2 * 0 + 5 ∧ 0 ≤ s.arg1.toNat ∧ 0 ≤ s.params.maxPayload ∧ readElem s.mem .pkt 0 = none) ∧
    (let s := withArgs 17 16 State.reset
     s.arg0 ≠ 0 ∧ readElem s.mem .txd 0 = none) ∧
    (let s := withArgs 16 16 (withBytes .txd [0x10] State.reset)
     s.arg0.toNat ≤ s.params.maxPayload ∧ readElems s.mem .txd 0 s.arg0.toNat = none) :=
  ⟨Params.default_legal, by decide +kernel⟩

theorem witness_CommandPacksTheRequest :
    (let s := withArgs 1 16 (withBytes .txd [0x10] State.reset)
     s.params.Legal ∧ 1 ≤ s.arg0.toNat ∧ s.arg0.toNat ≤ s.params.maxPayload ∧
      readElems s.mem .txd 0 s.arg0.toNat = some [0x10]) ∧
    (let s := withArgs 16 16 (withBytes .txd (List.replicate 16 3) State.reset)
     s.arg0.toNat ≤ s.params.maxPayload ∧ readElems s.mem .txd 0 s.arg0.toNat = some (List.replicate 16 3)) :=
  ⟨⟨Params.default_legal, by decide +kernel⟩, by decide +kernel⟩

theorem witness_CommandEncodesThePacket :
    let s := inPhase .encPls (withArgs 1 16 (withBytes .pkt (packetOf [0x10]) State.reset))
    s.params.Legal ∧ s.BlockMoves ∧ s.phase = .encPls ∧ 2 * s.arg0.toNat + 5 ≤ s.params.pktCap ∧
    readElems s.mem .pkt 0 (2 * s.arg0.toNat + 5) = some (packetOf [0x10]) :=
  ⟨Params.default_legal, .inl rfl, rfl, by decide +kernel⟩

theorem witness_CommandSendsOnce :
    let s := inPhase .send { State.reset with
      txCount := 2, mem := writePulses [] 0 [sp 1, mk 1], transport := { Transport.free with sends := [.notOpen] } }
    s.BlockMoves ∧ s.phase = .send ∧ readPulses s.mem 0 s.txCount.toNat = some [sp 1, mk 1] ∧
    s.transport.sends = .notOpen :: [] :=
  ⟨.inl rfl, rfl, by decide +kernel⟩

/-- Each kind of answer; the empty answer with nothing received and with one pulse received; 444 pulses, which fill `PLS`
at once, and 443, which do not (V42 to V44). -/
theorem witness_CommandReceives :
    let s := inPhase .recv State.reset
    s.params.Legal ∧ s.BlockMoves ∧ s.phase = .recv ∧ s.rxCount.toNat < s.params.plsCap - 1 ∧
    (1 : BitVec 16).toNat < s.params.plsCap - 1 ∧ s.transport.receives = [] ∧
    (∀ a ∈ [ReceiveAnswer.notOpen, .deviceError, .bufferFull, .pulses [], .pulses [sp 1],
        .pulses (List.replicate 444 (sp 1)), .pulses (List.replicate 443 (sp 1))],
      a.withinDuty (s.params.plsCap - 1 - s.rxCount.toNat) = true) ∧
    (ReceiveAnswer.pulses (List.replicate 445 (sp 1))).withinDuty (s.params.plsCap - 1 - s.rxCount.toNat) = false ∧
    ({ Transport.free with receives := [.pulses []] } : Transport).receives = .pulses [] :: [] :=
  ⟨Params.default_legal, .inl rfl, rfl, by decide +kernel⟩

theorem witness_CommandAppendsTheTail :
    let s := inPhase .tail { State.reset with rxCount := 1 }
    s.params.Legal ∧ s.BlockMoves ∧ s.phase = .tail :=
  ⟨Params.default_legal, .inl rfl, rfl⟩

/-- A burst that decodes to nothing, and one with a framing error. -/
theorem witness_CommandDecodesTheBurst :
    (let s := inPhase .decPls { State.reset with rxCount := 1, mem := writePulses [] 0 [mk 1, mk 10] }
     s.params.Legal ∧ s.BlockMoves ∧ s.phase = .decPls ∧ s.txnErr = TxnErr.clear ∧
      readPulses s.mem 0 (s.rxCount.toNat + 1) = some [mk 1, mk 10] ∧
      decodeAll s.params s.dec [mk 1, mk 10] = (Decoder.initial, [DecOut.none, DecOut.none])) ∧
    (decodeAll Params.default { pos := 10, par := 0, data := 0 } [sp 1, mk 10]).2.any (·.fe) = true :=
  ⟨⟨Params.default_legal, .inl rfl, rfl, rfl, by decide +kernel, by decide +kernel⟩, by decide +kernel⟩

/-- A packet that fits, the same packet with too little capacity, and no packet at all. -/
theorem witness_CommandUnpacksTheReply :
    (let s := inPhase .decPkt { withArgs 1 1 (withBytes .pkt (packetOf [0xEF]) State.reset) with rxBytes := 7 }
     s.params.Legal ∧ s.BlockMoves ∧ s.phase = .decPkt ∧ s.rxBytes.toNat ≤ s.params.pktCap ∧
      readElems s.mem .pkt 0 s.rxBytes.toNat = some (packetOf [0xEF]) ∧
      ([0xEF] : List Byte).length ≤ s.arg1.toNat ∧ ([0xEF] : List Byte).length ≤ s.params.maxPayload) ∧
    min (withArgs 1 0 State.reset).arg1.toNat State.reset.params.maxPayload < ([0xEF] : List Byte).length ∧
    (∀ ds, ([0x55] : List Byte) = packetOf ds → min 1 State.reset.params.maxPayload < ds.length) :=
  ⟨⟨Params.default_legal, .inl rfl, rfl, by decide +kernel⟩, by decide +kernel,
    fun ds h => by simp [packetOf] at h⟩

/-- A good echo, a bad one, and an empty reply. -/
theorem witness_CommandChecksTheEcho :
    (∀ n ∈ [0xEF, 0x00],
      let b := BitVec.ofNat 8 n
      let s := inPhase .check { withBytes .rxd [b] State.reset with txnOpcode := 0x10, rxBytes := 7 }
      s.phase = .check ∧ s.inputs = [] ∧ s.rxBytes.toNat = 2 * ([b] : List Byte).length + 5 ∧
      readElems s.mem .rxd 0 ([b] : List Byte).length = some [b]) ∧
    (0xEF : Byte).toNat = 255 - (0x10 : Byte).toNat ∧ (0x00 : Byte).toNat ≠ 255 - (0x10 : Byte).toNat ∧
    (5 : BitVec 16).toNat = 2 * ([] : List Byte).length + 5 := by
  decide +kernel

/-- P1, with the reply cut after its tenth and eleventh pulse. -/
theorem witness_CommandExchange :
    let ws := pulsesOf Params.default (packetOf [0xEF])
    let cuts := [ws.take 10, (ws.drop 10).take 1, ws.drop 11]
    let s := inPhase .encPkt { withArgs 1 16 (withBytes .txd [0x10] State.reset) with
      transport := { Transport.free with sends := [.ok], receives := cuts.map .pulses ++ [.pulses []] } }
    s.params.Legal ∧ s.inputs = [] ∧ s.phase = .encPkt ∧ decode s.cmd = .ok .command ∧ s.dec.pos = 0 ∧
    ([0x10] : List Byte).head? = some 0x10 ∧ ([0x10] : List Byte).length = s.arg0.toNat ∧
    ([0x10] : List Byte).length ≤ s.params.maxPayload ∧ readElems s.mem .txd 0 1 = some [0x10] ∧
    ([0xEF] : List Byte).length ≤ s.arg1.toNat ∧ ([0xEF] : List Byte).length ≤ s.params.maxPayload ∧
    (∀ c ∈ cuts, c ≠ []) ∧ cuts.flatten = ws ∧ ([0xEF] : List Byte).head? = some (~~~0x10) ∧
    ([0x00] : List Byte).head? ≠ some (~~~0x10) :=
  ⟨Params.default_legal, rfl, rfl, rfl, rfl, by decide +kernel⟩

/-- A COMMAND that waits in `RECV` with nothing received is sound. -/
theorem inv_recv (tr : Transport) :
    State.Inv { inPhase .recv State.reset with transport := tr } where
  params_legal := Params.default_legal
  mem_wf := rfl
  mem_mapped := fun c hc => nomatch hc
  dec_pos := Nat.zero_le _
  busy_phase := by simp [inPhase]
  busy_code := fun _ => rfl
  code_kind := ⟨nofun, nofun, nofun⟩
  dec_out_kind := rfl
  dec_out_byte := fun _ => rfl
  txn_err_worst := rfl
  command_phase := (rfl : decode 0x0000000B = .ok .command)
  command_ready := ⟨rfl, (by decide : 0 < 445 - 1), [], rfl⟩

/-- The operation of any word but COMMAND, just started, is sound. -/
theorem inv_exec (w : Word) (h : decode w ≠ .ok .command) :
    State.Inv { State.reset with cmd := w, busy := true, phase := .exec } where
  params_legal := Params.default_legal
  mem_wf := rfl
  mem_mapped := fun c hc => nomatch hc
  dec_pos := Nat.zero_le _
  busy_phase := by simp
  busy_code := fun _ => rfl
  code_kind := ⟨nofun, nofun, nofun⟩
  dec_out_kind := rfl
  dec_out_byte := fun _ => rfl
  txn_err_worst := rfl
  command_phase := h
  command_ready := trivial

theorem witness_CommandFinishes :
    (let s := { inPhase .recv State.reset with transport := { Transport.free with receives := [.pulses []] } }
     s.Inv ∧ s.inputs = [] ∧ s.phase ∉ [Phase.idle, .exec]) ∧
    (let s := inPhase .encPkt State.reset
     s.Inv ∧ s.inputs = [] ∧ s.phase ∉ [Phase.idle, .exec] ∧
      Written s.mem .txd 0 (min s.arg0.toNat s.params.maxPayload)) ∧
    readElems (withBytes .txd [0x10] State.reset).mem .txd 0 (min 1 16) = some [0x10] :=
  ⟨⟨inv_recv _, rfl, by decide⟩, ⟨inv_encPkt, rfl, by decide, ⟨[], rfl⟩⟩, by decide +kernel⟩

theorem witness_CommandKeepsDecoderAtRest :
    let s := { inPhase .recv State.reset with transport := { Transport.free with receives := [.pulses []] } }
    s.Inv ∧ s.BlockMoves ∧ decode s.cmd = .ok .command ∧ s.phase ≠ .idle ∧ s.dec.pos = 0 ∧
    nextIs (step s) (fun t => t.code == .noReply) = true :=
  ⟨inv_recv _, .inl rfl, rfl, by decide, rfl, by decide +kernel⟩

theorem witness_ResetIsSound : Params.default.Legal := Params.default_legal

theorem witness_StepKeepsSoundness :
    let s := { inPhase .recv State.reset with transport := { Transport.free with receives := [.pulses [sp 1]] } }
    s.Inv ∧ nextIs (step s) (fun t => t.phase == .recv && t.rxCount == 1) = true :=
  ⟨inv_recv _, by decide +kernel⟩

theorem witness_BlockLeavesOperandsAlone :
    let s := withArgs 0x41 12 (startOperation 1 State.reset)
    s.BlockMoves ∧ nextIs (step s) (fun t => t.result == 6) = true :=
  ⟨.inl rfl, by decide +kernel⟩

/-- Running PENC, and idle after a PDEC and after a COMMAND, whose words `cmd` keeps. -/
theorem witness_DecoderWrittenOnlyByDecodes :
    (let s := withArgs 0x41 12 (startOperation 1 State.reset)
     s.BlockMoves ∧ nextIs (step s) (fun t => t.result == 6) = true ∧ s.phase ≠ .decPls ∧ s.phase = .exec ∧
     decode s.cmd ≠ .ok .pdec ∧ decode s.cmd ≠ .ok .command) ∧
    (∀ i ∈ [Instr.pdec, .command],
      let s := { State.reset with cmd := encode i }
      s.inputs = [] ∧ s.phase = .idle ∧ nextIs (step s) (fun t => decide (t = s)) = true) :=
  ⟨⟨.inl rfl, by decide +kernel, by decide, rfl, nofun, nofun⟩, by decide +kernel⟩

/-- Every operation and a reserved word, each finishing in one move; OPEN, RESET by a determined answer. -/
theorem witness_CodesPerOperation :
    (∀ n ∈ [0x1, 0x2, 0x3, 0x4, 0x9, 0x0, 0xF],
      nextIs (step { State.reset with cmd := BitVec.ofNat 32 n, busy := true, phase := .exec }) (fun t => t.phase == .idle) = true) ∧
    (∀ n ∈ [0x8, 0xA],
      nextIs (step { State.reset with
        cmd := BitVec.ofNat 32 n, busy := true, phase := .exec, transport := { Transport.free with opens := [.ok], resets := [.ok] } })
        (fun t => t.phase == .idle) = true) ∧
    State.Inv { State.reset with cmd := 0x1, busy := true, phase := .exec } :=
  ⟨by decide +kernel, by decide +kernel, inv_exec _ nofun⟩

/-- A running COMMAND, and a block that is idle after a COMMAND, whose word `cmd` keeps. -/
theorem witness_RequestsByPhase :
    (let s := { inPhase .recv State.reset with transport := { Transport.free with receives := [.pulses []] } }
     s.Inv ∧ s.BlockMoves ∧ s.phase ≠ .idle ∧ nextIs (step s) (fun t => t.requests == [.receive 444]) = true) ∧
    (let s := withInputs [.wait] { State.reset with cmd := encode .command }
     s.BlockMoves ∧ s.phase = .idle ∧ decode s.cmd = .ok .command) :=
  ⟨⟨inv_recv _, .inl rfl, by decide, by decide +kernel⟩, .inr ⟨[], rfl⟩, rfl, rfl⟩

theorem witness_FailureClearsResult :
    let s := { inPhase .recv State.reset with
      result := 7, transport := { Transport.free with receives := [.deviceError] } }
    s.BlockMoves ∧ s.phase ≠ .idle ∧
    nextIs (step s) (fun t => t.phase == .idle && t.code == .deviceError && t.result == 0) = true :=
  ⟨.inl rfl, by decide, by decide +kernel⟩

end Sys2Proof.Machine
end

section
/-! The host port's writes that change nothing: which places ignore a write (R57), and what a read and a write of such a
place do while the block is idle. -/

namespace Sys2Proof.Machine

/-- The registers with no field the host may write (R20, R57). -/
def Register.isReadOnly (r : Register) : Bool :=
  decide (r ∉ [Register.cmd, .arg0, .arg1, .decPos, .decPar, .decData])

/-- The places where a host write is without effect (R57). -/
def Place.ignoresWrite : Place → Bool
  | .register r => r.isReadOnly
  | .element b _ => decide (b = .rxd)
  | .unmapped => true

/-! ## A write of such a place -/

theorem writeRegister_of_isReadOnly {r : Register} (h : r.isReadOnly = true) (w : Word) (s : State) :
    writeRegister r w s = s := by
  cases r
  case cmd | arg0 | arg1 | decPos | decPar | decData => cases h
  all_goals rfl

theorem hostWrite_of_ignoresWrite {s : State} {i : Index} (h : (place s.params i.toNat).ignoresWrite = true) (w : Word) :
    hostWrite i w s = s := by
  unfold hostWrite
  split
  · rfl
  · split
    next r hp =>
      rw [hp] at h
      exact writeRegister_of_isReadOnly h w s
    next b k hp =>
      rw [hp] at h
      obtain rfl : b = .rxd := of_decide_eq_true h
      rfl
    next => rfl

/-- A host write in any state. -/
theorem step_write {s : State} {i : Index} {w : Word} {rest : List Input} (hi : s.inputs = .write i w :: rest) :
    step s = .next (hostWrite i w { s with inputs := rest }) := by
  simp only [step, hi]

/-! ## Which indices name such a place -/

theorem ignoresWrite_of_unmappedIndex {P : Params} (hP : P.Legal) {i : Index} (h : UnmappedIndex P i.toNat) :
    (place P i.toNat).ignoresWrite = true := by
  rw [place_unmapped P i.toNat i.isLt hP h]
  rfl

/-- The read-only registers all lie below `TXD`; the other read-only places are the elements of `RXD`. -/
theorem ignoresWrite_of_readOnlyIndex {P : Params} (hP : P.Legal) {x : Nat} (h : ReadOnlyIndex P x) :
    (place P x).ignoresWrite = true := by
  obtain hreg | ⟨hlo, hhi⟩ := h
  · have hall : ∀ y ∈ [0x01, 0x04, 0x05, 0x09, 0x0A, 0x0B, 0x0C, 0x0D, 0x0E, 0x10, 0x11, 0x12, 0x13, 0x14],
        y < bufferBase .txd ∧ (registerAt y).ignoresWrite = true := by decide
    obtain ⟨hlt, hro⟩ := hall x hreg
    rwa [place, if_pos hlt]
  · obtain ⟨k, rfl⟩ := Nat.exists_eq_add_of_le hlo
    have hk : k < bufferCap P .rxd := Nat.lt_of_add_lt_add_left hhi
    have hp : place P (0x2000 + k) = .element .rxd k := place_element P hP .rxd k hk
    rw [hp]
    rfl

/-- Settles O12: an unmapped index names nothing, so it reads 0, and neither it nor a read-only place takes a write. -/
theorem unmappedAndReadOnlyIndices : Obligations.UnmappedAndReadOnlyIndices := by
  intro s i rest hP hidle
  refine ⟨fun hun hi => ?_, fun w hplace hi => ?_⟩
  · rw [step_read_of_idle s i rest hidle hi, place_unmapped s.params i.toNat i.isLt hP hun]
    rfl
  · have hign : (place s.params i.toNat).ignoresWrite = true :=
      hplace.elim (ignoresWrite_of_unmappedIndex hP) (ignoresWrite_of_readOnlyIndex hP)
    rw [step_write hi, hostWrite_of_ignoresWrite (s := { s with inputs := rest }) hign w]

end Sys2Proof.Machine
end

section
/-! The `STATUS` word bit by bit (R81): the code below bit 8, `BUSY` in bit 8. -/

namespace Sys2Proof.Machine

theorem codeNumber_lt (c : Code) : codeNumber c < 2 ^ 4 := by cases c <;> decide

theorem statusWord_toNat (s : State) : (statusWord s).toNat = 2 ^ 8 * s.busy.toNat + codeNumber s.code := by
  have hcode := codeNumber_lt s.code
  have hbusy := s.busy.toNat_le
  rw [statusWord, BitVec.toNat_ofNat, Nat.mod_eq_of_lt (by omega), Nat.add_comm]

theorem statusWord_getLsbD (s : State) (k : Nat) :
    (statusWord s).getLsbD k = if k < 8 then (codeNumber s.code).testBit k else decide (k = 8) && s.busy := by
  have hcode : codeNumber s.code < 2 ^ 8 := (codeNumber_lt s.code).trans (by decide)
  have hk : ¬ k < 8 → (k - 8 = 0 ↔ k = 8) := by omega
  rw [BitVec.getLsbD, statusWord_toNat, Nat.testBit_two_pow_mul_add _ hcode]
  split
  next => rfl
  next h => simp only [Nat.testBit_bool_toNat, hk h]

/-- Settles O8: the code is below 2 ^ 4, so it fills bits 3 to 0 and leaves bits 7 to 4 zero under `BUSY` in bit 8. -/
theorem statusWordFields : Obligations.StatusWordFields := by
  refine ⟨fun s => ⟨?_, ?_, fun k hk hk8 => ?_⟩, fun c n hcn => ?_⟩
  · have hcode := codeNumber_lt s.code
    rw [BitVec.extractLsb'_toNat, Nat.shiftRight_zero, statusWord_toNat]
    omega
  · rw [statusWord_getLsbD]
    simp
  · rw [statusWord_getLsbD]
    split
    next =>
      have hlt : codeNumber s.code < 2 ^ k := (codeNumber_lt s.code).trans_le (Nat.pow_le_pow_right (by decide) hk)
      exact Nat.testBit_lt_two_pow hlt
    next => simp [hk8]
  · cases c <;> simpa [codeNumber, eq_comm] using hcn

end Sys2Proof.Machine
end

section
/-! The frame of a byte (R72) and its parity (R73): the marks of a list of bits are counted by the sum of the bits. -/

namespace Sys2Proof.Machine

@[simp] theorem toNat_ofBit (b : Bool) : (Polarity.ofBit b).toNat = b.toNat := by cases b <;> rfl

theorem count_mark_eq_sum (ps : List Polarity) : ps.count .mark = (ps.map Polarity.toNat).sum := by
  induction ps with
  | nil => rfl
  | cons p ps ih => cases p <;> simp [Polarity.toNat, ih, Nat.add_comm]

theorem parityBit_toNat (b : Byte) : (parityBit b).toNat = 1 - onesCount b % 2 := by
  unfold parityBit
  split <;> simp only [Polarity.toNat] <;> omega

/-- The marks among the data bits and the parity bit: the 1 bits of the byte and the parity bit itself. -/
theorem count_mark_dataAndParity (b : Byte) :
    (((frame b).drop 1).take 9).count .mark = onesCount b + (parityBit b).toNat := by
  rw [count_mark_eq_sum]
  simp [frame, onesCount, Nat.add_assoc]

/-- Settles O15: the places are read off the frame, and the parity bit makes the number of marks odd. -/
theorem frameLayout : Obligations.FrameLayout := by
  intro b
  have hdata : ∀ i, i < 8 → (frame b)[1 + i]? = some (if b.getLsbD i then .mark else .space) := by
    intro i hi
    interval_cases i <;> rfl
  refine ⟨rfl, rfl, hdata, rfl, rfl, parityBit_toNat b, ?_⟩
  rw [count_mark_dataAndParity, parityBit_toNat]
  omega

end Sys2Proof.Machine
end

section
/-! The bit count of a pulse (R77): rounding to the nearest multiple of the bit period. -/

namespace Sys2Proof.Machine

/-- Settles O18: the division of R77 bounds its quotient from both sides, and is 0 for a dividend under the divisor. -/
theorem bitCountRoundsHalfUp : Obligations.BitCountRoundsHalfUp := by
  intro P w hP
  have hpos : 0 < 2 * P.bitPeriod := Nat.mul_pos (by decide) hP.bitPeriod_pos
  refine ⟨?_, ?_, fun hshort => Nat.div_eq_of_lt (by omega)⟩
  · calc 2 * bitCount P w * P.bitPeriod = bitCount P w * (2 * P.bitPeriod) := by ring
      _ ≤ 2 * dur w + P.bitPeriod := Nat.div_mul_le_self _ _
  · calc 2 * dur w + P.bitPeriod < 2 * P.bitPeriod * (bitCount P w + 1) := Nat.lt_mul_div_succ _ hpos
      _ = 2 * (bitCount P w + 1) * P.bitPeriod := by ring

end Sys2Proof.Machine
end

section
/-! Operands outside an operation's domain (R85). -/

namespace Sys2Proof.Machine

/-- COMMAND with an empty request (R85). -/
theorem execCommand_refused {s : State} (h : lengthOperand s = 0) : execCommand s = .next (fail .refused s) := if_pos h

/-- A payload over MAX_PAYLOAD makes a packet over PKT_CAP, whatever capacity the host gives. -/
theorem pktCap_lt_of_maxPayload_lt {P : Params} {L : Nat} (h : P.maxPayload < L) : P.pktCap < 2 * L + 5 := by
  unfold Params.pktCap
  omega

/-- KENC of a packet that does not fit writes nothing (R131). -/
theorem execKenc_tooSmall {s : State} (h : kencCap s < 2 * lengthOperand s + 5) :
    execKenc s = .next (fail .bufferTooSmall s) :=
  execKenc_pack (pack_tooSmall s.mem h)

/-- Settles O41: each case is the operation's own failing branch; an overlong payload fails the capacity test of
`pack`. -/
theorem operandsOutsideTheDomain : Obligations.OperandsOutsideTheDomain := by
  intro s
  refine ⟨execKdec_refused, fun hzero => ?_, fun hlong => ⟨?_, fun op hop => ?_⟩⟩
  · have hlen : lengthOperand s = 0 := congrArg BitVec.toNat hzero
    exact execCommand_refused hlen
  · have hcap : kencCap s ≤ s.params.pktCap := Nat.min_le_right _ _
    exact execKenc_tooSmall (hcap.trans_lt (pktCap_lt_of_maxPayload_lt hlong))
  · have hne : lengthOperand s ≠ 0 := Nat.ne_zero_of_lt hlong
    exact execCommand_tooSmall hne hop (pktCap_lt_of_maxPayload_lt hlong)

end Sys2Proof.Machine
end

section
/-! The round trip of the pulse codec (R120): a sequence of bytes goes through the decoder one byte after another. -/

namespace Sys2Proof.Machine

theorem emitted_append (os us : List DecOut) : emitted (os ++ us) = emitted os ++ emitted us := by
  simp [emitted]

theorem clean_append {os us : List DecOut} (ho : clean os) (hu : clean us) : clean (os ++ us) := fun o h =>
  (List.mem_append.1 h).elim (ho o) (hu o)

/-- The pulses of a byte sequence, decoded from position 0: each byte leaves the decoder at position 0 for the next. -/
theorem decodeAll_pulsesOf {P : Params} (hP : P.Legal) (bs : List Byte) (d : Decoder) (hd : d.pos = 0) :
    (decodeAll P d (pulsesOf P bs)).1.pos = 0 ∧ emitted (decodeAll P d (pulsesOf P bs)).2 = bs ∧
      clean (decodeAll P d (pulsesOf P bs)).2 := by
  induction bs generalizing d with
  | nil => exact ⟨hd, rfl, by simp [clean, decodeAll]⟩
  | cons b bs ih =>
    obtain ⟨hpos, hbyte, hclean⟩ := decodeAll_segments hP d hd b
    obtain ⟨hpos', hbytes, hclean'⟩ := ih _ hpos
    simp only [pulsesOf_cons, decodeAll_append, emitted_append, hbyte, hbytes]
    exact ⟨hpos', rfl, clean_append hclean hclean'⟩

/-- How many segments follow the one that holds the parity bit: none when the parity bit is a mark, since the stop bit
then shares its segment, and otherwise the stop bit's own (R104). -/
def segmentsAfterParity (b : Byte) : Nat := if parityBit b = .mark then 0 else 1

/-- Of the runs of a byte exactly the one that holds the parity bit emits (R116), checked for each of the 256 bytes. -/
theorem stepRuns_frame_bv : ∀ b : Byte,
    (stepRuns Decoder.initial (runs (frame b))).2.map (·.bv) =
      List.replicate ((runs (frame b)).length - 1 - segmentsAfterParity b) false ++
        true :: List.replicate (segmentsAfterParity b) false := by
  decide +kernel

theorem index_of_true_of_replicate {m n j : Nat}
    (h : (List.replicate m false ++ true :: List.replicate n false)[j]? = some true) : j = m := by
  rw [List.getElem?_append, List.length_replicate] at h
  split at h
  next => simp [List.getElem?_replicate] at h
  next hj =>
    cases hk : j - m with
    | zero => omega
    | succ k => simp [hk, List.getElem?_replicate] at h

theorem decodeAll_segments_bv {P : Params} (hP : P.Legal) {d : Decoder} (hd : d.pos = 0) {b : Byte} {j : Nat}
    {o : DecOut} (hj : (decodeAll P d (segments P b)).2[j]? = some o) (ho : o.bv = true) :
    j = (segments P b).length - 1 - segmentsAfterParity b := by
  rw [segments, decodeAll_runSegment hP d _ (run_bounds b), stepRuns_start d hd b] at hj
  have hbv : ((stepRuns Decoder.initial (runs (frame b))).2.map (·.bv))[j]? = some true := by
    rw [List.getElem?_map, hj, Option.map_some, ho]
  rw [stepRuns_frame_bv] at hbv
  rw [segments_length]
  exact index_of_true_of_replicate hbv

/-- Settles O28: the sequence by induction on the bytes, the emitting pulse from the runs of one byte. -/
theorem pulseRoundTrip : Obligations.PulseRoundTrip := by
  intro P d hP hd
  refine ⟨fun bs => decodeAll_pulsesOf hP bs d hd, fun b j o hj ho => ?_⟩
  have hidx := decodeAll_segments_bv hP hd hj ho
  have hlen := two_le_segments_length P b
  unfold segmentsAfterParity at hidx
  split_ifs at hidx ⊢ <;> omega

end Sys2Proof.Machine
end

section
/-! The shape of an encoded byte (R106): how long its runs are, and that their polarities alternate. -/

namespace Sys2Proof.Machine

/-- Merging neighbours keeps the number of bits. -/
theorem sum_runs (ps : List Polarity) : ((runs ps).map (·.2)).sum = ps.length := by
  induction ps with
  | nil => rfl
  | cons p ps ih =>
    rw [List.length_cons, ← ih, runs]
    split
    next h => simp [h]
    next q k rest h => split <;> simp [h] <;> omega

/-- Of a sequence whose neighbours differ, the length is even exactly when its two ends differ: with two polarities
each step to the next changes to the other one. -/
theorem even_length_iff_ends_ne {p q : Polarity} {ps : List Polarity} (hc : (p :: ps).IsChain (· ≠ ·))
    (hq : (p :: ps).getLast? = some q) : (p :: ps).length % 2 = 0 ↔ p ≠ q := by
  induction ps generalizing p with
  | nil =>
    obtain rfl : p = q := by simpa using hq
    simp
  | cons r ps ih =>
    obtain ⟨hpr, hc'⟩ := List.isChain_cons_cons.1 hc
    have hih := ih hc' (by simpa [List.getLast?_cons_cons] using hq)
    have hflip : p ≠ q ↔ ¬ r ≠ q := by cases p <;> cases q <;> cases r <;> simp_all
    rw [hflip, ← hih, List.length_cons]
    omega

/-- A byte begins with a space and ends with a mark, so it has an even number of runs. -/
theorem runs_length_even (b : Byte) : (runs (frame b)).length % 2 = 0 := by
  obtain ⟨k, rest, hr⟩ := runs_head b
  have hc := chain_runs b
  have hl := last_runs b
  simp only [hr, List.map_cons] at hc hl
  have heven := (even_length_iff_ends_ne hc hl).2 (by decide)
  simpa [hr] using heven

/-- The start bit's run, for each of the 256 bytes: only 0x00 has all its data bits in it. -/
theorem firstRun_bounds : ∀ b : Byte, ∃ k ≤ 9,
    (runs (frame b)).head? = some (.space, k) ∧ 1 ≤ k ∧ (k = 9 ↔ b = 0x00) := by
  decide +kernel

/-- The stop bit's run, for each of the 256 bytes: only 0xFF has all its data bits in it. -/
theorem lastRun_bounds : ∀ b : Byte, ∃ k ≤ 10,
    (runs (frame b)).getLast? = some (.mark, k) ∧ 1 ≤ k ∧ (k = 10 ↔ b = 0xFF) := by
  decide +kernel

/-- The bytes with the fewest and with the most runs. -/
theorem runs_length_extremes : ∀ b : Byte,
    ((runs (frame b)).length = 2 ↔ b ∈ [(0x00 : Byte), 0xC0, 0xF0, 0xFC, 0xFF]) ∧
    ((runs (frame b)).length = 10 ↔ b ∈ [(0x55 : Byte), 0xAB, 0xAD, 0xB5, 0xD5]) := by
  decide +kernel

/-! ## The polarities of the pulses -/

theorem isChain_segments (P : Params) (b : Byte) : (segments P b).IsChain (fun v w => pol v ≠ pol w) := by
  simp only [segments, List.isChain_map, pol_runSegment]
  exact (List.isChain_map _).1 (chain_runs b)

theorem pol_of_mem_getLast?_segments {P : Params} {b : Byte} {w : Word} (h : w ∈ (segments P b).getLast?) :
    pol w = .mark := by
  obtain ⟨k, -, hlast, -⟩ := lastRun_bounds b
  obtain rfl : runSegment P (.mark, k) = w := by simpa [segments, hlast] using h
  exact pol_runSegment ..

theorem pol_of_mem_head?_pulsesOf {P : Params} {bs : List Byte} {w : Word} (h : w ∈ (pulsesOf P bs).head?) :
    pol w = .space := by
  cases bs with
  | nil => simp at h
  | cons b bs =>
    obtain ⟨k, rest, hr⟩ := runs_head b
    obtain rfl : runSegment P (.space, k + 1) = w := by simpa [segments, hr] using h
    exact pol_runSegment ..

/-- Where two bytes meet, the mark of the stop bit stands before the space of the start bit. -/
theorem isChain_pulsesOf (P : Params) (bs : List Byte) : (pulsesOf P bs).IsChain (fun v w => pol v ≠ pol w) := by
  induction bs with
  | nil => exact .nil
  | cons b bs ih =>
    refine List.isChain_append.2 ⟨isChain_segments P b, ih, fun v hv w hw => ?_⟩
    rw [pol_of_mem_getLast?_segments hv, pol_of_mem_head?_pulsesOf hw]
    decide

/-- Settles O16: merging keeps the 11 bits of the frame, alternation between unlike ends makes the number of runs even,
and the extreme bytes are found among all 256. -/
theorem encodedSequenceShape : Obligations.EncodedSequenceShape := by
  refine ⟨fun b => ?_, isChain_pulsesOf⟩
  obtain ⟨k, hk, hhead, hk', hk9⟩ := firstRun_bounds b
  obtain ⟨l, hl, hlast, hl', hl10⟩ := lastRun_bounds b
  obtain ⟨htwo, hten⟩ := runs_length_extremes b
  obtain ⟨hlo, hhi⟩ := runs_length b
  exact ⟨sum_runs (frame b), runs_length_even b, hlo, hhi, ⟨k, hhead, hk', hk, hk9⟩, ⟨l, hlast, hl', hl, hl10⟩, htwo,
    hten⟩

end Sys2Proof.Machine
end

section
/-! The two operations of the pulse codec at their edges: PENC without room (R101), PDEC of a pulse of no bits (R113). -/

namespace Sys2Proof.Machine

/-- Settles O20: PENC has two branches, and only the one under 12 fails. -/
theorem pencCapacityTest : Obligations.PencCapacityTest := by
  refine fun s => ⟨fun hcap => if_pos hcap, fun t ht => ?_⟩
  obtain ⟨hcap, rfl⟩ | ⟨hcap, rfl⟩ := execPenc_cases ht
  · exact iff_of_true rfl hcap
  · exact iff_of_false (by simp) (Nat.not_lt.2 hcap)

theorem bitCount_eq_zero {P : Params} {w : Word} (h : 2 * dur w < P.bitPeriod) : bitCount P w = 0 :=
  Nat.div_eq_of_lt (by omega)

/-- A pulse of no bits (R113). -/
theorem decode1_of_bitCount_zero {P : Params} {w : Word} (h : bitCount P w = 0) (d : Decoder) :
    decode1 P d w = (d, DecOut.none) := by
  rw [decode1_of_le (by omega), h]
  rfl

/-- Settles O25: under half a bit period the loop over the bits runs no times. -/
theorem zeroBitPulse : Obligations.ZeroBitPulse := by
  intro s hshort
  have hdec : decode1 s.params s.dec (pdecPulse s) = (s.dec, DecOut.none) :=
    decode1_of_bitCount_zero (bitCount_eq_zero hshort) s.dec
  show execPdec s = _
  rw [execPdec_eq, hdec]
  rfl

end Sys2Proof.Machine
end

section
/-! A long mark flushes the decoder (R121): the data bits still missing are filled with marks, the next mark is the
parity bit, the one after it the stop bit, and the rest finds the decoder idle. -/

namespace Sys2Proof.Machine

/-- A mark of 10 or more bits counts as 10 (R112). -/
theorem decode1_tenMarks {P : Params} {w : Word} (hm : pol w = .mark) (h : 10 ≤ bitCount P w) (d : Decoder) :
    decode1 P d w = ((stepBits .mark 10 (d, DecOut.none)).1, summarise (stepBits .mark 10 (d, DecOut.none)).2) := by
  obtain hlt | heq := Nat.lt_or_eq_of_le h
  · exact decode1_longMark hm hlt d
  · rw [decode1_of_le heq.ge, hm, ← heq]

@[simp] theorem summarise_fe (o : DecOut) : (summarise o).fe = o.fe := rfl

@[simp] theorem summarise_bd (o : DecOut) : (summarise o).bd = o.bd := rfl

/-- No mark is a framing error (R119). -/
theorem stepBits_mark_fe (n : Nat) (d : Decoder) : (stepBits .mark n (d, DecOut.none)).2.fe = false := by
  obtain ⟨-, hfe, -⟩ := stepBits_flags .mark n (d, DecOut.none) nofun nofun
  simpa using hfe

section
variable {p : Polarity} {d : Decoder} {o : DecOut}

/-- A data bit (R115). -/
theorem stepBit_data (h : 1 ≤ d.pos.toNat) (h' : d.pos.toNat ≤ 8) :
    stepBit p (d, o) = ({ pos := d.pos + 1, par := countMark d.par p, data := shiftIn d.data p }, o) := by
  unfold stepBit
  rw [if_neg (Nat.ne_zero_of_lt h), if_pos h']

/-- The parity bit (R116). -/
theorem stepBit_parity (h : d.pos.toNat = 9) :
    stepBit p (d, o) =
      ({ d with pos := 10, par := countMark d.par p },
        { o with bv := true, byte := d.data, pe := if (countMark d.par p).toNat % 2 = 0 then true else o.pe }) := by
  simp [stepBit, h]

/-- The stop bit as a mark (R117). -/
theorem stepBit_stopMark (h : d.pos.toNat = 10) : stepBit .mark (d, o) = ({ d with pos := 0 }, o) := by
  simp [stepBit, h]

end

theorem shiftIn_mark_toNat (b : Byte) : (shiftIn b .mark).toNat = b.toNat / 2 + 128 := by
  have := b.isLt
  simp only [shiftIn, Polarity.toNat, BitVec.toNat_ofNat]
  omega

/-- Marks as data bits: each enters the byte from the top. -/
theorem stepBits_dataMarks {m : Nat} {d : Decoder} (o : DecOut) (h : 1 ≤ d.pos.toNat) (h' : d.pos.toNat + m ≤ 9) :
    ∃ e : Decoder, stepBits .mark m (d, o) = (e, o) ∧ e.pos.toNat = d.pos.toNat + m ∧
      e.par.toNat = (d.par.toNat + m) % 16 ∧ e.data.toNat = d.data.toNat / 2 ^ m + (256 - 2 ^ (8 - m)) := by
  induction m with
  | zero => exact ⟨d, rfl, rfl, (Nat.mod_eq_of_lt d.par.isLt).symm, by simp⟩
  | succ m ih =>
    obtain ⟨e, he, hpos, hpar, hdata⟩ := ih (by omega)
    refine ⟨{ pos := e.pos + 1, par := countMark e.par .mark, data := shiftIn e.data .mark }, ?_, ?_, ?_, ?_⟩
    · rw [stepBits_add, he]
      exact stepBit_data (by omega) (by omega)
    · rw [toNat_succ4 e.pos (by omega), hpos, Nat.add_assoc]
    · rw [countMark_toNat, hpar, Nat.mod_add_mod, Nat.add_assoc]
      rfl
    · have hpow : 2 ^ (8 - m) = 2 ^ (8 - (m + 1)) * 2 := by rw [← pow_succ]; congr 1; omega
      have hle : 2 ^ (8 - (m + 1)) ≤ 2 ^ 7 := Nat.pow_le_pow_right (by decide) (by omega)
      rw [shiftIn_mark_toNat, hdata, hpow, pow_succ, ← Nat.div_div_eq_div_mul]
      omega

/-- At the stop bit a mark ends the frame, and what is left of it finds the decoder idle. -/
theorem stepBits_marks_of_stop (n : Nat) {d : Decoder} {o : DecOut} (h : d.pos.toNat = 10) :
    stepBits .mark (n + 1) (d, o) = ({ d with pos := 0 }, o) := by
  rw [stepBits, stepBit_stopMark h]
  exact stepBits_mark_idle n _ rfl

/-- From inside a frame, before its parity bit or at it, a long mark emits the byte filled up with 1 bits. -/
theorem decode1_flush_emits {P : Params} {w : Word} (hm : pol w = .mark) (hn : 10 ≤ bitCount P w) {d : Decoder}
    (h : 1 ≤ d.pos.toNat) (h' : d.pos.toNat ≤ 9) :
    (decode1 P d w).2.bv = true ∧
    (decode1 P d w).2.byte.toNat =
      d.data.toNat / 2 ^ (9 - d.pos.toNat) + (256 - 2 ^ (8 - (9 - d.pos.toNat))) ∧
    ((decode1 P d w).2.pe = true ↔ (d.par.toNat + (10 - d.pos.toNat)) % 2 = 0) := by
  obtain ⟨e, he, hpos, hpar, hdata⟩ := stepBits_dataMarks (m := 9 - d.pos.toNat) DecOut.none h (by omega)
  have hbits : stepBits .mark 10 (d, DecOut.none) =
      stepBits .mark (d.pos.toNat - 1 + 1) (stepBit .mark (e, DecOut.none)) := by
    rw [← he, show 10 = 9 - d.pos.toNat + (d.pos.toNat - 1 + 1 + 1) by omega, stepBits_add]
    rfl
  rw [decode1_tenMarks hm hn, hbits, stepBit_parity (by omega), stepBits_marks_of_stop _ rfl]
  refine ⟨rfl, hdata, ?_⟩
  simp only [summarise, DecOut.none, countMark_toNat, hpar, Polarity.toNat, ite_eq_left_iff, Bool.false_eq_true,
    imp_false]
  omega

/-- Settles O27, by the position the long mark finds: idle, inside a frame, or at the stop bit. -/
theorem longMarkFlushesTheDecoder : Obligations.LongMarkFlushesTheDecoder := by
  intro P d w hm hn hd
  refine ⟨decode1_flush hm hn d hd, ?_, ?_, fun h0 => ?_, decode1_flush_emits hm hn, fun h10 => ?_⟩
  · rw [decode1_tenMarks hm hn, summarise_fe]
    exact stepBits_mark_fe 10 d
  · rw [decode1_tenMarks hm hn, summarise_bd]
    exact stepBits_bd ..
  · rw [decode1_tenMarks hm hn, stepBits_mark_idle 10 _ h0]
    exact ⟨rfl, rfl⟩
  · rw [decode1_tenMarks hm hn, stepBits_marks_of_stop 9 h10]
    rfl

end Sys2Proof.Machine
end

section
/-! The packet codec there and back (R135): KENC leaves the packet of R74 in `PKT`, and KDEC of that packet delivers its
payload. -/

namespace Sys2Proof.Machine

/-- What lies wholly below the first element written is as before. -/
theorem readElems_writeElems_below (m : Memory) {b b' : Buffer} {i j n : Nat} (vs : List Byte)
    (h : bufferBase b' + j + n ≤ bufferBase b + i) :
    readElems (writeElems m b i vs) b' j n = readElems m b' j n := by
  refine readElems_congr fun k hk => ?_
  have hbelow : bufferBase b' + (j + k) < bufferBase b + i := by omega
  rw [readElem_writeElems, if_neg (fun hin => Nat.not_le.2 hbelow hin.1)]

/-- KENC of a payload that has values and fits leaves its packet in `PKT` (R130). -/
theorem execKenc_packetOf {s : State} {ds : List Byte} (hlen : lengthOperand s = ds.length)
    (h : readElems s.mem .txd 0 ds.length = some ds) (hcap : 2 * ds.length + 5 ≤ kencCap s)
    (hb : ds.length ≤ 0x1000) :
    execKenc s = .next (finishWith (2 * ds.length + 5) .ok
      { s with mem := writeElems s.mem .pkt 0 (packetOf ds) }) :=
  execKenc_pack (by rw [hlen]; exact pack_of_readElems h hcap hb)

/-- KDEC of a packet whose payload fits leaves the payload in `RXD` (R136). -/
theorem execKdec_packetOf {s : State} {ds : List Byte} (hlen : lengthOperand s = 2 * ds.length + 5)
    (h : readElems s.mem .pkt 0 (2 * ds.length + 5) = some (packetOf ds))
    (hpkt : 2 * ds.length + 5 ≤ s.params.pktCap) (hcap : ds.length ≤ payloadCap s) (hb : payloadCap s ≤ 0x2000) :
    execKdec s = .next (finishWith ds.length .ok { s with mem := writeElems s.mem .rxd 0 ds }) :=
  execKdec_unpack (hlen.trans_le hpkt) (by rw [hlen]; exact unpack_packetOf h hcap hb)

/-- Settles O35: KENC writes the packet of the payload, KDEC accepts that packet, and neither writes below `RXD`. -/
theorem packetRoundTrip : Obligations.PacketRoundTrip := by
  intro s ds hP hfit htxd
  have hmax : s.params.maxPayload ≤ 1024 := hP.maxPayload_le
  have hpkt : 2 * ds.length + 5 ≤ s.params.pktCap := by unfold Params.pktCap; omega
  have hword {n : Nat} (hn : n ≤ 2053) : (BitVec.ofNat 32 n).toNat = n :=
    (BitVec.toNat_ofNat n 32).trans (Nat.mod_eq_of_lt (by omega))
  have hpayloadLen : (BitVec.ofNat 32 ds.length).toNat = ds.length := hword (by omega)
  have hpacketLen : (BitVec.ofNat 32 (2 * ds.length + 5)).toNat = 2 * ds.length + 5 := hword (by omega)
  have hkencCap : 2 * ds.length + 5 ≤ min (BitVec.ofNat 32 s.params.pktCap).toNat s.params.pktCap := by
    rwa [hword (pktCap_le hP), Nat.min_self]
  have hkdecCap : ds.length ≤ min (BitVec.ofNat 32 s.params.maxPayload).toNat s.params.maxPayload := by
    rwa [hword (by omega), Nat.min_self]
  have hpacket : readElems (writeElems s.mem .pkt 0 (packetOf ds)) .pkt 0 (2 * ds.length + 5) = some (packetOf ds) := by
    rw [← packetOf_length, readElems_writeElems_same]
  refine ⟨_, _, execKenc_packetOf hpayloadLen htxd hkencCap (by omega),
    execKdec_packetOf hpacketLen hpacket hpkt hkdecCap ((Nat.min_le_right _ _).trans (hmax.trans (by decide))),
    rfl, hpayloadLen, readElems_writeElems_same .., ?_⟩
  have hpktAbove : bufferBase .txd + 0 + ds.length ≤ bufferBase .pkt + 0 := by simp only [bufferBase]; omega
  have hrxdAbove : bufferBase .txd + 0 + ds.length ≤ bufferBase .rxd + 0 := by simp only [bufferBase]; omega
  simp only [finishWith_mem, readElems_writeElems_below _ _ hrxdAbove, readElems_writeElems_below _ _ hpktAbove, htxd]

end Sys2Proof.Machine
end

section
/-! The tests of the packet codec before anything is written: the capacity test of KENC (R131) and the length tests of
KDEC (R137). -/

namespace Sys2Proof.Machine

/-! ## KENC -/

/-- The code of `pack` says whether the packet fits. -/
theorem pack_code {L cap : Nat} {m m' : Memory} {c : Code} {n : Nat} (h : pack L cap m = some (m', c, n)) :
    c = if cap < 2 * L + 5 then .bufferTooSmall else .ok := by
  unfold pack at h
  split at h
  · next hc => cases h; exact (if_pos hc).symm
  · next hc =>
    split at h
    · cases h
    · cases h; exact (if_neg hc).symm

/-- Settles O30: a packet over the capacity fails before the first write, every other one that ends does so with `Ok`. -/
theorem kencCapacityTest : Obligations.KencCapacityTest := by
  intro s
  refine ⟨execKenc_tooSmall, fun hlong => ?_, fun t ht => ?_⟩
  · have hcap : kencCap s ≤ s.params.pktCap := Nat.min_le_right _ _
    exact execKenc_tooSmall (hcap.trans_lt (pktCap_lt_of_maxPayload_lt hlong))
  · obtain ⟨m, c, n, hp, rfl⟩ := execKenc_cases ht
    rw [finishWith_code, pack_code hp]
    rcases Nat.lt_or_ge (kencCap s) (2 * lengthOperand s + 5) with hover | hfits
    · rw [if_pos hover]
      exact ⟨iff_of_true rfl hover, iff_of_false (by decide) (Nat.not_le.2 hover)⟩
    · rw [if_neg (Nat.not_lt.2 hfits)]
      exact ⟨iff_of_false (by decide) (Nat.not_lt.2 hfits), iff_of_true rfl hfits⟩

/-! ## KDEC -/

/-- `unpack` of a packet whose payload does not fit touches nothing (R137). -/
theorem unpack_tooSmall {len cap : Nat} (m : Memory) (h5 : 5 ≤ len) (hcap : cap < (len - 5) / 2) :
    unpack len cap m = some (m, .bufferTooSmall, 0) :=
  if_pos ⟨h5, hcap⟩

/-- `unpack` of a length that no packet has touches nothing, the capacity sufficing (R137). -/
theorem unpack_badLength {len cap : Nat} (m : Memory) (hcap : (len - 5) / 2 ≤ cap)
    (hshape : len < 5 ∨ (len - 5) % 2 = 1) : unpack len cap m = some (m, .notAPacket, 0) := by
  have hfits : ¬ (5 ≤ len ∧ cap < (len - 5) / 2) := fun h => Nat.not_lt.2 hcap h.2
  rw [unpack, if_neg hfits, if_pos hshape]

/-- Settles O33: each test is a branch of `unpack` that answers before its first read. -/
theorem kdecLengthTests : Obligations.KdecLengthTests := by
  intro s hlen
  refine ⟨fun h5 hcap => ?_, fun hshort => ?_, fun hodd hcap => ?_⟩
  · exact execKdec_unpack hlen (unpack_tooSmall s.mem h5 hcap)
  · have hcap : (s.arg0.toNat - 5) / 2 ≤ payloadCap s := by omega
    exact execKdec_unpack hlen (unpack_badLength s.mem hcap (.inl hshort))
  · exact execKdec_unpack hlen (unpack_badLength s.mem hcap (.inr hodd))

end Sys2Proof.Machine
end

section
/-! The two phases of COMMAND that read the reply: `DEC_PLS` decodes the burst (R166, R167), `DEC_PKT` unpacks the packet
(R168). -/

namespace Sys2Proof.Machine

/-- When it is the block's move in a later phase of COMMAND, the step is that phase. -/
theorem step_later {s : State} (hmove : s.BlockMoves) (hphase : startsOperation s.phase = false) :
    step s = continueCommand s.popInput := by
  rw [step_of_blockMoves hmove]
  exact blockStep_later hphase

theorem step_decPls {s : State} (hmove : s.BlockMoves) (hphase : s.phase = .decPls) :
    step s = phaseDecPls s.popInput := by
  rw [step_later hmove (by rw [hphase]; rfl), continueCommand, State.popInput_phase, hphase]

theorem step_decPkt {s : State} (hmove : s.BlockMoves) (hphase : s.phase = .decPkt) :
    step s = phaseDecPkt s.popInput := by
  rw [step_later hmove (by rw [hphase]; rfl), continueCommand, State.popInput_phase, hphase]

/-! ## The burst -/

/-- An error is on record exactly when one of its four flags is set (R167). -/
theorem errorRecorded_iff (e : TxnErr) :
    errorRecorded e = true ↔ e.pe = true ∨ e.fe = true ∨ e.bd = true ∨ e.ov = true := by
  simp only [errorRecorded, Bool.or_eq_true, or_assoc]

section

variable {ws : List Word} {os : List DecOut} {d : Decoder} {s u : State}

/-- After a burst the decoder is that of `decodeAll`; the other fields that have moved are the four of R166. -/
theorem eq_of_foldl_decodeIntoPacket (hdec : decodeAll s.params s.dec ws = (d, os))
    (hu : ws.foldl decodeIntoPacket s = u) :
    u = { s with dec := d, decOut := u.decOut, txnErr := u.txnErr, rxBytes := u.rxBytes, mem := u.mem } := by
  have h := foldl_decodeIntoPacket_eq ws s
  obtain ⟨-, hd, -⟩ := foldl_decodeIntoPacket_fields ws s
  rwa [hd, hdec, hu] at h

/-- After a burst `DEC_OUT` holds the outcome of its last pulse (R24). -/
theorem getLast?_of_decodeAll (hne : ws ≠ []) (hdec : decodeAll s.params s.dec ws = (d, os))
    (hu : ws.foldl decodeIntoPacket s = u) : os.getLast? = some u.decOut := by
  have hlen := decodeAll_length s.params s.dec ws
  have hout := foldl_decodeIntoPacket_decOut ws s
  rw [hdec] at hlen hout
  have hos : os ≠ [] := List.ne_nil_of_length_pos (hlen ▸ List.length_pos_iff.2 hne)
  have hlast := List.getLast?_eq_some_getLast hos
  rw [hlast, ← hu, hout _ hlast]

/-- A burst that starts with a clear record and an empty `PKT`: the record says exactly which errors its pulses flagged
and whether `PKT` was too short, and `PKT` holds what fits of the emitted bytes (R25, R166). -/
theorem foldl_decodeIntoPacket_fresh (hcap : s.params.pktCap < 65536) (herr : s.txnErr = TxnErr.clear)
    (hempty : s.rxBytes = 0) (hdec : decodeAll s.params s.dec ws = (d, os)) (hu : ws.foldl decodeIntoPacket s = u) :
    (u.txnErr.pe = true ↔ ∃ o ∈ os, o.pe = true) ∧ (u.txnErr.fe = true ↔ ∃ o ∈ os, o.fe = true) ∧
    (u.txnErr.bd = true ↔ ∃ o ∈ os, o.bd = true) ∧
    (u.txnErr.ov = true ↔ s.params.pktCap < (emitted os).length) ∧
    u.rxBytes.toNat = min (emitted os).length s.params.pktCap ∧
    u.mem = writeElems s.mem .pkt 0 ((emitted os).take s.params.pktCap) := by
  have h := foldl_decodeIntoPacket_result ws s hcap (by rw [hempty]; exact Nat.zero_le _)
  rw [hu, hdec, herr, hempty] at h
  obtain ⟨hpe, hfe, hbd, hov, hbytes, hmem⟩ := h
  rw [hpe, hfe, hbd, hov, hbytes, hmem]
  simp [TxnErr.clear]

end

/-- Settles O47: the burst is `decodeAll` from a clear record and an empty `PKT`; the phase then ends the COMMAND or goes
on, by what is on record, and changes nothing more. -/
theorem commandDecodesTheBurst : Obligations.CommandDecodesTheBurst := by
  intro s ws os d hP hmove hphase herr hws hdec
  obtain ⟨u, hu⟩ : ∃ u, ws.foldl decodeIntoPacket { s.popInput with rxBytes := 0 } = u := ⟨_, rfl⟩
  have hcap : s.params.pktCap < 65536 := (pktCap_le hP).trans_lt (by decide)
  have hne : ws ≠ [] := List.ne_nil_of_length_pos (by rw [((readPulses_eq_some_iff ..).1 hws).1]; omega)
  have hstate := eq_of_foldl_decodeIntoPacket (s := { s.popInput with rxBytes := 0 }) hdec hu
  have hlast := getLast?_of_decodeAll (s := { s.popInput with rxBytes := 0 }) hne hdec hu
  obtain ⟨hpe, hfe, hbd, hov, hbytes, hmem⟩ :=
    foldl_decodeIntoPacket_fresh (s := { s.popInput with rxBytes := 0 }) hcap herr rfl hdec hu
  have hworst : u.txnErr.worst = worst u.txnErr.pe u.txnErr.fe u.txnErr.bd := by
    rw [← hu]
    exact foldl_decodeIntoPacket_worst ws _ (by rw [State.popInput_txnErr, herr]; rfl)
  have hlen : ((emitted os).take s.params.pktCap).length = u.rxBytes.toNat := by
    rw [List.length_take, hbytes, Nat.min_comm]
    rfl
  have hread : readElems u.mem .pkt 0 u.rxBytes.toNat = some ((emitted os).take s.params.pktCap) := by
    rw [hmem, ← hlen]
    exact readElems_writeElems_same ..
  have hframe : ∀ a, Outside .pkt 0 u.rxBytes.toNat a → readByte u.mem a = readByte s.mem a := fun a ha => by
    rw [hmem]
    exact readByte_writeElems_outside ha hlen.le
  have hstep := (step_decPls hmove hphase).trans (phaseDecPls_decodes hws hu)
  by_cases hrec : errorRecorded u.txnErr = true
  · refine ⟨fail .recvError u, hstep.trans (if_pos hrec), by rw [hstate]; rfl, hlast, hpe, hfe, hbd, hov, hworst,
      hbytes, hread, hframe, fun _ => ⟨rfl, rfl, rfl, rfl⟩, fun hclear => ?_⟩
    have hnone : errorRecorded u.txnErr = false := congrArg errorRecorded hclear
    exact absurd hrec (by rw [hnone]; decide)
  · refine ⟨{ u with phase := .decPkt }, hstep.trans (if_neg hrec), by rw [hstate]; rfl, hlast, hpe, hfe, hbd, hov,
      hworst, hbytes, hread, hframe, fun hflag => absurd ((errorRecorded_iff _).2 hflag) hrec, fun _ => ?_⟩
    rw [hstate]
    exact ⟨rfl, rfl, rfl, rfl⟩

/-! ## The reply -/

/-- `unpack` accepts exactly the packets of R74 whose payload fits (R136). -/
theorem unpack_ok_iff {len cap : Nat} {m m' : Memory} {c : Code} {k : Nat} {ps : List Byte}
    (hps : readElems m .pkt 0 len = some ps) (hcap : cap ≤ 0x2000) (h : unpack len cap m = some (m', c, k)) :
    c = .ok ↔ ∃ ds, ps = packetOf ds ∧ ds.length ≤ cap := by
  constructor
  · rintro rfl
    obtain ⟨hc, -⟩ | ⟨hc, -⟩ | ⟨-, -, hk, ds, rfl, hds, -⟩ := unpack_cases h hcap
    · cases hc
    · cases hc
    · exact ⟨ds, Option.some.inj (hps.symm.trans hds), hk⟩
  · rintro ⟨ds, rfl, hds⟩
    obtain rfl : 2 * ds.length + 5 = len := (packetOf_length ds).symm.trans (readElems_length hps)
    rw [unpack_packetOf hps hds hcap] at h
    cases h
    rfl

/-- Settles O48: `unpack` writes what `delivered` says, and goes on exactly when it accepts a packet that fits. -/
theorem commandUnpacksTheReply : Obligations.CommandUnpacksTheReply := by
  intro s ps hP hmove hphase _ hps
  have hcap : min s.arg1.toNat s.params.maxPayload ≤ 0x2000 :=
    (Nat.min_le_right ..).trans (hP.maxPayload_le.trans (by decide))
  obtain ⟨c, k, hunpack⟩ := unpack_delivered hps hcap
  have hok := unpack_ok_iff hps hcap hunpack
  have hstep := (step_decPkt hmove hphase).trans (phaseDecPkt_unpacks hunpack)
  have hrxd {ds : List Byte} (hds : ds = delivered (min s.arg1.toNat s.params.maxPayload) ps) :
      readElems (writeElems s.mem .rxd 0 (delivered (min s.arg1.toNat s.params.maxPayload) ps)) .rxd 0 ds.length =
        some ds ∧
      ∀ a, Outside .rxd 0 ds.length a →
        readByte (writeElems s.mem .rxd 0 (delivered (min s.arg1.toNat s.params.maxPayload) ps)) a =
          readByte s.mem a := by
    rw [← hds]
    exact ⟨readElems_writeElems_same .., fun a ha => readByte_writeElems_outside ha le_rfl⟩
  by_cases hc : c = .ok
  · refine ⟨_, hstep.trans (if_pos hc), ?_, fun hnone => ?_, fun ds hds => hrxd hds⟩
    · rintro ds rfl harg hmax
      exact ⟨rfl, hrxd (delivered_packetOf (Nat.le_min.2 ⟨harg, hmax⟩)).symm⟩
    · obtain ⟨ds, hpacket, hfits⟩ := hok.1 hc
      exact absurd hfits (Nat.not_le.2 (hnone ds hpacket))
  · refine ⟨_, hstep.trans (if_neg hc), ?_, fun _ => rfl, fun ds hds => hrxd hds⟩
    rintro ds hpacket harg hmax
    exact absurd (hok.2 ⟨ds, hpacket, Nat.le_min.2 ⟨harg, hmax⟩⟩) hc

end Sys2Proof.Machine
end

section
/-! Soundness is kept (R23 to R26, R28, R53, R186): by the host port, by a hardware reset, and by every move of the
block, one lemma per operation and per phase of COMMAND. -/

namespace Sys2Proof.Machine

theorem payloadCap_le {s : State} (hP : s.params.Legal) : payloadCap s ≤ 0x2000 :=
  (Nat.min_le_right ..).trans (hP.maxPayload_le.trans (by decide))

/-! ## Reset and the host port -/

/-- A hardware reset gives a sound state, whatever it interrupts (R210, R211). -/
theorem hardwareReset_inv {s : State} (hP : s.params.Legal) : (hardwareReset s).Inv where
  params_legal := hP
  mem_wf := rfl
  mem_mapped := nofun
  dec_pos := Nat.zero_le _
  busy_phase := by simp
  busy_code := fun _ => rfl
  code_kind := by simp
  dec_out_kind := rfl
  dec_out_byte := fun _ => rfl
  txn_err_worst := rfl
  command_phase := trivial
  command_ready := trivial

/-- Settles O54: the reset state is what a hardware reset makes of itself. -/
theorem resetIsSound : Obligations.ResetIsSound := fun P hP =>
  hardwareReset_inv (s := State.resetWith P) hP

/-- What the host may write while the block is idle keeps a sound state sound. -/
theorem State.Inv.hostWritten {s : State} (h : s.Inv) (hidle : s.phase = .idle) (a0 a1 : Word) {d : Decoder} {m : Memory}
    (hd : d.pos.toNat ≤ 10) (hwf : Memory.wf m = true) (hm : Mapped s.params m) :
    State.Inv { s with arg0 := a0, arg1 := a1, dec := d, mem := m } where
  params_legal := h.params_legal
  mem_wf := hwf
  mem_mapped := hm
  dec_pos := hd
  busy_phase := h.busy_phase
  busy_code := h.busy_code
  code_kind := h.code_kind
  dec_out_kind := h.dec_out_kind
  dec_out_byte := h.dec_out_byte
  txn_err_worst := h.txn_err_worst
  command_phase := by simp only [State.CommandPhase, hidle]
  command_ready := by simp only [State.CommandReady, hidle]

/-- In the phases 1 to 8 the phase says that COMMAND runs (R23). -/
theorem commandPhase_iff {s : State} (hidle : s.phase ≠ .idle) (hexec : s.phase ≠ .exec) :
    s.CommandPhase ↔ decode s.cmd = .ok .command := by
  unfold State.CommandPhase
  split <;> simp_all

/-- The first phase fits the command word (R26). -/
theorem firstPhase_cases (c : Word) :
    (firstPhase c = .encPkt ∧ decode c = .ok .command) ∨ (firstPhase c = .exec ∧ decode c ≠ .ok .command) := by
  unfold firstPhase
  split
  next h => exact .inl ⟨rfl, h⟩
  next h => exact .inr ⟨rfl, h⟩

/-- A `CMD` write keeps a sound state sound (R26). -/
theorem State.Inv.started {s : State} (h : s.Inv) (c : Word) : (startOperation c s).Inv where
  params_legal := h.params_legal
  mem_wf := h.mem_wf
  mem_mapped := h.mem_mapped
  dec_pos := h.dec_pos
  busy_phase := by
    obtain ⟨hp, -⟩ | ⟨hp, -⟩ := firstPhase_cases c <;> simp [hp]
  busy_code := fun _ => rfl
  code_kind := by simp
  dec_out_kind := h.dec_out_kind
  dec_out_byte := h.dec_out_byte
  txn_err_worst := h.txn_err_worst
  command_phase := by
    obtain ⟨hp, hd⟩ | ⟨hp, hd⟩ := firstPhase_cases c <;> simpa [State.CommandPhase, hp] using hd
  command_ready := by
    obtain ⟨hp, -⟩ | ⟨hp, -⟩ := firstPhase_cases c <;> simp [State.CommandReady, hp]

theorem writeRegister_inv {s : State} (h : s.Inv) (hidle : s.phase = .idle) (r : Register) (w : Word) :
    (writeRegister r w s).Inv := by
  have hkeep := @State.Inv.hostWritten s h hidle
  cases r with
  | cmd => exact h.started w
  | arg0 => exact hkeep w s.arg1 h.dec_pos h.mem_wf h.mem_mapped
  | arg1 => exact hkeep s.arg0 w h.dec_pos h.mem_wf h.mem_mapped
  | decPos =>
    rw [writeRegister]
    split
    next hw =>
      have hpos : (w.setWidth 4).toNat ≤ 10 := by rwa [BitVec.toNat_setWidth]
      exact hkeep s.arg0 s.arg1 (d := { s.dec with pos := w.setWidth 4 }) hpos h.mem_wf h.mem_mapped
    next => exact h
  | decPar =>
    exact hkeep s.arg0 s.arg1 (d := { s.dec with par := w.setWidth 4 }) h.dec_pos h.mem_wf h.mem_mapped
  | decData =>
    exact hkeep s.arg0 s.arg1 (d := { s.dec with data := w.setWidth 8 }) h.dec_pos h.mem_wf h.mem_mapped
  | _ => exact h

theorem writeElement_inv {s : State} (h : s.Inv) (hidle : s.phase = .idle) {b : Buffer} {i : Nat}
    (hi : i < bufferCap s.params b) (w : Word) : (writeElement b i w s).Inv := by
  have hkeep := @State.Inv.hostWritten s h hidle s.arg0 s.arg1 s.dec
  cases b with
  | txd => exact hkeep h.dec_pos (wf_writeElem _ _ _ _ h.mem_wf) (h.mem_mapped.writeElem _ hi)
  | rxd => exact h
  | pkt => exact hkeep h.dec_pos (wf_writeElem _ _ _ _ h.mem_wf) (h.mem_mapped.writeElem _ hi)
  | pls => exact hkeep h.dec_pos (wf_writePulse _ _ _ h.mem_wf) (h.mem_mapped.writePulse _ hi)

theorem State.Inv.idle {s : State} (h : s.Inv) (hb : s.busy = false) : s.phase = .idle :=
  not_not.1 fun hne => by simp [h.busy_phase.2 hne] at hb

/-- A host write keeps a sound state sound (R57, R58). -/
theorem hostWrite_inv {s : State} (h : s.Inv) (i : Index) (w : Word) : (hostWrite i w s).Inv := by
  unfold hostWrite
  split
  next => exact h
  next hb =>
    have hidle := h.idle (Bool.eq_false_iff.2 hb)
    split
    next r _ => exact writeRegister_inv h hidle r w
    next b k hplace => exact writeElement_inv h hidle (lt_of_place_element hplace) w
    next => exact h

/-- A host read keeps a sound state sound. -/
theorem hostRead_inv {s t : State} (h : s.Inv) {i : Index} (ht : hostRead i s = .next t) : t.Inv := by
  unfold hostRead at ht
  split at ht
  next => cases ht; exact h.port s.inputs _ _
  next =>
    obtain ⟨w, -, rfl⟩ := Option.map_eq_some_iff.1 (orUnwritten_eq_next.1 ht)
    exact h.port s.inputs w s.draws

/-! ## What the packet codec writes -/

/-- `pack` writes nothing but bytes of `PKT`, within the capacity. -/
theorem pack_writes {L cap : Nat} {m m' : Memory} {c : Code} {n : Nat} (h : pack L cap m = some (m', c, n))
    (hcap : cap ≤ 0x1000) : ∃ ps, ps.length ≤ cap ∧ m' = writeElems m .pkt 0 ps := by
  obtain ⟨-, rfl, -⟩ | ⟨hfits, -, -, ds, hds, rfl⟩ := pack_cases h hcap
  · exact ⟨[], Nat.zero_le _, rfl⟩
  · exact ⟨packetOf ds, by rwa [packetOf_length, readElems_length hds], rfl⟩

/-- `unpack` writes nothing but bytes of `RXD`, within the capacity. -/
theorem unpack_writes {len cap : Nat} {m m' : Memory} {c : Code} {k : Nat} (h : unpack len cap m = some (m', c, k))
    (hcap : cap ≤ 0x2000) : ∃ ds, ds.length ≤ cap ∧ m' = writeElems m .rxd 0 ds := by
  obtain ⟨-, -, rfl, -⟩ | ⟨-, -, ds, -, hds, rfl⟩ | ⟨-, -, hk, ds, rfl, -, rfl⟩ := unpack_cases h hcap
  · exact ⟨[], Nat.zero_le _, rfl⟩
  · exact ⟨ds, hds, rfl⟩
  · exact ⟨ds, hk, rfl⟩

section
variable {s t : State} {m : Memory} {c : Code} {n : Nat}

theorem State.Inv.pack_mem {cap : Nat} (h : s.Inv) (hp : pack (lengthOperand s) cap s.mem = some (m, c, n))
    (hcap : cap ≤ s.params.pktCap) : Memory.wf m = true ∧ Mapped s.params m := by
  have hpkt := pktCap_le h.params_legal
  obtain ⟨ps, hps, rfl⟩ := pack_writes hp (by omega)
  have hfits : 0 + ps.length ≤ s.params.pktCap := by omega
  exact ⟨wf_writeElems _ _ _ _ h.mem_wf, h.mem_mapped.writeElems (b := .pkt) ps hfits⟩

theorem State.Inv.unpack_mem {len : Nat} (h : s.Inv) (hu : unpack len (payloadCap s) s.mem = some (m, c, n)) :
    Memory.wf m = true ∧ Mapped s.params m := by
  obtain ⟨ds, hds, rfl⟩ := unpack_writes hu (payloadCap_le h.params_legal)
  have hfits : 0 + ds.length ≤ s.params.maxPayload := by
    rw [Nat.zero_add]
    exact hds.trans (Nat.min_le_right ..)
  exact ⟨wf_writeElems _ _ _ _ h.mem_wf, h.mem_mapped.writeElems (b := .rxd) ds hfits⟩

/-! ## The operations -/

/-- Finishing with codes other than 2, 3 and 4, memory alone changed. -/
theorem State.Inv.finished_mem (h : s.Inv) (n : Nat) (hc : c ∉ [Code.breakDetected, .framingError, .parityError])
    (hm : Memory.wf m = true ∧ Mapped s.params m) : (finishWith n c { s with mem := m }).Inv :=
  h.finished_of_eq n c rfl hm.1 hm.2 (by simpa using hc) rfl rfl rfl

/-- Failing, nothing written. -/
theorem State.Inv.failed (h : s.Inv) (hc : c ∉ [Code.breakDetected, .framingError, .parityError]) : (fail c s).Inv :=
  h.finished_mem 0 hc ⟨h.mem_wf, h.mem_mapped⟩

/-- Failing after a request, nothing else written. -/
theorem State.Inv.failed_request (h : s.Inv) (hc : c ∉ [Code.breakDetected, .framingError, .parityError])
    (tr : Transport) (rs : List Request) (d : Nat) :
    (fail c { s with transport := tr, requests := rs, draws := d }).Inv :=
  h.finished_of_eq 0 c rfl h.mem_wf h.mem_mapped (by simpa using hc) rfl rfl rfl

theorem execPenc_inv (h : s.Inv) (ht : execPenc s = .next t) : t.Inv := by
  obtain ⟨-, rfl⟩ | ⟨hcap, rfl⟩ := execPenc_cases ht
  · exact h.failed (by decide)
  · have hlen := segments_length_le s.params (pencByte s)
    have hroom : 12 ≤ s.params.plsCap := hcap.trans (Nat.min_le_right ..)
    exact h.finished_mem _ (by decide)
      ⟨wf_writePulses _ _ _ h.mem_wf, h.mem_mapped.writePulses _ (by omega)⟩

theorem execPdec_inv (h : s.Inv) (ht : execPdec s = .next t) : t.Inv := by
  cases ht
  exact h.finished _ _ rfl h.mem_wf h.mem_mapped (decode1_pos_le _ _ _ h.dec_pos) (by decide) (decode1_kind ..)
    (decode1_byte _ _ _) h.txn_err_worst

theorem execKenc_inv (h : s.Inv) (ht : execKenc s = .next t) : t.Inv := by
  obtain ⟨m, c, n, hp, rfl⟩ := execKenc_cases ht
  refine h.finished_mem n ?_ (h.pack_mem hp (Nat.min_le_right ..))
  rw [pack_code hp]
  split <;> decide

theorem execKdec_inv (h : s.Inv) (ht : execKdec s = .next t) : t.Inv := by
  obtain ⟨-, rfl⟩ | ⟨-, m, c, k, hu, rfl⟩ := execKdec_cases ht
  · exact h.failed (by decide)
  · refine h.finished_mem k ?_ (h.unpack_mem hu)
    obtain ⟨rfl, -⟩ | ⟨rfl, -⟩ | ⟨rfl, -⟩ := unpack_cases hu (payloadCap_le h.params_legal) <;> decide

/-- `ENC_PKT` starts with a clear record and leaves the packet to be encoded (R161). -/
theorem execCommand_inv (h : s.Inv) (hphase : startsOperation s.phase = true) (hcmd : decode s.cmd = .ok .command)
    (ht : execCommand s = .next t) : t.Inv := by
  have hpkt := pktCap_le h.params_legal
  obtain ⟨-, rfl⟩ | ⟨op, m, c, n, -, -, hp, hend⟩ := execCommand_cases ht
  · exact h.failed (by decide)
  · obtain ⟨hwf, hm⟩ := h.pack_mem hp le_rfl
    obtain ⟨rfl, rfl⟩ | ⟨hc, rfl⟩ := hend
    · obtain ⟨-, -, hbad, -⟩ | ⟨hfits, -, -, ds, hds, rfl⟩ := pack_cases hp (by omega)
      · cases hbad
      · have hlen : 2 * lengthOperand s + 5 = (packetOf ds).length := by
          rw [packetOf_length, readElems_length hds]
        have hready : Written (writeElems s.mem .pkt 0 (packetOf ds)) .pkt 0
            (2 * lengthOperand s + Config.pktOverhead) :=
          ⟨packetOf ds, by rw [Config.pktOverhead, hlen, readElems_writeElems_same]⟩
        exact h.goOn rfl hwf hm h.dec_pos nofun (by rintro hidle; simp [hidle, startsOperation] at hphase) rfl rfl
          h.dec_out_kind h.dec_out_byte rfl hcmd ⟨rfl, rfl, hfits, hready⟩
    · refine h.finished 0 c rfl hwf hm h.dec_pos ?_ h.dec_out_kind h.dec_out_byte rfl
      rw [pack_code hp]
      split <;> decide

theorem exec_inv {i : Instr} (h : s.Inv) (hphase : startsOperation s.phase = true) (hcmd : decode s.cmd = .ok i)
    (ht : exec i s = .next t) : t.Inv := by
  cases i with
  | penc => exact execPenc_inv h ht
  | pdec => exact execPdec_inv h ht
  | kenc => exact execKenc_inv h ht
  | kdec => exact execKdec_inv h ht
  | openLink =>
    obtain ⟨a, tr, d, he⟩ := execOpen_cases s
    cases he.symm.trans ht
    exact h.failed_request (by cases a <;> decide) ..
  | closeLink =>
    rw [exec, execClose_eq] at ht
    cases ht
    exact h.failed_request (by decide) s.transport _ s.draws
  | resetLink =>
    obtain ⟨a, tr, d, he⟩ := execReset_cases s
    cases he.symm.trans ht
    exact h.failed_request (by cases a <;> decide) ..
  | command => exact execCommand_inv h hphase hcmd ht

/-! ## The later phases of COMMAND -/

/-- A later phase of COMMAND that goes on: the decoder registers as before, the error record still clear. -/
theorem State.Inv.nextPhase {u : State} (h : s.Inv) (hsp : s.phase ≠ .idle ∧ s.phase ≠ .exec)
    (hup : u.phase ≠ .idle ∧ u.phase ≠ .exec)
    (hu : u.params = s.params ∧ u.dec = s.dec ∧ u.decOut = s.decOut ∧ u.busy = s.busy ∧ u.code = s.code ∧
      u.cmd = s.cmd ∧ u.txnErr = s.txnErr)
    (hwf : Memory.wf u.mem = true) (hm : Mapped s.params u.mem) (hready : u.CommandReady) : u.Inv := by
  obtain ⟨hparams, hdec, hout, hbusy, hcode, hcmd, herr⟩ := hu
  have hrun := (commandPhase_iff hsp.1 hsp.2).1 h.command_phase
  exact h.goOn hparams hwf hm (hdec ▸ h.dec_pos) hup.1 hsp.1 hbusy hcode (hout ▸ h.dec_out_kind)
    (hout ▸ h.dec_out_byte) (herr ▸ h.txn_err_worst) ((commandPhase_iff hup.1 hup.2).2 (hcmd ▸ hrun)) hready

/-- The pulses of a packet of legal parameters fit (R162). -/
theorem encodeBytes_packet {P : Params} (hP : P.Legal) {n : Nat} {m : Memory} {bs : List Byte} (hn : n ≤ P.pktCap)
    (h : readElems m .pkt 0 n = some bs) :
    encodeBytes P n 0 0 m = some (writePulses m 0 (pulsesOf P bs), .ok, (pulsesOf P bs).length) ∧
      (pulsesOf P bs).length < P.plsCap ∧ (pulsesOf P bs).length < 65536 := by
  have hcap := hP.plsCap_ge
  have hcap' := hP.plsCap_le
  have hpkt := pktCap_le hP
  have hlen := pulsesOf_length_le P bs
  rw [readElems_length h] at hlen
  refine ⟨?_, by omega, by omega⟩
  rw [encodeBytes_of_readElems h (by omega) (by omega), Nat.zero_add]

theorem phaseEncPls_inv (h : s.Inv) (hphase : s.phase = .encPls) (ht : phaseEncPls s = .next t) : t.Inv := by
  have hready := h.command_ready
  simp only [State.CommandReady, hphase] at hready
  obtain ⟨herr, hrx, hfits, bs, hbs⟩ := hready
  obtain ⟨henc, hlen, hlen'⟩ := encodeBytes_packet h.params_legal hfits hbs
  cases (phaseEncPls_encodes henc).symm.trans ht
  have hcount := count16_toNat hlen'
  refine h.nextPhase (by simp [hphase]) (by simp) ⟨rfl, rfl, rfl, rfl, rfl, rfl, rfl⟩ (wf_writePulses _ _ _ h.mem_wf)
    (h.mem_mapped.writePulses _ (by omega)) ⟨herr, hrx, ?_, pulsesOf s.params bs, ?_⟩
  · rwa [hcount]
  · rw [hcount, readPulses_writePulses_same]

theorem phaseSend_inv (h : s.Inv) (hphase : s.phase = .send) (ht : phaseSend s = .next t) : t.Inv := by
  have hready := h.command_ready
  simp only [State.CommandReady, hphase] at hready
  obtain ⟨herr, hrx, htx, -⟩ := hready
  have hcap := h.params_legal.plsCap_ge
  obtain ⟨ws, a, tr, d, -, ⟨-, rfl⟩ | ⟨-, rfl⟩⟩ := phaseSend_cases ht
  · refine h.nextPhase (by simp [hphase]) (by simp) ⟨rfl, rfl, rfl, rfl, rfl, rfl, rfl⟩ h.mem_wf h.mem_mapped
      ⟨herr, ?_, ?_⟩
    · simp only [hrx, BitVec.ofNat_eq_ofNat, BitVec.toNat_ofNat, Nat.zero_mod, Params.pktCap] at hcap ⊢
      omega
    · simp only [hrx]
      exact ⟨[], rfl⟩
  · exact h.failed_request (by cases a <;> decide) ..

/-- Received pulses that leave the last entry free keep the phase `RECV` sound (R164). -/
theorem takePulses_inv (h : s.Inv) (hphase : s.phase = .recv) {ws : List Word} (hfits : ws.length ≤ receiveRoom s) :
    (takePulses ws s).Inv := by
  have hready := h.command_ready
  simp only [State.CommandReady, hphase] at hready
  obtain ⟨herr, hrx, hwritten⟩ := hready
  have hcap := h.params_legal.plsCap_le
  have hroom : s.rxCount.toNat + ws.length ≤ s.params.plsCap - 1 := by unfold receiveRoom at hfits; omega
  have hcount : (count16 (s.rxCount.toNat + ws.length)).toNat = s.rxCount.toNat + ws.length :=
    count16_toNat (by omega)
  have hwf : Memory.wf (writePulses s.mem s.rxCount.toNat ws) = true := wf_writePulses _ _ _ h.mem_wf
  have hm : Mapped s.params (writePulses s.mem s.rxCount.toNat ws) := h.mem_mapped.writePulses _ (by omega)
  rw [takePulses_eq]
  split
  next => exact h.finished_of_eq 0 .bufferFull rfl hwf hm (by decide) rfl rfl rfl
  next hne =>
    refine h.nextPhase (by simp [hphase]) (by simp [hphase]) ⟨rfl, rfl, rfl, rfl, rfl, rfl, rfl⟩ hwf hm ?_
    simp only [State.CommandReady, hphase, hcount]
    exact ⟨herr, by omega, hwritten.push⟩

theorem phaseRecv_inv (h : s.Inv) (hphase : s.phase = .recv) (ht : phaseRecv s = .next t) : t.Inv := by
  obtain ⟨a, tr, d, u, rfl, hend⟩ := phaseRecv_cases ht
  have hasked : State.Inv { s with
      transport := tr, requests := .receive (receiveRoom s) :: s.requests, draws := d } :=
    ⟨h.1, h.2, h.3, h.4, h.5, h.6, h.7, h.8, h.9, h.10, h.11, h.12⟩
  obtain ⟨-, rfl⟩ | ⟨-, rfl⟩ | ⟨-, rfl⟩ | ⟨-, -, rfl⟩ | ⟨-, hne, rfl⟩ | ⟨ws, -, -, hfits, rfl⟩ := hend
  · exact hasked.failed (by decide)
  · exact hasked.failed (by decide)
  · exact hasked.failed (by decide)
  · exact hasked.failed (by decide)
  · have hready := h.command_ready
    simp only [State.CommandReady, hphase] at hready
    obtain ⟨herr, hrx, hwritten⟩ := hready
    exact h.nextPhase (by simp [hphase]) (by simp) ⟨rfl, rfl, rfl, rfl, rfl, rfl, rfl⟩ h.mem_wf h.mem_mapped
      ⟨herr, Nat.pos_of_ne_zero hne, hrx, hwritten⟩
  · exact takePulses_inv hasked hphase hfits

theorem phaseTail_inv (h : s.Inv) (hphase : s.phase = .tail) (ht : phaseTail s = .next t) : t.Inv := by
  have hready := h.command_ready
  simp only [State.CommandReady, hphase] at hready
  obtain ⟨herr, hpos, hrx, ws, hws⟩ := hready
  cases ht
  have hkept : readPulses (writePulse s.mem s.rxCount.toNat (tailPulse s.params)) 0 s.rxCount.toNat = some ws := by
    rw [← hws]
    refine readPulses_congr fun k hk => ?_
    rw [readPulse_writePulse, if_neg (by omega)]
  exact h.nextPhase (by simp [hphase]) (by simp) ⟨rfl, rfl, rfl, rfl, rfl, rfl, rfl⟩ (wf_writePulse _ _ _ h.mem_wf)
    (h.mem_mapped.writePulse _ (by omega)) ⟨herr, hpos, hrx, ⟨ws, hkept⟩, readPulse_writePulse_same ..⟩

theorem phaseDecPls_inv (h : s.Inv) (hphase : s.phase = .decPls) (ht : phaseDecPls s = .next t) : t.Inv := by
  obtain ⟨ws, u, -, hu, hend⟩ := phaseDecPls_cases ht
  have hburst : BurstInv s.params u := by
    rw [hu]
    exact BurstInv.foldl h.params_legal ws ⟨rfl, h.mem_wf, h.mem_mapped, h.dec_pos, h.dec_out_kind, h.dec_out_byte,
      h.txn_err_worst, Nat.zero_le _, [], rfl⟩
  obtain ⟨hparams, -, -, hbusy, hcode, hcmd, -⟩ := foldl_decodeIntoPacket_fields ws { s with rxBytes := 0 }
  rw [← hu] at hbusy hcode hcmd
  obtain ⟨-, rfl⟩ | ⟨hnone, rfl⟩ := hend
  · exact h.finished 0 .recvError hburst.params hburst.wf hburst.mapped hburst.pos (by decide) hburst.kind hburst.byte
      hburst.worst
  · have hrun := (commandPhase_iff (by simp [hphase]) (by simp [hphase])).1 h.command_phase
    exact h.goOn hburst.params hburst.wf hburst.mapped hburst.pos nofun (by simp [hphase]) hbusy hcode hburst.kind
      hburst.byte hburst.worst (hcmd ▸ hrun)
      ⟨clear_of_not_recorded hnone hburst.worst, by rw [hburst.params]; exact hburst.bytes, hburst.written⟩

theorem phaseDecPkt_inv (h : s.Inv) (hphase : s.phase = .decPkt) (ht : phaseDecPkt s = .next t) : t.Inv := by
  have hready := h.command_ready
  simp only [State.CommandReady, hphase] at hready
  obtain ⟨herr, -, -⟩ := hready
  obtain ⟨m, c, k, hu, hend⟩ := phaseDecPkt_cases ht
  obtain ⟨hwf, hm⟩ := h.unpack_mem hu
  obtain ⟨rfl, rfl⟩ | ⟨-, rfl⟩ := hend
  · obtain ⟨hbad, -⟩ | ⟨hbad, -⟩ | ⟨-, hlen, hk, ds, rfl, -, rfl⟩ := unpack_cases hu (payloadCap_le h.params_legal)
    · cases hbad
    · cases hbad
    · have hreply : replyLength { s with mem := writeElems s.mem .rxd 0 ds, phase := .check } = ds.length := by
        simp only [replyLength]
        omega
      exact h.nextPhase (by simp [hphase]) (by simp) ⟨rfl, rfl, rfl, rfl, rfl, rfl, rfl⟩ hwf hm
        ⟨herr, hreply.trans_le hk, by rw [hreply]; exact hlen, ds, by rw [hreply]; exact readElems_writeElems_same ..⟩
  · exact h.finished_mem 0 (by decide) ⟨hwf, hm⟩

theorem phaseCheck_inv (h : s.Inv) (ht : phaseCheck s = .next t) : t.Inv := by
  obtain rfl | ⟨-, -, rfl⟩ := phaseCheck_cases ht
  · exact h.failed (by decide)
  · exact h.finished_mem _ (by decide) ⟨h.mem_wf, h.mem_mapped⟩

theorem blockStep_inv (h : s.Inv) (ht : blockStep s = .next t) : t.Inv := by
  obtain ⟨-, rfl⟩ | ⟨hphase, ⟨e, -, rfl⟩ | ⟨i, hi, hx⟩⟩ | ⟨hp, hx⟩ | ⟨hp, hx⟩ | ⟨hp, hx⟩ | ⟨hp, hx⟩ | ⟨hp, hx⟩ |
    ⟨hp, hx⟩ | ⟨-, hx⟩ := blockStep_cases ht
  · exact h
  · exact h.failed (by decide)
  · exact exec_inv h (by obtain hp | hp := hphase <;> rw [hp] <;> rfl) hi hx
  · exact phaseEncPls_inv h hp hx
  · exact phaseSend_inv h hp hx
  · exact phaseRecv_inv h hp hx
  · exact phaseTail_inv h hp hx
  · exact phaseDecPls_inv h hp hx
  · exact phaseDecPkt_inv h hp hx
  · exact phaseCheck_inv h hx

end

/-! ## Every step -/

/-- Settles O55: the input that is taken changes nothing soundness speaks of; then by who moves. -/
theorem stepKeepsSoundness : Obligations.StepKeepsSoundness := by
  intro s t h ht
  have htaken (rest : List Input) : State.Inv { s with inputs := rest } := h.port rest s.readData s.draws
  unfold step at ht
  split at ht
  next => exact blockStep_inv h ht
  next => exact blockStep_inv (htaken _) ht
  next => exact hostRead_inv (htaken _) ht
  next => cases ht; exact hostWrite_inv (htaken _) _ _
  next => cases ht; exact hardwareReset_inv h.params_legal

end Sys2Proof.Machine
end

section
/-! What a move of a busy block can be, said once: it writes what its operation may write, and then either ends the
operation with one of its codes or goes on to the next phase of COMMAND. The rules about every move follow. -/

namespace Sys2Proof.Machine

/-! ## The shape of a move -/

/-- The operation a busy block runs: the one its command word selects where operations start, and COMMAND in every later
phase (R23). -/
def State.running (s : State) : Except DecodeError Instr :=
  if startsOperation s.phase then decode s.cmd else .ok .command

/-- The codes with which an operation can end (R186). -/
def codesOf : Except DecodeError Instr → List Code
  | .ok .penc => [.ok, .bufferTooSmall]
  | .ok .pdec => [.ok]
  | .ok .kenc => [.ok, .bufferTooSmall]
  | .ok .kdec => [.ok, .bufferTooSmall, .notAPacket, .refused]
  | .ok .openLink => [.ok, .alreadyOpen, .notFound, .readOnly, .notSupported]
  | .ok .closeLink => [.ok]
  | .ok .resetLink => [.ok, .notOpen, .deviceError]
  | .ok .command =>
    [.ok, .bufferTooSmall, .notOpen, .deviceError, .bufferFull, .noReply, .recvError, .refused]
  | .error _ => [.refused]

/-- The one Transport request a move can make, by its operation or phase (R155 to R157, R163, R164). -/
inductive State.MayRequest (s : State) : Request → Prop
  | openLink : s.running = .ok .openLink → s.MayRequest .openLink
  | closeLink : s.running = .ok .closeLink → s.MayRequest .closeLink
  | resetLink : s.running = .ok .resetLink → s.MayRequest .resetLink
  | send (ws : List Word) : s.phase = .send → s.MayRequest (.send ws)
  | receive : s.phase = .recv → s.MayRequest (.receive (receiveRoom s))

/-- The phase in which a COMMAND that has not ended goes on (R23). -/
inductive State.GoesOn (s : State) : Phase → Prop
  | packed : startsOperation s.phase = true → decode s.cmd = .ok .command → s.GoesOn .encPls
  | again : s.phase = .recv → s.GoesOn .recv
  | next {p : Phase} : startsOperation s.phase = false → phaseNumber p = phaseNumber s.phase + 1 → p ≠ .exec → s.GoesOn p

/-- `u` is `s` after the writes a move may make before it ends its operation or goes on. -/
structure State.Wrote (s u : State) : Prop where
  params : u.params = s.params
  arg0 : u.arg0 = s.arg0
  arg1 : u.arg1 = s.arg1
  txd : ∀ i, i < 0x1000 → readElem u.mem .txd i = readElem s.mem .txd i
  decoder : s.phase ≠ .decPls → s.running ≠ .ok .pdec → u.dec = s.dec ∧ u.decOut = s.decOut
  registers : s.running ≠ .ok .command → u.txnErr = s.txnErr ∧ u.txnOpcode = s.txnOpcode ∧ u.txCount = s.txCount ∧
    u.rxCount = s.rxCount ∧ u.rxBytes = s.rxBytes
  requests : u.requests = s.requests ∨ ∃ r, u.requests = r :: s.requests ∧ s.MayRequest r

/-- A move of a busy block. -/
inductive State.Moved (s : State) : State → Prop
  | ends {u : State} (n : Nat) (c : Code) : s.Wrote u → c ∈ codesOf s.running → (c ≠ .ok → n = 0) →
    s.Moved (finishWith n c u)
  | goesOn {u : State} (p : Phase) : s.Wrote u → s.GoesOn p → s.Moved { u with phase := p }

/-! ## What is written -/

section
variable {s t : State}

theorem running_start (h : startsOperation s.phase = true) : s.running = decode s.cmd := if_pos h

theorem running_later (h : startsOperation s.phase = false) : s.running = .ok .command := by
  rw [State.running, h]
  rfl

theorem wrote_nothing (s : State) : s.Wrote s :=
  ⟨rfl, rfl, rfl, fun _ _ => rfl, fun _ _ => ⟨rfl, rfl⟩, fun _ => ⟨rfl, rfl, rfl, rfl, rfl⟩, .inl rfl⟩

theorem wrote_mem {m : Memory} (hm : ∀ i, i < 0x1000 → readElem m .txd i = readElem s.mem .txd i) :
    s.Wrote { s with mem := m } :=
  { wrote_nothing s with txd := hm }

theorem wrote_request {r : Request} (hr : s.MayRequest r) (tr : Transport) (d : Nat) :
    s.Wrote { s with transport := tr, requests := r :: s.requests, draws := d } :=
  { wrote_nothing s with requests := .inr ⟨r, rfl, hr⟩ }

/-- COMMAND may write its own registers besides. -/
theorem State.Wrote.registers_of_command {u : State} (h : s.Wrote u) (hrun : s.running = .ok .command) (op : Byte)
    (e : TxnErr) (tx rx rb : BitVec 16) :
    s.Wrote { u with txnOpcode := op, txnErr := e, txCount := tx, rxCount := rx, rxBytes := rb } :=
  { h with registers := fun hne => absurd hrun hne }

theorem State.Wrote.mem {u : State} (h : s.Wrote u) {m : Memory}
    (hm : ∀ i, i < 0x1000 → readElem m .txd i = readElem u.mem .txd i) : s.Wrote { u with mem := m } :=
  { h with txd := fun i hi => (hm i hi).trans (h.txd i hi) }

/-- Pulses go to `PLS`, which lies above `TXD`. -/
theorem txd_writePulses (m : Memory) (i : Nat) (ws : List Word) :
    ∀ j, j < 0x1000 → readElem (writePulses m i ws) .txd j = readElem m .txd j := fun j hj =>
  readElem_writePulses m ws (by simp only [bufferBase]; omega)

theorem wrote_fail {u : State} {c : Code} (h : s.Wrote u) (hc : c ∈ codesOf s.running) : s.Moved (fail c u) :=
  .ends 0 c h hc fun _ => rfl

/-! ## The results of the packet codec, whatever the capacity -/

theorem pack_result {L cap : Nat} {m m' : Memory} {c : Code} {n : Nat} (h : pack L cap m = some (m', c, n)) :
    c ∈ [Code.ok, .bufferTooSmall] ∧ (c ≠ .ok → n = 0) := by
  unfold pack at h
  split at h
  next => cases h; simp
  next =>
    split at h
    next => cases h
    next => cases h; simp

theorem unpackPairs_code {cap n cur k : Nat} {sum : Byte} {m : Memory} {r : Memory × Code × Nat × Byte}
    (h : unpackPairs cap n cur k sum m = some r) : r.2.1 ∈ [Code.ok, .bufferTooSmall, .notAPacket] := by
  induction n generalizing cur k sum m with
  | zero => cases h; simp
  | succ n ih =>
    simp only [unpackPairs] at h
    split at h
    next =>
      split_ifs at h
      · cases h; simp
      · cases h; simp
      · exact ih h
    next => cases h

theorem unpack_result {len cap : Nat} {m m' : Memory} {c : Code} {k : Nat} (h : unpack len cap m = some (m', c, k)) :
    c ∈ [Code.ok, .bufferTooSmall, .notAPacket] ∧ (c ≠ .ok → k = 0) := by
  unfold unpack at h
  split at h
  next => cases h; simp
  next =>
    split at h
    next => cases h; simp
    next =>
      split at h
      next => cases h
      next =>
        split at h
        next => cases h; simp
        next =>
          split at h
          next => cases h
          next =>
            split at h
            next => cases h
            next => cases h; simp
            next hck =>
              cases h
              obtain ⟨rfl, -⟩ | ⟨rfl, -⟩ := checksumCode_cases hck <;> simp
          next hu => cases h; exact ⟨unpackPairs_code hu, fun _ => rfl⟩

theorem encodeBytes_code {P : Params} {n i j : Nat} {m : Memory} {r : Memory × Code × Nat}
    (h : encodeBytes P n i j m = some r) : r.2.1 ∈ [Code.ok, .bufferTooSmall] := by
  induction n generalizing i j m with
  | zero => cases h; simp
  | succ n ih =>
    simp only [encodeBytes] at h
    split at h
    next => cases h; simp
    next =>
      split at h
      next => cases h
      next => exact ih h

/-! ## The moves -/

/-- An operation other than COMMAND ends in one move. -/
theorem exec_moved {i : Instr} (hphase : startsOperation s.phase = true) (hcmd : decode s.cmd = .ok i)
    (ht : exec i s = .next t) : s.Moved t := by
  have hrun : s.running = .ok i := (running_start hphase).trans hcmd
  cases i with
  | penc =>
    obtain ⟨-, rfl⟩ | ⟨-, rfl⟩ := execPenc_cases ht
    · exact wrote_fail (wrote_nothing s) (by simp [hrun, codesOf])
    · exact .ends _ .ok (wrote_mem (txd_writePulses _ _ _)) (by simp [hrun, codesOf]) (fun h => absurd rfl h)
  | pdec =>
    cases ht
    exact .ends _ .ok { wrote_nothing s with decoder := fun _ hne => absurd hrun hne } (by simp [hrun, codesOf])
      (fun h => absurd rfl h)
  | kenc =>
    obtain ⟨m, c, n, hp, rfl⟩ := execKenc_cases ht
    obtain ⟨hc, hn⟩ := pack_result hp
    exact .ends n c (wrote_mem fun i hi => pack_txd hp hi) (by simpa [hrun, codesOf] using hc) hn
  | kdec =>
    obtain ⟨-, rfl⟩ | ⟨-, m, c, k, hu, rfl⟩ := execKdec_cases ht
    · exact wrote_fail (wrote_nothing s) (by simp [hrun, codesOf])
    · obtain ⟨hc, hk⟩ := unpack_result hu
      exact .ends k c (wrote_mem fun i hi => unpack_txd hu hi)
        (by rw [hrun]; exact List.mem_append_left [Code.refused] hc) hk
  | openLink =>
    obtain ⟨a, tr, d, he⟩ := execOpen_cases s
    cases he.symm.trans ht
    exact .ends 0 _ (wrote_request (.openLink hrun) tr d) (by rw [hrun]; cases a <;> decide) fun _ => rfl
  | closeLink =>
    rw [exec, execClose_eq] at ht
    cases ht
    exact .ends 0 .ok (wrote_request (.closeLink hrun) _ _) (by simp [hrun, codesOf]) fun _ => rfl
  | resetLink =>
    obtain ⟨a, tr, d, he⟩ := execReset_cases s
    cases he.symm.trans ht
    exact .ends 0 _ (wrote_request (.resetLink hrun) tr d) (by rw [hrun]; cases a <;> decide) fun _ => rfl
  | command =>
    obtain ⟨-, rfl⟩ | ⟨op, m, c, n, -, -, hp, hend⟩ := execCommand_cases ht
    · exact wrote_fail (wrote_nothing s) (by simp [hrun, codesOf])
    · have hw : s.Wrote { openTransaction op s with mem := m } :=
        ⟨rfl, rfl, rfl, fun i hi => pack_txd hp hi, fun _ _ => ⟨rfl, rfl⟩, fun hne => absurd hrun hne, .inl rfl⟩
      obtain ⟨rfl, rfl⟩ | ⟨-, rfl⟩ := hend
      · exact .goesOn _ hw (.packed hphase hcmd)
      · obtain ⟨hc, -⟩ := pack_result hp
        exact wrote_fail hw (by rw [hrun]; exact List.mem_append_left _ hc)

theorem phaseEncPls_moved (hp : s.phase = .encPls) (ht : phaseEncPls s = .next t) : s.Moved t := by
  have hstart : startsOperation s.phase = false := by rw [hp]; rfl
  have hrun := running_later hstart
  obtain ⟨m, c, n, he, ⟨rfl, rfl⟩ | ⟨-, rfl⟩⟩ := phaseEncPls_cases ht
  · exact .goesOn _ ((wrote_mem fun i hi => encodeBytes_txd he hi).registers_of_command hrun s.txnOpcode s.txnErr
      (count16 n) s.rxCount s.rxBytes) (.next hstart (by rw [hp]; rfl) nofun)
  · exact wrote_fail (wrote_mem fun i hi => encodeBytes_txd he hi)
      (by rw [hrun]; exact List.mem_append_left _ (encodeBytes_code he))

theorem phaseSend_moved (hp : s.phase = .send) (ht : phaseSend s = .next t) : s.Moved t := by
  have hstart : startsOperation s.phase = false := by rw [hp]; rfl
  have hrun := running_later hstart
  obtain ⟨ws, a, tr, d, -, ⟨-, rfl⟩ | ⟨-, rfl⟩⟩ := phaseSend_cases ht
  · exact .goesOn _ (wrote_request (.send ws hp) tr d) (.next hstart (by rw [hp]; rfl) nofun)
  · exact wrote_fail (wrote_request (.send ws hp) tr d) (by rw [hrun]; cases a <;> decide)

theorem phaseRecv_moved (hp : s.phase = .recv) (ht : phaseRecv s = .next t) : s.Moved t := by
  have hstart : startsOperation s.phase = false := by rw [hp]; rfl
  have hrun := running_later hstart
  obtain ⟨a, tr, d, u, rfl, hend⟩ := phaseRecv_cases ht
  have hask := wrote_request (.receive hp) tr d
  obtain ⟨-, rfl⟩ | ⟨-, rfl⟩ | ⟨-, rfl⟩ | ⟨-, -, rfl⟩ | ⟨-, -, rfl⟩ | ⟨ws, -, -, -, rfl⟩ := hend
  · exact wrote_fail hask (by simp [hrun, codesOf])
  · exact wrote_fail hask (by simp [hrun, codesOf])
  · exact wrote_fail hask (by simp [hrun, codesOf])
  · exact wrote_fail hask (by simp [hrun, codesOf])
  · exact .goesOn _ hask (.next hstart (by rw [hp]; rfl) nofun)
  · have htaken := (hask.mem (txd_writePulses _ s.rxCount.toNat ws)).registers_of_command hrun s.txnOpcode s.txnErr
      s.txCount (count16 (s.rxCount.toNat + ws.length)) s.rxBytes
    rw [takePulses_eq]
    split
    next => exact wrote_fail htaken (by simp [hrun, codesOf])
    next =>
      have hmoved := State.Moved.goesOn _ htaken (.again hp)
      rwa [← hp] at hmoved

theorem phaseTail_moved (hp : s.phase = .tail) (ht : phaseTail s = .next t) : s.Moved t := by
  cases ht
  exact .goesOn _ (wrote_mem (txd_writePulses s.mem _ [tailPulse s.params]))
    (.next (by rw [hp]; rfl) (by rw [hp]; rfl) nofun)

theorem phaseDecPls_moved (hp : s.phase = .decPls) (ht : phaseDecPls s = .next t) : s.Moved t := by
  have hstart : startsOperation s.phase = false := by rw [hp]; rfl
  have hrun := running_later hstart
  obtain ⟨ws, u, -, hu, hend⟩ := phaseDecPls_cases ht
  have hw : s.Wrote u := by
    have htxd (i : Nat) (hi : i < 0x1000) := foldl_decodeIntoPacket_txd ws { s with rxBytes := 0 } hi
    rw [← hu] at htxd
    rw [hu, foldl_decodeIntoPacket_eq, ← hu]
    exact ⟨rfl, rfl, rfl, htxd, fun h => absurd hp h, fun h => absurd hrun h, .inl rfl⟩
  obtain ⟨-, rfl⟩ | ⟨-, rfl⟩ := hend
  · exact wrote_fail hw (by simp [hrun, codesOf])
  · exact .goesOn _ hw (.next hstart (by rw [hp]; rfl) nofun)

theorem phaseDecPkt_moved (hp : s.phase = .decPkt) (ht : phaseDecPkt s = .next t) : s.Moved t := by
  have hstart : startsOperation s.phase = false := by rw [hp]; rfl
  obtain ⟨m, c, k, hu, ⟨-, rfl⟩ | ⟨-, rfl⟩⟩ := phaseDecPkt_cases ht
  · exact .goesOn _ (wrote_mem fun i hi => unpack_txd hu hi) (.next hstart (by rw [hp]; rfl) nofun)
  · exact wrote_fail (wrote_mem fun i hi => unpack_txd hu hi) (by simp [running_later hstart, codesOf])

theorem phaseCheck_moved (hp : s.phase = .check) (ht : phaseCheck s = .next t) : s.Moved t := by
  have hrun : s.running = .ok .command := running_later (by rw [hp]; rfl)
  obtain rfl | ⟨-, -, rfl⟩ := phaseCheck_cases ht
  · exact wrote_fail (wrote_nothing s) (by simp [hrun, codesOf])
  · exact .ends _ .ok (wrote_nothing s) (by simp [hrun, codesOf]) (fun h => absurd rfl h)

/-- Every move of a busy block has this shape. -/
theorem blockStep_moved (hbusy : s.phase ≠ .idle) (ht : blockStep s = .next t) : s.Moved t := by
  obtain ⟨hidle, -⟩ | ⟨hphase, hx⟩ | ⟨hp, hx⟩ | ⟨hp, hx⟩ | ⟨hp, hx⟩ | ⟨hp, hx⟩ | ⟨hp, hx⟩ | ⟨hp, hx⟩ | ⟨hp, hx⟩ :=
    blockStep_cases ht
  · exact absurd hidle hbusy
  · have hstart : startsOperation s.phase = true := by obtain hp | hp := hphase <;> rw [hp] <;> rfl
    obtain ⟨e, he, rfl⟩ | ⟨i, hi, hx⟩ := hx
    · exact wrote_fail (wrote_nothing s) (by rw [running_start hstart, he]; exact List.mem_singleton_self _)
    · exact exec_moved hstart hi hx
  · exact phaseEncPls_moved hp hx
  · exact phaseSend_moved hp hx
  · exact phaseRecv_moved hp hx
  · exact phaseTail_moved hp hx
  · exact phaseDecPls_moved hp hx
  · exact phaseDecPkt_moved hp hx
  · exact phaseCheck_moved hp hx

/-- The step of a busy block: such a move after the input that gives it is taken off. -/
theorem step_moved (hmove : s.BlockMoves) (hbusy : s.phase ≠ .idle) (ht : step s = .next t) :
    s.popInput.Moved t :=
  blockStep_moved hbusy ((step_of_blockMoves hmove).symm.trans ht)

/-- An idle block only takes its input (R210). -/
theorem step_idle (hmove : s.BlockMoves) (hidle : s.phase = .idle) : step s = .next s.popInput := by
  exact (step_of_blockMoves hmove).trans (blockStep_idle hidle)

/-- Ending and going on write no field that `State.Wrote` speaks of. -/
theorem State.Moved.wrote (h : s.Moved t) : s.Wrote t := by
  cases h with
  | ends _ _ hw => exact ⟨hw.params, hw.arg0, hw.arg1, hw.txd, hw.decoder, hw.registers, hw.requests⟩
  | goesOn _ hw => exact ⟨hw.params, hw.arg0, hw.arg1, hw.txd, hw.decoder, hw.registers, hw.requests⟩

end

/-! ## The rules about every move -/

/-- Settles O56: what a move writes lies in other registers and in other buffers. -/
theorem blockLeavesOperandsAlone : Obligations.BlockLeavesOperandsAlone := by
  intro s t hmove ht
  by_cases hidle : s.phase = .idle
  · cases (step_idle hmove hidle).symm.trans ht
    exact ⟨rfl, rfl, rfl, fun _ _ => rfl⟩
  · have hw := (step_moved hmove hidle ht).wrote
    exact ⟨hw.arg0, hw.arg1, hw.params, hw.txd⟩

/-- Settles O57: the decoder is PDEC's and `DEC_PLS`'s, the working registers are COMMAND's. -/
theorem decoderWrittenOnlyByDecodes : Obligations.DecoderWrittenOnlyByDecodes := by
  intro s t hmove ht
  by_cases hidle : s.phase = .idle
  · cases (step_idle hmove hidle).symm.trans ht
    exact ⟨fun _ _ => ⟨rfl, rfl⟩, fun _ => ⟨rfl, rfl, rfl, rfl, rfl⟩⟩
  · have hw := (step_moved hmove hidle ht).wrote
    refine ⟨fun hphase hcmd => hw.decoder hphase ?_, fun hexec => hw.registers ?_⟩
    · have hne := hcmd.resolve_left hidle
      cases hstart : startsOperation s.phase with
      | true => exact (running_start (s := s.popInput) hstart).trans_ne hne
      | false => exact (running_later (s := s.popInput) hstart).trans_ne (by simp)
    · obtain ⟨hp, hne⟩ := hexec.resolve_left hidle
      exact (running_start (s := s.popInput) (by rw [State.popInput_phase, hp]; rfl)).trans_ne hne

/-- In a sound state the command word is that of the operation that runs. -/
theorem State.Inv.running_eq {s : State} (h : s.Inv) (hidle : s.phase ≠ .idle) : s.running = decode s.cmd := by
  cases hstart : startsOperation s.phase with
  | true => exact running_start hstart
  | false =>
    have hexec : s.phase ≠ .exec := fun he => by simp [he, startsOperation] at hstart
    rw [running_later hstart, (commandPhase_iff hidle hexec).1 h.command_phase]

/-- Going on is never to `IDLE`. -/
theorem State.GoesOn.ne_idle {s : State} {p : Phase} (h : s.GoesOn p) : p ≠ .idle := by
  rintro rfl
  cases h with
  | next _ hnum => simp [phaseNumber] at hnum

/-- A move that leaves the block in `IDLE` has ended its operation. -/
theorem State.Moved.ended {s t : State} (h : s.Moved t) (ht : t.phase = .idle) :
    t.busy = false ∧ t.code ∈ codesOf s.running ∧ (t.code ≠ .ok → t.result = 0) := by
  cases h with
  | ends n c _ hc hn =>
    refine ⟨rfl, hc, fun hne => ?_⟩
    rw [finishWith_result, hn hne]
    rfl
  | goesOn p _ hp => exact absurd ht hp.ne_idle

/-- Settles O58: the codes of each operation are those with which its moves end. -/
theorem codesPerOperation : Obligations.CodesPerOperation := by
  intro s t h hmove hbusy ht hend
  obtain ⟨-, hcode, -⟩ := (step_moved hmove hbusy ht).ended hend
  have hrun : s.popInput.running = decode s.cmd := h.running_eq hbusy
  rw [hrun] at hcode
  split <;> simp_all [codesOf]

/-- Settles O60: an operation ends by `finish`, and only `Ok` comes with a result. -/
theorem failureClearsResult : Obligations.FailureClearsResult := by
  intro s t hmove hbusy ht hend
  obtain ⟨hidle, -, hresult⟩ := (step_moved hmove hbusy ht).ended hend
  exact ⟨hidle, hresult⟩

/-! ## Requests and phases -/

/-- The phases of a COMMAND follow each other (R23). -/
theorem State.Inv.phase_follows {s : State} (h : s.Inv) {p : Phase} (hp : s.GoesOn p) :
    (s.phase = .recv ∧ p = .recv) ∨ (phaseNumber p = phaseNumber s.phase + 1 ∧ p ≠ .exec) := by
  cases hp with
  | packed hstart hcmd =>
    have hphase : s.phase = .encPkt := by
      have hfits := h.command_phase
      cases hph : s.phase <;> simp_all [startsOperation, State.CommandPhase]
    exact .inr ⟨by rw [hphase]; rfl, nofun⟩
  | again hph => exact .inl ⟨hph, rfl⟩
  | next _ hnum hexec => exact .inr ⟨hnum, hexec⟩

/-- An operation other than COMMAND runs in `EXEC` (R23). -/
theorem State.Inv.exec_of_running {s : State} (h : s.Inv) (hidle : s.phase ≠ .idle) {i : Instr}
    (hrun : s.running = .ok i) (hi : i ≠ .command) : s.phase = .exec ∧ decode s.cmd = .ok i := by
  rw [h.running_eq hidle] at hrun
  refine ⟨not_not.1 fun hexec => hi ?_, hrun⟩
  exact Except.ok.inj (hrun.symm.trans ((commandPhase_iff hidle hexec).1 h.command_phase))

/-- In `RECV` there is room for at least one pulse, and the last entry is not asked for (R164). -/
theorem State.Inv.receiveRoom_bounds {s : State} (h : s.Inv) (hphase : s.phase = .recv) :
    0 < receiveRoom s ∧ receiveRoom s < s.params.plsCap := by
  have hready := h.command_ready
  simp only [State.CommandReady, hphase] at hready
  obtain ⟨-, hrx, -⟩ := hready
  unfold receiveRoom
  omega

/-- Settles O59: each move makes the request of its operation or phase, if any, and ends or goes on. -/
theorem requestsByPhase : Obligations.RequestsByPhase := by
  refine ⟨fun s hmove hidle => step_idle hmove hidle, fun s t h hmove hbusy ht => ?_⟩
  have hpop : s.popInput.Inv := h.port _ s.readData s.draws
  have hmoved := step_moved hmove hbusy ht
  have hphases : t.phase = .idle ∨ (s.phase = .recv ∧ t.phase = .recv) ∨
      (phaseNumber t.phase = phaseNumber s.phase + 1 ∧ t.phase ≠ .exec) := by
    cases hmoved with
    | ends => exact .inl rfl
    | goesOn p _ hp => exact .inr (hpop.phase_follows hp)
  refine ⟨hphases, ?_⟩
  refine hmoved.wrote.requests.imp_right fun ⟨r, hr, hmay⟩ => ⟨r, hr, ?_⟩
  cases hmay with
  | openLink hrun =>
    obtain ⟨hexec, hcmd⟩ := hpop.exec_of_running hbusy hrun nofun
    exact .inl ⟨hexec, hcmd, rfl⟩
  | closeLink hrun =>
    obtain ⟨hexec, hcmd⟩ := hpop.exec_of_running hbusy hrun nofun
    exact .inr (.inl ⟨hexec, hcmd, rfl⟩)
  | resetLink hrun =>
    obtain ⟨hexec, hcmd⟩ := hpop.exec_of_running hbusy hrun nofun
    exact .inr (.inr (.inl ⟨hexec, hcmd, rfl⟩))
  | send ws hphase =>
    have hphase : s.phase = .send := hphase
    have hleft : t.phase ≠ .send := fun hstay => by simp [hstay, hphase] at hphases
    exact .inr (.inr (.inr (.inl ⟨hphase, hleft, ws, rfl⟩)))
  | receive hphase =>
    exact .inr (.inr (.inr (.inr ⟨hphase, _, rfl, hpop.receiveRoom_bounds hphase⟩)))

end Sys2Proof.Machine
end

section
/-! A COMMAND leaves the decoder at rest (R171): only the phase `DEC_PLS` moves it, and its last pulse is the tail. -/

namespace Sys2Proof.Machine

/-- The tail is the last pulse of the burst, and flushes the decoder (R121, R165). -/
theorem phaseDecPls_dec_pos {s t : State} (h : s.Inv) (hphase : s.phase = .decPls) (ht : phaseDecPls s = .next t) :
    t.dec.pos = 0 := by
  have hready := h.command_ready
  simp only [State.CommandReady, hphase] at hready
  obtain ⟨-, -, -, -, htail⟩ := hready
  obtain ⟨ws, u, hws, hu, hend⟩ := phaseDecPls_cases ht
  obtain ⟨us, rfl⟩ := readPulses_tail hws htail
  obtain ⟨-, hdec, -⟩ := foldl_decodeIntoPacket_fields (us ++ [tailPulse s.params]) { s with rxBytes := 0 }
  have hpos : u.dec.pos = 0 := by
    rw [hu, hdec, decodeAll_concat]
    exact decode1_flush (pol_tailPulse _) (bitCount_tailPulse h.params_legal).ge _ (decodeAll_pos _ _ _ h.dec_pos)
  obtain ⟨-, rfl⟩ | ⟨-, rfl⟩ := hend <;> exact hpos

/-- Settles O52: in every phase but `DEC_PLS` the decoder is as before. -/
theorem commandKeepsDecoderAtRest : Obligations.CommandKeepsDecoderAtRest := by
  intro s t h hmove hcmd hbusy hrest ht
  by_cases hphase : s.phase = .decPls
  · have hpop : s.popInput.Inv := h.port _ s.readData s.draws
    exact phaseDecPls_dec_pos hpop hphase ((step_decPls hmove hphase).symm.trans ht)
  · obtain ⟨hkeeps, -⟩ := decoderWrittenOnlyByDecodes s t hmove ht
    obtain ⟨hdec, -⟩ := hkeeps hphase (.inr (by rw [hcmd]; simp))
    rw [hdec, hrest]

end Sys2Proof.Machine
end

section
/-! The command word (R80, R84) and the step that runs it (R23, R26). -/

namespace Sys2Proof.Machine

/-! ## Decoding -/

/-- Settles O1: each word is decoded by evaluation. -/
theorem commandWordsDecode : Obligations.CommandWordsDecode :=
  ⟨rfl, rfl, rfl, rfl, rfl, rfl, rfl, rfl, rfl, rfl⟩

/-- An operation code is decoded exactly when it is that of an operation's word. -/
theorem decodeOp_eq_ok_iff (op : Nat) (i : Instr) : decodeOp op = .ok i ↔ op = (encode i).toNat := by
  constructor
  · intro h
    unfold decodeOp at h
    split at h <;> cases h <;> rfl
  · rintro rfl
    cases i <;> rfl

/-- A word selects an operation exactly when it is the operation's word (R80). -/
theorem decode_eq_ok_iff (w : Word) (i : Instr) : decode w = .ok i ↔ w = encode i := by
  constructor
  · intro h
    unfold decode at h
    split at h
    next hupper =>
      have hop := (decodeOp_eq_ok_iff _ i).1 h
      exact BitVec.eq_of_toNat_eq (by omega)
    next => cases h
  · rintro rfl
    exact decode_encode i

/-- The operation codes that are mapped are those that are decoded (R80, R84). -/
theorem commandOpMapped_iff (w : Word) : commandOpMapped w = true ↔ ∃ i, decodeOp (w.toNat % 16) = .ok i := by
  have hop : w.toNat % 16 < 16 := Nat.mod_lt _ (by decide)
  unfold commandOpMapped
  generalize w.toNat % 16 = op at hop
  interval_cases op <;> simp [decodeOp]

/-- Settles O2: the eight codes of R80 and the upper bits, as `decode` and the well-formedness check look at them. -/
theorem decodeIsInverseOfEncode : Obligations.DecodeIsInverseOfEncode := by
  refine ⟨decode_eq_ok_iff, fun w => ?_⟩
  rw [commandWordWf, Bool.and_eq_true, commandOpMapped_iff, commandUpperZero, beq_iff_eq, decode]
  split
  next hupper => simp [hupper]
  next hupper => simp [hupper]

/-- A word with a reserved code or with upper bits set selects no operation (R84). -/
theorem decode_reserved {w : Word}
    (h : w.toNat % 16 ∈ [0x0, 0x5, 0x6, 0x7, 0xC, 0xD, 0xE, 0xF] ∨ w.toNat / 16 ≠ 0) : ∃ e, decode w = .error e := by
  cases hd : decode w with
  | error e => exact ⟨e, rfl⟩
  | ok i =>
    obtain rfl := (decode_eq_ok_iff w i).1 hd
    cases i <;> simp [encode] at h

/-! ## Starting an operation -/

/-- A `CMD` write while idle starts an operation, whatever the word (R26). -/
theorem step_write_cmd {s : State} {w : Word} {rest : List Input} (hb : s.busy = false)
    (hi : s.inputs = .write 0 w :: rest) : step s = .next (startOperation w { s with inputs := rest }) := by
  rw [step_write hi, hostWrite_cmd (s := { s with inputs := rest }) w hb]

/-- Settles O5: COMMAND's is the one word that starts in `ENC_PKT`. -/
theorem cmdWriteStartsAnOperation : Obligations.CmdWriteStartsAnOperation := by
  intro s w rest hb hi
  refine ⟨_, step_write_cmd hb hi, rfl, fun hw => ?_, fun hw => ?_⟩
  · rw [hw]
    rfl
  · obtain ⟨-, hcmd⟩ | ⟨hphase, -⟩ := firstPhase_cases w
    · exact absurd ((decode_eq_ok_iff w .command).1 hcmd) hw
    · exact hphase

/-- In `EXEC` and `ENC_PKT` the step is the operation of the command word. -/
theorem step_start {s : State} (hmove : s.BlockMoves) (hphase : startsOperation s.phase = true) :
    step s = runOperation s.popInput :=
  (step_of_blockMoves hmove).trans (blockStep_start hphase)

theorem startsOperation_firstPhase (c : Word) : startsOperation (firstPhase c) = true := by
  obtain ⟨hp, -⟩ | ⟨hp, -⟩ := firstPhase_cases c <;> rw [hp] <;> rfl

/-- Settles O3: a reserved word starts in `EXEC`, and the move that follows is the null operation. -/
theorem reservedWordIsRefused : Obligations.ReservedWordIsRefused := by
  intro s w rest hb _ hi hreserved
  obtain ⟨e, he⟩ := decode_reserved hreserved
  refine ⟨_, step_write_cmd hb hi, ?_⟩
  rw [step_start (.inr ⟨rest, rfl⟩) (startsOperation_firstPhase w)]
  exact runOperation_error he

/-- Settles O4: both ways the block's move finds the word where it fetches. -/
theorem stepRunsTheDecodedOperation : Obligations.StepRunsTheDecodedOperation := by
  refine ⟨fun s i hphase hmove hcmd => ?_, fun s w i hw => ?_⟩
  · have hstart : startsOperation s.phase = true := by obtain hp | hp := hphase <;> rw [hp] <;> rfl
    rw [step_start hmove hstart]
    exact runOperation_ok hcmd
  · have hcmd : decode (tableWord 32 w) = .ok i := by
      unfold decodeTableWord at hw
      cases hd : decode (tableWord 32 w) with
      | error e => rw [hd] at hw; cases hw
      | ok j => rw [hd] at hw; cases hw; rfl
    have hmove : (s.withFetchWord 32 w).BlockMoves := .inr ⟨s.inputs, rfl⟩
    rw [step_start hmove (startsOperation_firstPhase _)]
    exact runOperation_ok hcmd

/-! ## Reset -/

/-- Settles O6: each register but the `P_` registers, one after another; memory is empty. -/
theorem resetValues : Obligations.ResetValues := by
  refine fun P => ⟨fun r hr => ?_, rfl, rfl, rfl, fun b i => rfl, fun i => rfl⟩
  cases r with
  | pBitPeriod | pMarkAdj | pSpaceAdj | pMaxPayload | pPlsCap => simp at hr
  | _ => rfl

/-- Settles O7: a hardware reset keeps the fields that are not the block's. -/
theorem hardwareResetAbandonsTheOperation : Obligations.HardwareResetAbandonsTheOperation := by
  intro s rest hi
  simp only [step, hi]
  rfl

end Sys2Proof.Machine
end

section
/-! The host port: the fields of the flag words (R20), reads and writes while busy (R58) and while idle (R54, R57). -/

namespace Sys2Proof.Machine

/-! ## The flag words, bit by bit -/

/-- `DEC_OUT` as its fields put one above the other. -/
theorem decOutWord_toNat (o : DecOut) :
    (decOutWord o).toNat = o.byte.toNat + 2 ^ 8 * o.bv.toNat + 2 ^ 9 * o.pe.toNat + 2 ^ 10 * o.fe.toNat
      + 2 ^ 11 * o.bd.toNat + 2 ^ 12 * codeNumber o.kind := by
  have hbyte := o.byte.isLt
  have hbv := o.bv.toNat_le
  have hpe := o.pe.toNat_le
  have hfe := o.fe.toNat_le
  have hbd := o.bd.toNat_le
  have hkind := codeNumber_lt o.kind
  rw [decOutWord, BitVec.toNat_ofNat, Nat.mod_eq_of_lt (by omega)]

theorem txnErrWord_toNat (e : TxnErr) :
    (txnErrWord e).toNat = e.pe.toNat + 2 * e.fe.toNat + 2 ^ 2 * e.bd.toNat + 2 ^ 3 * e.ov.toNat
      + 2 ^ 4 * codeNumber e.worst := by
  have hpe := e.pe.toNat_le
  have hfe := e.fe.toNat_le
  have hbd := e.bd.toNat_le
  have hov := e.ov.toNat_le
  have hworst := codeNumber_lt e.worst
  rw [txnErrWord, BitVec.toNat_ofNat, Nat.mod_eq_of_lt (by omega)]

/-- A one-bit field of a word: what stands at its place. -/
theorem getLsbD_of_div_mod {w : Word} {k : Nat} {b : Bool} (h : w.toNat / 2 ^ k % 2 = b.toNat) : w.getLsbD k = b := by
  rw [BitVec.getLsbD, Nat.testBit_eq_decide_div_mod_eq, h]
  cases b <;> rfl

theorem getLsbD_of_lt {w : Word} {n k : Nat} (h : w.toNat < 2 ^ n) (hk : n ≤ k) : w.getLsbD k = false :=
  Nat.testBit_lt_two_pow (h.trans_le (Nat.pow_le_pow_right (by decide) hk))

/-- Settles O9: each field is read off the number of the word. -/
theorem flagWordFields : Obligations.FlagWordFields := by
  refine ⟨fun o => ?_, fun e => ?_, fun s p n hpn hp => ?_⟩
  · have hw := decOutWord_toNat o
    have hbyte := o.byte.isLt
    have hbv := o.bv.toNat_le
    have hpe := o.pe.toNat_le
    have hfe := o.fe.toNat_le
    have hbd := o.bd.toNat_le
    have hkind := codeNumber_lt o.kind
    refine ⟨BitVec.eq_of_toNat_eq ?_, getLsbD_of_div_mod ?_, getLsbD_of_div_mod ?_, getLsbD_of_div_mod ?_,
      getLsbD_of_div_mod ?_, ?_, fun k hk => getLsbD_of_lt ?_ hk⟩
    · rw [BitVec.extractLsb'_toNat, Nat.shiftRight_zero]
      omega
    · omega
    · omega
    · omega
    · omega
    · rw [BitVec.extractLsb'_toNat, Nat.shiftRight_eq_div_pow]
      omega
    · omega
  · have hw := txnErrWord_toNat e
    have hpe := e.pe.toNat_le
    have hfe := e.fe.toNat_le
    have hbd := e.bd.toNat_le
    have hov := e.ov.toNat_le
    have hworst := codeNumber_lt e.worst
    refine ⟨getLsbD_of_div_mod ?_, getLsbD_of_div_mod ?_, getLsbD_of_div_mod ?_, getLsbD_of_div_mod ?_, ?_,
      fun k hk => getLsbD_of_lt ?_ hk⟩
    · omega
    · omega
    · omega
    · omega
    · rw [BitVec.extractLsb'_toNat, Nat.shiftRight_eq_div_pow]
      omega
    · omega
  · have hn : phaseNumber p = n := by cases p <;> simpa [phaseNumber, eq_comm] using hpn
    have hlt : phaseNumber p < 2 ^ 32 := by cases p <;> decide
    rw [phaseWord, BitVec.toNat_ofNat, hp, Nat.mod_eq_of_lt hlt, hn]

/-! ## While busy -/

/-- A host read in any state. -/
theorem step_read {s : State} {i : Index} {rest : List Input} (hi : s.inputs = .read i :: rest) :
    step s = hostRead i { s with inputs := rest } := by
  simp only [step, hi]

/-- Which indices may be read while busy (R58). -/
theorem readableWhileBusy_place (P : Params) (i : Index) (h1 : i ≠ 0x0001) (hB : i ≠ 0x000B) :
    readableWhileBusy (place P i.toNat) = false := by
  have hreg : readableWhileBusy (registerAt i.toNat) = false := by
    have h1' : i.toNat ≠ 1 := fun h => h1 (BitVec.eq_of_toNat_eq h)
    have hB' : i.toNat ≠ 11 := fun h => hB (BitVec.eq_of_toNat_eq h)
    unfold registerAt
    split <;> simp only [readableWhileBusy, Bool.true_eq_false]
    · exact h1' ‹_›
    · exact hB' ‹_›
  have helem (b : Buffer) (k : Nat) : readableWhileBusy (elementAt P b k) = false := by
    unfold elementAt
    split <;> rfl
  unfold place
  split_ifs
  · exact hreg
  all_goals exact helem ..

/-- Settles O10: by the index of the access. -/
theorem busyHostAccess : Obligations.BusyHostAccess := by
  intro s i rest hb
  refine ⟨fun w hi => ?_, fun hi => ⟨?_, ?_, fun h1 hB => ?_⟩⟩
  · rw [step_write hi, hostWrite, if_pos hb]
  · rintro rfl
    rw [step_read hi, hostRead, if_neg (by simp [place, registerAt, bufferBase, readableWhileBusy])]
    rfl
  · rintro rfl
    rw [step_read hi, hostRead, if_neg (by simp [place, registerAt, bufferBase, readableWhileBusy])]
    rfl
  · refine ⟨Config.busyWord s.draws, ?_⟩
    rw [step_read hi, hostRead, if_pos (by simp [hb, readableWhileBusy_place _ i h1 hB])]

/-! ## While idle -/

/-- An index below `TXD` names a register or nothing. -/
theorem place_register (P : Params) {x : Nat} (h : x < 0x1000) : place P x = registerAt x := if_pos h

/-- An idle read of a place that has a word. -/
theorem step_read_word {s : State} {i : Index} {rest : List Input} {w : Word} (hb : s.busy = false)
    (hi : s.inputs = .read i :: rest) (hw : placeWord s (place s.params i.toNat) = some w) :
    step s = .next { s with inputs := rest, readData := w } := by
  rw [step_read_of_idle s i rest hb hi, hw]
  rfl

/-- An idle read of an element that has no value (U6). -/
theorem step_read_unwritten {s : State} {i : Index} {rest : List Input} (hb : s.busy = false)
    (hi : s.inputs = .read i :: rest) (hw : placeWord s (place s.params i.toNat) = none) :
    step s = .fault .unwrittenElement := by
  rw [step_read_of_idle s i rest hb hi, hw]
  rfl

/-- The word of an element of a byte buffer (R30, R52). -/
theorem elementWord_byte (m : Memory) {b : Buffer} (hb : b ≠ .pls) (j : Nat) :
    elementWord m b j = (readElem m b j).map (BitVec.setWidth 32) := by
  cases b
  case pls => exact absurd rfl hb
  all_goals rfl

/-- Settles O11: the registers by their index, an element by `place_element`. -/
theorem idleHostRead : Obligations.IdleHostRead := by
  intro s i rest hP hb hi
  refine ⟨fun k w hkw hk => ?_, fun b j hbp hj hij => ?_, fun j hj hij => ?_⟩
  · refine step_read_word hb hi ?_
    simp only [BitVec.ofNat_toNat] at hkw
    rw [hk]
    fin_cases hkw <;> rw [place_register _ (by decide)] <;> rfl
  · have hplace : placeWord s (place s.params i.toNat) = (readElem s.mem b j).map (BitVec.setWidth 32) := by
      rw [hij, place_element s.params hP b j hj]
      exact elementWord_byte s.mem hbp j
    refine ⟨fun v hv => step_read_word hb hi ?_, fun hnone => step_read_unwritten hb hi ?_⟩
    · rw [hplace, hv, BitVec.ofNat_toNat, Option.map_some]
    · rw [hplace, hnone]
      rfl
  · have hplace : placeWord s (place s.params i.toNat) = readPulse s.mem j := by
      rw [hij, show 0x8000 + j = bufferBase .pls + j from rfl, place_element s.params hP .pls j hj]
      rfl
    exact ⟨fun w hw => step_read_word hb hi (hplace.trans hw), fun hnone =>
      step_read_unwritten hb hi (hplace.trans hnone)⟩

/-- An idle write of a register, by its index. -/
theorem step_write_register {s : State} {i : Index} {w : Word} {rest : List Input} {r : Register} (hb : s.busy = false)
    (hi : s.inputs = .write i w :: rest) (hr : place s.params i.toNat = .register r) :
    step s = .next (writeRegister r w { s with inputs := rest }) := by
  rw [step_write hi, hostWrite, if_neg (by simp [hb])]
  simp only [hr]

/-- Settles O13: each index names its register, whose write keeps the bits of the field. -/
theorem hostWritesOperandsAndDecoder : Obligations.HostWritesOperandsAndDecoder := by
  intro s i w rest hb hi
  refine ⟨?_, ?_, ?_, ?_, ?_, ?_⟩
  · rintro rfl
    exact step_write_register hb hi rfl
  · rintro rfl
    exact step_write_register hb hi rfl
  · rintro rfl hw
    refine ⟨w.setWidth 4, by rw [BitVec.toNat_setWidth]; omega, ?_⟩
    rw [step_write_register (r := .decPos) hb hi rfl, writeRegister, if_pos (by omega)]
  · rintro rfl hlo hhi
    rw [step_write_register (r := .decPos) hb hi rfl, writeRegister, if_neg (by omega)]
  · rintro rfl
    rw [step_write_register (r := .decPar) hb hi rfl, writeRegister, ← BitVec.setWidth_eq_extractLsb' (by decide)]
  · rintro rfl
    rw [step_write_register (r := .decData) hb hi rfl, writeRegister, ← BitVec.setWidth_eq_extractLsb' (by decide)]

/-! ## A write, then a read -/

/-- What an idle write of an element of a writable buffer does: memory alone changes, only in the element, and the
element then reads as the word, cut to the element's width (R30, R57). -/
theorem writeElement_spec (s : State) {b : Buffer} (hb : b ≠ .rxd) (k : Nat) (w : Word) :
    ∃ m, writeElement b k w s = { s with mem := m } ∧ (∀ a, Outside b k 1 a → readByte m a = readByte s.mem a) ∧
      elementWord m b k = some (if b = .pls then w else BitVec.ofNat 32 (w.toNat % 256)) := by
  have hbyte {b : Buffer} (hpls : b ≠ .pls) :
      (∀ a, Outside b k 1 a → readByte (writeElem s.mem b k (w.setWidth 8)) a = readByte s.mem a) ∧
        elementWord (writeElem s.mem b k (w.setWidth 8)) b k = some (BitVec.ofNat 32 (w.toNat % 256)) := by
    refine ⟨fun a ha => readByte_writeElems_outside (vs := [w.setWidth 8]) ha le_rfl, ?_⟩
    rw [elementWord_byte _ hpls, readElem_writeElem_same, Option.map_some]
    refine congrArg some (BitVec.eq_of_toNat_eq ?_)
    simp
  cases b with
  | txd => exact ⟨_, rfl, hbyte nofun⟩
  | rxd => exact absurd rfl hb
  | pkt => exact ⟨_, rfl, hbyte nofun⟩
  | pls =>
    exact ⟨_, rfl, fun a ha => readByte_writePulses_outside (vs := [w]) ha le_rfl, readPulse_writePulse_same ..⟩

/-- Settles O14: the write by `writeElement_spec`, the read by the index naming the same element. -/
theorem hostWriteThenReadElement : Obligations.HostWriteThenReadElement := by
  intro s b k i w rest hP hb hne hk hik hi
  have hplace : place s.params i.toNat = .element b k := by rw [hik, place_element s.params hP b k hk]
  obtain ⟨m, hwrite, hframe, hread⟩ := writeElement_spec { s with inputs := .read i :: rest } hne k w
  refine ⟨{ s with inputs := .read i :: rest, mem := m }, ?_, rfl, hframe, ?_⟩
  · rw [step_write hi, hostWrite, if_neg (by simp [hb])]
    simp only [hplace, hwrite]
  · refine step_read_word (s := { s with inputs := .read i :: rest, mem := m }) hb rfl ?_
    rw [hplace]
    exact hread

end Sys2Proof.Machine
end

section
/-! The pulse codec: what PENC writes (R100 to R105), and what PDEC makes of one pulse by its length (R110 to R119). -/

namespace Sys2Proof.Machine

/-! ## Encoding -/

/-- Settles O17: segment j is the segment of run j, whose duration is in range. -/
theorem segmentDurations : Obligations.SegmentDurations := by
  intro P b j k p hP hj
  obtain ⟨hk, hk'⟩ := run_bounds b _ (List.mem_of_getElem? hj)
  obtain ⟨hdur, hpos, hlt⟩ := runDuration_bounds hP p hk hk'
  have hd : dur (runSegment P (p, k)) = runDuration P p k := dur_pulse hlt
  refine ⟨runSegment P (p, k), by rw [segments, List.getElem?_map, hj, Option.map_some], pol_runSegment .., ?_, ?_,
    bitCount_runSegment hP p hk hk'⟩
  · rw [hd, hdur]
    cases p <;> rfl
  · rw [hd]
    exact hpos

/-- Settles O19: PENC's other branch writes the segments and nothing else. -/
theorem pencWritesTheSegments : Obligations.PencWritesTheSegments := by
  intro s harg hcap
  rw [← BitVec.setWidth_eq_extractLsb' (by decide)]
  have hroom : ¬ pencCap s < Config.segWorst := Nat.not_lt.2 (Nat.le_min.2 ⟨harg, hcap⟩)
  exact ⟨_, if_neg hroom, rfl, readPulses_writePulses_same .., fun a ha => readByte_writePulses_outside ha le_rfl⟩

/-! ## PDEC -/

/-- Settles O21: PDEC is `decode1`. -/
theorem pdecCompletes : Obligations.PdecCompletes := by
  intro s
  refine ⟨_, execPdec_eq s, ?_, rfl, decode1_kind ..⟩
  cases hbv : (decode1 s.params s.dec (pdecPulse s)).2.bv <;> simp [finishWith, finish, hbv]

/-- A pulse of one bit is one bit of the frame machine (R110). -/
theorem decode1_oneBit {P : Params} {w : Word} (h : bitCount P w = 1) (d : Decoder) :
    decode1 P d w =
      ((stepBit (pol w) (d, DecOut.none)).1, summarise (stepBit (pol w) (d, DecOut.none)).2) := by
  rw [decode1_of_le (by omega), h]
  rfl

/-- The start bit (R114). -/
theorem stepBit_start (p : Polarity) {d : Decoder} (o : DecOut) (h : d.pos.toNat = 0) :
    stepBit p (d, o) = (if p = .space then { pos := 1, par := 0, data := 0 } else d, o) := by
  cases p <;> simp [stepBit, h]

/-- The stop bit (R117). -/
theorem stepBit_stop (p : Polarity) {d : Decoder} (o : DecOut) (h : d.pos.toNat = 10) :
    stepBit p (d, o) = ({ d with pos := 0 }, { o with fe := if p = .space then true else o.fe }) := by
  simp [stepBit, h]

theorem shiftIn_toNat (b : Byte) (p : Polarity) : (shiftIn b p).toNat = b.toNat / 2 + 128 * p.toNat := by
  have hb := b.isLt
  have hp : p.toNat ≤ 1 := by cases p <;> decide
  rw [shiftIn, BitVec.toNat_ofNat, Nat.mod_eq_of_lt (by omega)]

/-- Settles O22: one bit of the frame machine at each position. -/
theorem oneBitPulse : Obligations.OneBitPulse := by
  intro s hone _
  obtain ⟨t, ht, hdec, hout⟩ : ∃ t, exec .pdec s = .next t ∧ t.dec = (decode1 s.params s.dec s.arg0).1 ∧
      t.decOut = (decode1 s.params s.dec s.arg0).2 := ⟨_, execPdec_eq s, rfl, rfl⟩
  have hbd : t.decOut.bd = false := by rw [hout, decode1_bd (by omega)]
  rw [decode1_oneBit hone] at hdec hout
  refine ⟨t, ht, hbd, fun h0 => ?_, fun h1 h8 => ?_, fun h9 => ?_, fun h10 => ?_⟩
  · rw [hdec, hout, stepBit_start _ _ h0]
    exact ⟨rfl, fun hp => if_pos hp, fun hp => if_neg (by simp [hp])⟩
  · rw [hdec, hout, stepBit_data h1 h8]
    exact ⟨rfl, toNat_succ4 _ (by omega), shiftIn_toNat .., countMark_toNat ..⟩
  · rw [hdec, hout, stepBit_parity h9]
    refine ⟨rfl, rfl, countMark_toNat .., rfl, rfl, rfl, ?_⟩
    simp only [summarise, DecOut.none, countMark_toNat, ite_eq_left_iff, Bool.false_eq_true, imp_false]
    omega
  · rw [hdec, hout, stepBit_stop _ _ h10]
    exact ⟨rfl, rfl, rfl, by simp [summarise, DecOut.none]⟩

/-- Settles O24: a break through `decode1_break`; a long mark counts as ten bits, as does the mark of exactly ten. -/
theorem overLongPulses : Obligations.OverLongPulses := by
  intro s hlong hP
  refine ⟨fun hspace => ?_, fun hmark => ?_⟩
  · show execPdec s = _
    rw [execPdec_eq, pdecPulse, decode1_break hspace hlong]
    rfl
  · have hten : bitCount s.params (pulse .mark (10 * s.params.bitPeriod)) = 10 := bitCount_tailPulse hP
    have hsame : decode1 s.params s.dec s.arg0 =
        decode1 s.params s.dec (pulse .mark (10 * s.params.bitPeriod)) := by
      rw [decode1_tenMarks hmark hlong.le, decode1_tenMarks (pol_pulse ..) hten.ge]
    refine ⟨_, _, execPdec_eq s, execPdec_eq _, ?_⟩
    simp only [pdecPulse, hsame, finishWith_dec, finishWith_decOut, finishWith_result, and_self]

/-! ## Flags -/

/-- A pulse is a break, or goes through the frame machine as at most ten bits of its polarity (R110, R112). -/
theorem decode1_cases (P : Params) (d : Decoder) (w : Word) :
    (pol w = .space ∧
      decode1 P d w = ({ pos := 1, par := 0, data := 0 }, { DecOut.none with bd := true, kind := .breakDetected })) ∨
    ∃ n ≤ 10, decode1 P d w =
      ((stepBits (pol w) n (d, DecOut.none)).1, summarise (stepBits (pol w) n (d, DecOut.none)).2) := by
  rcases Nat.lt_or_ge 10 (bitCount P w) with hlong | hshort
  · cases hp : pol w with
    | space => exact .inl ⟨rfl, decode1_break hp hlong d⟩
    | mark => exact .inr ⟨10, le_rfl, decode1_longMark hp hlong d⟩
  · exact .inr ⟨_, hshort, decode1_of_le hshort d⟩

/-- A framing error is most severe but for a break (R119). -/
theorem worst_of_not_break (pe fe : Bool) :
    (fe = true → worst pe fe false = .framingError) ∧ (pe = true → fe = false → worst pe fe false = .parityError) ∧
      (pe = false → fe = false → worst pe fe false = .ok) := by
  cases pe <;> cases fe <;> decide

/-- Settles O26: a break flags nothing else; in any other decode the flags are those of its bits. -/
theorem decodeFlagCombinations : Obligations.DecodeFlagCombinations := by
  rintro P d w o - rfl
  obtain ⟨hspace, hbreak⟩ | ⟨n, -, hbits⟩ := decode1_cases P d w
  · rw [hbreak]
    exact ⟨fun _ => ⟨rfl, rfl, rfl, rfl⟩, nofun, nofun, fun _ => hspace, nofun, nofun, nofun⟩
  · obtain ⟨hpe, hfe, hbd⟩ := stepBits_flags (pol w) n (d, DecOut.none) nofun nofun
    rw [hbits]
    generalize (stepBits (pol w) n (d, DecOut.none)).2 = o at hpe hfe hbd
    have hbd : o.bd = false := hbd
    obtain ⟨hframing, hparity, hok⟩ := worst_of_not_break o.pe o.fe
    have hkind : (summarise o).kind = worst o.pe o.fe false := by rw [summarise, hbd]
    rw [hkind]
    exact ⟨fun hb => absurd (hb.symm.trans hbd) (by decide), hpe, hfe, fun hb => absurd (hb.symm.trans hbd) (by decide),
      hframing, hparity, fun hp hf _ => hok hp hf⟩

end Sys2Proof.Machine
end

section
/-! A pulse of several bits is that many pulses of one bit (R110, R118): its flags are theirs together, and the byte it
emits is the last they emit. Two parity bits lie eleven bits apart, so ten bits emit at most one byte. -/

namespace Sys2Proof.Machine

/-! ## What one bit adds to an outcome -/

/-- One bit moves the decoder by itself, and adds to the outcome so far what it gives on its own. -/
theorem stepBit_adds (p : Polarity) (d : Decoder) (o : DecOut) :
    (stepBit p (d, o)).1 = (stepBit p (d, DecOut.none)).1 ∧
    (stepBit p (d, o)).2.pe = (o.pe || (stepBit p (d, DecOut.none)).2.pe) ∧
    (stepBit p (d, o)).2.fe = (o.fe || (stepBit p (d, DecOut.none)).2.fe) ∧
    emitted [(stepBit p (d, o)).2] = (emitted [o, (stepBit p (d, DecOut.none)).2]).getLast?.toList := by
  have hnone (u : DecOut) (hbv : u.bv = o.bv) (hbyte : u.byte = o.byte) (w : DecOut) (hw : w.bv = false) :
      emitted [u] = (emitted [o, w]).getLast?.toList := by
    cases h : o.bv <;> simp [emitted, hbv, hbyte, hw, h]
  have hbyte (u : DecOut) (hu : u.bv = true) (w : DecOut) (hw : w.bv = true) (huw : u.byte = w.byte) :
      emitted [u] = (emitted [o, w]).getLast?.toList := by
    cases h : o.bv <;> simp [emitted, hu, huw, hw, h]
  unfold stepBit
  dsimp only
  split_ifs
  · cases p <;> exact ⟨rfl, (Bool.or_false _).symm, (Bool.or_false _).symm, hnone _ rfl rfl _ rfl⟩
  · exact ⟨rfl, (Bool.or_false _).symm, (Bool.or_false _).symm, hnone _ rfl rfl _ rfl⟩
  · exact ⟨rfl, (Bool.or_true _).symm, (Bool.or_false _).symm, hbyte _ rfl _ rfl rfl⟩
  · exact ⟨rfl, (Bool.or_false _).symm, (Bool.or_false _).symm, hbyte _ rfl _ rfl rfl⟩
  · exact ⟨rfl, (Bool.or_false _).symm, (Bool.or_true _).symm, hnone { o with fe := true } rfl rfl _ rfl⟩
  · exact ⟨rfl, (Bool.or_false _).symm, (Bool.or_false _).symm, hnone _ rfl rfl _ rfl⟩

@[simp] theorem emitted_summarise (o : DecOut) : emitted [summarise o] = emitted [o] := by
  cases h : o.bv <;> simp [emitted, summarise, h]

theorem getLast?_append_toList {α : Type} (us vs : List α) :
    (us.getLast?.toList ++ vs).getLast?.toList = (us ++ vs).getLast?.toList := by
  cases h : us.getLast? <;> simp [List.getLast?_append, List.getLast?_cons, h]

section
variable {P : Params} {v : Word}

/-- The bits of a pulse, taken one after another, add up the outcomes of as many pulses of one bit. -/
theorem stepBits_adds (hv : bitCount P v = 1) (n : Nat) (d : Decoder) (o : DecOut) :
    (stepBits (pol v) n (d, o)).1 = (decodeAll P d (List.replicate n v)).1 ∧
    (stepBits (pol v) n (d, o)).2.pe = (o.pe || (decodeAll P d (List.replicate n v)).2.any (·.pe)) ∧
    (stepBits (pol v) n (d, o)).2.fe = (o.fe || (decodeAll P d (List.replicate n v)).2.any (·.fe)) ∧
    emitted [(stepBits (pol v) n (d, o)).2] =
      (emitted (o :: (decodeAll P d (List.replicate n v)).2)).getLast?.toList := by
  induction n generalizing d o with
  | zero =>
    refine ⟨rfl, by simp [decodeAll, stepBits], by simp [decodeAll, stepBits], ?_⟩
    cases h : o.bv <;> simp [stepBits, decodeAll, emitted, h]
  | succ n ih =>
    obtain ⟨hd, hpe, hfe, hem⟩ := stepBit_adds (pol v) d o
    obtain ⟨ihd, ihpe, ihfe, ihem⟩ := ih (stepBit (pol v) (d, o)).1 (stepBit (pol v) (d, o)).2
    rw [List.replicate_succ, decodeAll, decode1_oneBit hv]
    simp only [stepBits, Prod.eta] at ihd ihpe ihfe ihem ⊢
    rw [hd] at ihd ihpe ihfe ihem
    refine ⟨ihd, ?_, ?_, ?_⟩
    · rw [ihpe, hpe, List.any_cons, Bool.or_assoc]
      rfl
    · rw [ihfe, hfe, List.any_cons, Bool.or_assoc]
      rfl
    · rw [ihem, emitted_cons, hem, getLast?_append_toList, emitted_cons o [_], emitted_cons o (_ :: _),
        emitted_cons (summarise _), emitted_summarise, List.append_assoc]

/-! ## How far apart two bytes are -/

/-- How many bits it takes at least until the next parity bit is through (R114 to R117). -/
def bitsToParity (d : Decoder) : Nat := if d.pos.toNat = 10 then 11 else 10 - d.pos.toNat

/-- A bit that is no parity bit emits nothing and brings the parity bit at most one bit nearer. -/
theorem stepBit_silent (p : Polarity) {d : Decoder} (hd : d.pos.toNat ≤ 10) (h9 : d.pos.toNat ≠ 9) :
    emitted [(stepBit p (d, DecOut.none)).2] = [] ∧
      bitsToParity d ≤ bitsToParity (stepBit p (d, DecOut.none)).1 + 1 := by
  obtain h0 | ⟨h1, h8⟩ | h10 : d.pos.toNat = 0 ∨ (1 ≤ d.pos.toNat ∧ d.pos.toNat ≤ 8) ∨ d.pos.toNat = 10 := by omega
  · rw [stepBit_start p _ h0]
    refine ⟨rfl, ?_⟩
    cases p <;> simp [bitsToParity, h0]
  · rw [stepBit_data h1 h8]
    refine ⟨rfl, ?_⟩
    have hpos := toNat_succ4 d.pos (by omega)
    simp only [bitsToParity, hpos]
    split_ifs <;> omega
  · rw [stepBit_stop p _ h10]
    exact ⟨rfl, by simp [bitsToParity, h10]⟩

theorem emitted_oneBit (hv : bitCount P v = 1) (n : Nat) (d : Decoder) :
    emitted (decodeAll P d (List.replicate (n + 1) v)).2 =
      emitted [(stepBit (pol v) (d, DecOut.none)).2] ++
        emitted (decodeAll P (stepBit (pol v) (d, DecOut.none)).1 (List.replicate n v)).2 := by
  rw [List.replicate_succ, decodeAll, decode1_oneBit hv, emitted_cons, emitted_summarise]

/-- Bits that do not reach a parity bit emit nothing. -/
theorem emitted_before_parity (hv : bitCount P v = 1) {n : Nat} {d : Decoder} (hd : d.pos.toNat ≤ 10)
    (hn : n < bitsToParity d) : emitted (decodeAll P d (List.replicate n v)).2 = [] := by
  induction n generalizing d with
  | zero => rfl
  | succ n ih =>
    have h9 : d.pos.toNat ≠ 9 := fun h => by simp [bitsToParity, h] at hn
    obtain ⟨hnone, hnear⟩ := stepBit_silent (pol v) hd h9
    rw [emitted_oneBit hv, hnone, ih (stepBit_pos_le _ _ hd) (by omega), List.append_nil]

/-- Ten bits emit at most one byte (R118): the parity bit leaves the decoder eleven bits before the next. -/
theorem emitted_tenBits (hv : bitCount P v = 1) {n : Nat} {d : Decoder} (hd : d.pos.toNat ≤ 10) (hn : n ≤ 10) :
    (emitted (decodeAll P d (List.replicate n v)).2).length ≤ 1 := by
  induction n generalizing d with
  | zero => exact Nat.zero_le _
  | succ n ih =>
    rw [emitted_oneBit hv]
    by_cases h9 : d.pos.toNat = 9
    · have hfar : n < bitsToParity (stepBit (pol v) (d, DecOut.none)).1 := by
        rw [stepBit_parity h9]
        exact Nat.lt_succ_of_le (Nat.le_of_succ_le hn)
      rw [emitted_before_parity hv (stepBit_pos_le _ _ hd) hfar, stepBit_parity h9]
      exact le_rfl
    · obtain ⟨hnone, -⟩ := stepBit_silent (pol v) hd h9
      rw [hnone]
      exact ih (stepBit_pos_le _ _ hd) (by omega)

/-- One-bit pulses are no breaks (R112). -/
theorem bd_of_oneBits (hv : bitCount P v = 1) (n : Nat) (d : Decoder) :
    ∀ o ∈ (decodeAll P d (List.replicate n v)).2, o.bd = false := by
  induction n generalizing d with
  | zero => nofun
  | succ n ih => exact List.forall_mem_cons.2 ⟨decode1_bd (by omega), ih _⟩

end

/-- Settles O23: the bits add up, and of at most one emitted byte the last is the only one. -/
theorem pulseIsItsBits : Obligations.PulseIsItsBits := by
  intro P d w v hw hv hpol hd
  obtain ⟨hdec, hpe, hfe, hem⟩ := stepBits_adds hv (bitCount P w) d DecOut.none
  have hone := emitted_tenBits hv hd hw
  rw [hpol] at hdec hpe hfe hem
  have hlast : emitted [(decode1 P d w).2] = emitted (decodeAll P d (List.replicate (bitCount P w) v)).2 := by
    rw [decode1_of_le hw, emitted_summarise, hem, emitted_cons]
    match emitted (decodeAll P d (List.replicate (bitCount P w) v)).2, hone with
    | [], _ => rfl
    | [b], _ => rfl
  have hbd : (decode1 P d w).2.bd = false := decode1_bd hw
  refine ⟨?_, hone, hlast, ?_, ?_, hbd, bd_of_oneBits hv _ d⟩
  · rw [decode1_of_le hw, hdec]
  · rw [decode1_of_le hw]
    exact (iff_of_eq (congrArg (· = true) hpe)).trans List.any_eq_true
  · rw [decode1_of_le hw]
    exact (iff_of_eq (congrArg (· = true) hfe)).trans List.any_eq_true

end Sys2Proof.Machine
end

section
/-! The packet codec: what KENC writes (R74, R130), that it depends on its payload alone (R133), which packets KDEC
accepts and what it writes of the others (R136 to R143), and elements with no value (U6). -/

namespace Sys2Proof.Machine

/-! ## The bytes of a packet -/

/-- A packet is its header and the pairs of the payload and its checksum (R74). -/
theorem packetOf_eq (ds : List Byte) :
    packetOf ds = [Config.header0, Config.header1, Config.header2] ++ pairs (ds ++ [checksum ds]) := by
  have happend (es : List Byte) (c : Byte) : pairs (es ++ [c]) = pairs es ++ [c, complement c] := by
    induction es with
    | nil => rfl
    | cons e es ih => simp [pairs, ih]
  rw [happend, packetOf, List.append_assoc]

theorem packetOf_header (ds : List Byte) {j : Nat} (h : j < 3) :
    (packetOf ds)[j]? = [Config.header0, Config.header1, Config.header2][j]? := by
  rw [packetOf_eq, List.getElem?_append_left h]

/-- Byte d at place i of the payload and its checksum stands in the packet, followed by its complement. -/
theorem packetOf_pair {ds : List Byte} {i : Nat} {d : Byte} (h : (ds ++ [checksum ds])[i]? = some d) :
    (packetOf ds)[3 + 2 * i]? = some d ∧ (packetOf ds)[4 + 2 * i]? = some (complement d) := by
  obtain ⟨hd, he⟩ := pairs_get _ _ _ h
  rw [packetOf_eq, List.getElem?_append_right (by simp), List.getElem?_append_right (by simp; omega)]
  refine ⟨?_, ?_⟩
  · rw [← hd]
    congr 1
    simp
  · rw [← he]
    congr 1
    simp
    omega

/-! ## KENC -/

/-- Settles O29: the packet is written as it stands in `packetOf`, whose bytes are read off one by one. -/
theorem kencWritesThePacket : Obligations.KencWritesThePacket := by
  intro s ds hP hds harg hpkt
  have hlen : s.arg0.toNat = ds.length := (readElems_length hds).symm
  have hle := pktCap_le hP
  rw [hlen] at hds harg hpkt ⊢
  have hread {j : Nat} {v : Byte} (h : (packetOf ds)[j]? = some v) :
      readElem (writeElems s.mem .pkt 0 (packetOf ds)) .pkt j = some v := packet_get s.mem ds j v h
  have hsum : (ds ++ [checksum ds])[ds.length]? = some (BitVec.ofNat 8 (ds.map (·.toNat)).sum) := by
    simp [checksum_eq]
  refine ⟨_, execKenc_packetOf hlen hds (Nat.le_min.2 ⟨harg, hpkt⟩) (by omega), rfl, ?_⟩
  refine ⟨hread (packetOf_header ds (by decide)), hread (packetOf_header ds (by decide)),
    hread (packetOf_header ds (by decide)), fun i d hd => ?_, hread (packetOf_pair hsum).1, ?_, fun a ha => ?_⟩
  · have hd' : (ds ++ [checksum ds])[i]? = some d := by
      rw [List.getElem?_append_left (List.getElem?_eq_some_iff.1 hd).1, hd]
    rw [← complement_eq_not]
    exact ⟨hread (packetOf_pair hd').1, hread (packetOf_pair hd').2⟩
  · rw [← complement_eq_not]
    exact hread (packetOf_pair hsum).2
  · exact readByte_writeElems_outside ha (packetOf_length ds).le

/-- The packet KENC has written is read back, whatever else memory holds. -/
theorem readElems_packet (m : Memory) (ds : List Byte) :
    readElems (writeElems m .pkt 0 (packetOf ds)) .pkt 0 (2 * ds.length + 5) = some (packetOf ds) := by
  rw [← packetOf_length, readElems_writeElems_same]

/-- Settles O31: both states take the same branch of `pack`, and in the one that writes they write the same packet. -/
theorem kencIsPure : Obligations.KencIsPure := by
  intro s u t v hparams hP h0 h1 hpayload ht hv
  have hcap : kencCap u = kencCap s := by simp only [kencCap, hparams, h1]
  have hlen : lengthOperand u = lengthOperand s := by simp only [lengthOperand, h0]
  have hle : kencCap s ≤ 0x1000 := (Nat.min_le_right ..).trans ((pktCap_le hP).trans (by decide))
  obtain ⟨m, c, n, hp, rfl⟩ := execKenc_cases ht
  obtain ⟨m', c', n', hp', rfl⟩ := execKenc_cases hv
  rw [hcap, hlen] at hp'
  obtain ⟨hover, -, rfl, rfl⟩ | ⟨hfits, rfl, rfl, ds, hds, rfl⟩ := pack_cases hp hle
  · obtain ⟨-, -, rfl, rfl⟩ | ⟨hfits', -⟩ := pack_cases hp' hle
    · exact ⟨rfl, rfl, rfl⟩
    · exact absurd hover (Nat.not_lt.2 hfits')
  · obtain ⟨hover', -⟩ | ⟨-, rfl, rfl, ds', hds', rfl⟩ := pack_cases hp' hle
    · exact absurd hover' (Nat.not_lt.2 hfits)
    · have hds'' : readElems u.mem .txd 0 u.arg0.toNat = some ds' := h0 ▸ hds'
      obtain rfl : ds = ds' := Option.some.inj (hds.symm.trans (hpayload.trans hds''))
      have hresult : (BitVec.ofNat 32 (2 * lengthOperand s + 5)).toNat = 2 * ds.length + 5 := by
        rw [BitVec.toNat_ofNat, readElems_length hds, Nat.mod_eq_of_lt (by omega)]
      refine ⟨rfl, rfl, ?_⟩
      simp only [finishWith_result, finishWith_mem, hresult, readElems_packet]

/-! ## KDEC -/

/-- `unpack` fails by its capacity test exactly when the payload is longer than the capacity (R137). -/
theorem unpack_tooSmall_iff {len cap : Nat} {m m' : Memory} {c : Code} {k : Nat} (h : unpack len cap m = some (m', c, k))
    (hcap : cap ≤ 0x2000) : c = .bufferTooSmall ↔ 5 ≤ len ∧ cap < (len - 5) / 2 := by
  constructor
  · rintro rfl
    obtain ⟨-, -, -, h5, hlt⟩ | ⟨hc, -⟩ | ⟨hc, -⟩ := unpack_cases h hcap
    · exact ⟨h5, hlt⟩
    · cases hc
    · cases hc
  · rintro ⟨h5, hlt⟩
    rw [unpack_tooSmall m h5 hlt] at h
    cases h
    rfl

/-- Settles O32: `unpack` answers, accepts by `unpack_ok_iff`, and has written the bytes of `delivered`. -/
theorem kdecAcceptsExactlyPackets : Obligations.KdecAcceptsExactlyPackets := by
  intro s ps hP hlen hps
  have hcap := payloadCap_le hP
  obtain ⟨c, k, hu⟩ := unpack_delivered hps hcap
  obtain ⟨hcode, hzero⟩ := unpack_result hu
  have hrxd {ds : List Byte} (hds : ds = delivered (payloadCap s) ps) :
      readElems (writeElems s.mem .rxd 0 (delivered (payloadCap s) ps)) .rxd 0 ds.length = some ds ∧
      ∀ a, Outside .rxd 0 ds.length a →
        readByte (writeElems s.mem .rxd 0 (delivered (payloadCap s) ps)) a = readByte s.mem a := by
    rw [← hds]
    exact ⟨readElems_writeElems_same .., fun a ha => readByte_writeElems_outside ha le_rfl⟩
  refine ⟨_, execKdec_unpack hlen hu, rfl, ?_, unpack_tooSmall_iff hu hcap, by simpa using hcode, fun hne => ?_,
    fun ds hok hpacket => ?_, fun ds hds => hrxd hds⟩
  · rw [finishWith_code, unpack_ok_iff hps hcap hu]
    simp only [payloadCap, Nat.le_min]
  · rw [finishWith_result, hzero hne]
    rfl
  · obtain ⟨es, hes, hfits⟩ := (unpack_ok_iff hps hcap hu).1 hok
    obtain rfl : es = ds := packetOf_inj (hes.symm.trans hpacket)
    subst hpacket
    have hl : s.arg0.toNat = 2 * es.length + 5 := (readElems_length hps).symm.trans (packetOf_length es)
    have hk : k = es.length := by
      have hu' := unpack_packetOf (hl ▸ hps) hfits hcap
      rw [← hl] at hu'
      simpa using congrArg (Option.map (·.2.2)) (hu.symm.trans hu')
    refine ⟨?_, hrxd (delivered_packetOf hfits).symm⟩
    rw [finishWith_result, hk, BitVec.toNat_ofNat, Nat.mod_eq_of_lt (by omega)]

/-- The header of a packet with more bytes after it is found (R138). -/
theorem headerCursor_of_readElems {m : Memory} {n : Nat} {ps : List Byte}
    (h : readElems m .pkt 0 n = some ([Config.header0, Config.header1, Config.header2] ++ ps)) :
    headerCursor m = some 3 := by
  obtain ⟨-, hk⟩ := (readElems_eq_some_iff ..).1 h
  have hn : n = ps.length + 3 := by simpa using (readElems_length h).symm
  have h0 := hk 0 (by omega)
  have h1 := hk 1 (by omega)
  have h2 := hk 2 (by omega)
  simp only [Nat.zero_add] at h0 h1 h2
  simp [headerCursor, headerTest, h0, h1, h2]

/-- `unpack` of a packet whose first wrong pair follows the pairs of ds (R139). -/
theorem unpack_badPair {cap L : Nat} {m : Memory} {ds : List Byte} {d e : Byte} (hcap : cap ≤ 0x2000) (hL : L ≤ cap)
    (hlt : ds.length < L)
    (h : readElems m .pkt 0 (3 + 2 * ds.length) = some ([Config.header0, Config.header1, Config.header2] ++ pairs ds))
    (hd : readElem m .pkt (3 + 2 * ds.length) = some d) (he : readElem m .pkt (4 + 2 * ds.length) = some e)
    (hne : e ≠ complement d) : unpack (2 * L + 5) cap m = some (writeElems m .rxd 0 ds, .notAPacket, 0) := by
  have hcur := headerCursor_of_readElems h
  have hpairs : readElems m .pkt 3 (2 * ds.length) = some (pairs ds) := by simpa using (readElems_append h).2
  have hL' : (2 * L + 5 - 5) / 2 = L := by omega
  obtain ⟨sum, hbad⟩ := unpackPairs_bad (sum := 0) (k := 0) hpairs hlt (by omega) hcap hd
    (by rw [← he]; congr 1; omega) hne
  unfold unpack
  rw [if_neg (by omega), if_neg (by omega), hcur, hL']
  simp only [ne_eq, not_true_eq_false, if_false]
  rw [hbad]

/-- Settles O34: `unpack` stops at the first wrong pair. -/
theorem kdecPartialOutput : Obligations.KdecPartialOutput := by
  intro s ds d e L hP hlen harg hmax hlt hps hd he hne
  have hpkt : lengthOperand s ≤ s.params.pktCap := by
    simp only [lengthOperand, Params.pktCap]
    omega
  have hu : unpack (lengthOperand s) (payloadCap s) s.mem = some (writeElems s.mem .rxd 0 ds, .notAPacket, 0) := by
    rw [lengthOperand, hlen]
    exact unpack_badPair (payloadCap_le hP) (Nat.le_min.2 ⟨harg, hmax⟩) hlt hps hd he
      (fun h => hne ((eq_complement_iff d e).1 h))
  exact ⟨_, execKdec_unpack hpkt hu, rfl, readElems_writeElems_same .., fun a ha =>
    readByte_writeElems_outside ha le_rfl⟩

/-! ## A flipped bit -/

theorem flipped_ne (b : Byte) {k : Nat} (hk : k < 8) : b ^^^ BitVec.ofNat 8 (2 ^ k) ≠ b := by
  intro h
  have hzero : BitVec.ofNat 8 (2 ^ k) = 0#8 := by
    simpa [← BitVec.xor_assoc] using congrArg (b ^^^ ·) h
  interval_cases k <;> exact absurd hzero (by decide)

/-- In a packet each byte is determined by the others (R143): the header is fixed, the rest are pairs. -/
theorem packetOf_set {ds es : List Byte} {j : Nat} {b : Byte} (h : (packetOf ds).set j b = packetOf es)
    (hj : j < (packetOf ds).length) : (packetOf ds)[j]? = some b := by
  have hlen : es.length = ds.length := by
    have := congrArg List.length h
    simp only [List.length_set, packetOf_length] at this
    omega
  have hself : (packetOf es)[j]? = some b := by rw [← h, List.getElem?_set_self hj]
  have hother (i : Nat) (hi : j ≠ i) : (packetOf es)[i]? = (packetOf ds)[i]? := by
    rw [← h, List.getElem?_set_ne hi]
  rw [packetOf_length] at hj
  rw [← hself]
  obtain hhead | ⟨i, hi, hji⟩ : j < 3 ∨ ∃ i ≤ ds.length, j = 3 + 2 * i ∨ j = 4 + 2 * i := by
    refine or_iff_not_imp_left.2 fun hge => ⟨(j - 3) / 2, by omega, by omega⟩
  · rw [packetOf_header ds hhead, packetOf_header es hhead]
  · obtain ⟨d, hd⟩ : ∃ d, (ds ++ [checksum ds])[i]? = some d :=
      ⟨_, List.getElem?_eq_getElem (by simp; omega)⟩
    obtain ⟨e, he⟩ : ∃ e, (es ++ [checksum es])[i]? = some e :=
      ⟨_, List.getElem?_eq_getElem (by simp; omega)⟩
    obtain ⟨hd0, hd1⟩ := packetOf_pair hd
    obtain ⟨he0, he1⟩ := packetOf_pair he
    suffices e = d by obtain rfl | rfl := hji <;> simp only [hd0, hd1, he0, he1, this]
    obtain rfl | rfl := hji
    · have hc := hother (4 + 2 * i) (by omega)
      rw [hd1, he1] at hc
      rw [← complement_complement e, Option.some.inj hc, complement_complement]
    · have hc := hother (3 + 2 * i) (by omega)
      rw [hd0, he0] at hc
      exact Option.some.inj hc

/-- Settles O36: a flipped packet is no packet, and its length passes the tests. -/
theorem singleBitFlipIsDetected : Obligations.SingleBitFlipIsDetected := by
  intro s ds j k b hP hlen harg hmax hb hk hps
  have hpkt : s.arg0.toNat ≤ s.params.pktCap := by
    simp only [Params.pktCap]
    omega
  obtain ⟨t, ht, -, hok, hsmall, hcode, hresult, -⟩ := kdecAcceptsExactlyPackets s _ hP hpkt (hlen ▸ hps)
  have hnok : t.code ≠ .ok := fun h => by
    obtain ⟨es, hes, -⟩ := hok.1 h
    have hsame := packetOf_set hes (List.getElem?_eq_some_iff.1 hb).1
    exact flipped_ne b hk (Option.some.inj (hsame.symm.trans hb))
  have hnsmall : t.code ≠ .bufferTooSmall := fun h => by
    obtain ⟨-, hlt⟩ := hsmall.1 h
    omega
  exact ⟨t, ht, (hcode.resolve_left hnok).resolve_left hnsmall, hresult hnok⟩

/-! ## Elements with no value -/

/-- Settles O53: each operation's first read of such an element leaves it without a next state. -/
theorem unwrittenElementsStop : Obligations.UnwrittenElementsStop := by
  intro s hP
  have hle := pktCap_le hP
  refine ⟨fun harg hpkt hnone => ?_, fun L hlen harg hmax hnone => ?_, fun hne hnone => ?_, fun hmax hnone => ?_⟩
  · have hp : pack (lengthOperand s) (kencCap s) s.mem = none :=
      pack_none hnone (Nat.le_min.2 ⟨harg, hpkt⟩) ((Nat.min_le_right ..).trans (by omega))
    show execKenc s = _
    rw [execKenc, hp]
    rfl
  · have hshort : ¬ s.params.pktCap < lengthOperand s := by
      simp only [lengthOperand, Params.pktCap]
      omega
    have hcap : L ≤ payloadCap s := Nat.le_min.2 ⟨harg, hmax⟩
    have hu : unpack (lengthOperand s) (payloadCap s) s.mem = none := by
      rw [unpack, lengthOperand, if_neg (by omega), if_neg (by omega), headerCursor, headerTest, hnone]
    show execKdec s = _
    rw [execKdec, if_neg hshort, hu]
    rfl
  · have hlen : lengthOperand s ≠ 0 := fun h => hne (BitVec.eq_of_toNat_eq h)
    show execCommand s = _
    rw [execCommand, if_neg hlen, hnone]
    rfl
  · have hne : lengthOperand s ≠ 0 := fun h => by
      have h : s.arg0.toNat = 0 := h
      simp [h, readElems] at hnone
    have hp : pack (lengthOperand s) s.params.pktCap s.mem = none :=
      pack_none hnone (by simp only [lengthOperand, Params.pktCap]; omega) (by omega)
    show execCommand s = _
    rw [execCommand, if_neg hne, hp]
    cases readElem s.mem .txd 0 <;> rfl

end Sys2Proof.Machine
end

section
/-! OPEN, CLOSE and RESET (R155 to R157), and the phases of COMMAND one by one (R161 to R165, R169): what each answers
when what it reads is there. -/

namespace Sys2Proof.Machine

/-! ## The link operations -/

/-- Settles O38: CLOSE has one answer. -/
theorem closeIsAlwaysOk : Obligations.CloseIsAlwaysOk := fun s => execClose_eq s

/-- Settles O37: the code is the answer's, which the script determines when it has one. -/
theorem openPassesThrough : Obligations.OpenPassesThrough := by
  intro s
  have hscript (a : OpenAnswer) (rest : List OpenAnswer) (h : s.transport.opens = a :: rest) :
      openCode (askOpen s).1 = openCode a ∧ (askOpen s).2.transport = { s.transport with opens := rest } := by
    simp only [askOpen, h, issue_transport, and_self]
  refine ⟨openCode (askOpen s).1, (askOpen s).2.transport, (askOpen s).2.draws, ?_, ?_, hscript .alreadyOpen,
    fun rest h => (hscript _ rest h).1, fun rest h => (hscript _ rest h).1, fun rest h => (hscript _ rest h).1,
    fun rest h => (hscript _ rest h).1⟩
  · cases (askOpen s).1 <;> decide
  · obtain ⟨tr, d, hst⟩ := askOpen_state s
    show execOpen s = _
    rw [execOpen, hst]
    rfl

/-- Settles O39: as OPEN, with the answers of a reset request. -/
theorem resetPassesThrough : Obligations.ResetPassesThrough := by
  intro s
  have hscript (a : ResetAnswer) (rest : List ResetAnswer) (h : s.transport.resets = a :: rest) :
      resetCode (askReset s).1 = resetCode a ∧ (askReset s).2.transport = { s.transport with resets := rest } := by
    simp only [askReset, h, issue_transport, and_self]
  refine ⟨resetCode (askReset s).1, (askReset s).2.transport, (askReset s).2.draws, ?_, ?_, hscript .notOpen,
    fun rest h => (hscript _ rest h).1, fun rest h => (hscript _ rest h).1⟩
  · cases (askReset s).1 <;> decide
  · obtain ⟨tr, d, hst⟩ := askReset_state s
    show execReset s = _
    rw [execReset, hst]
    rfl

/-! ## The block's move in each phase of COMMAND -/

section
variable {s : State}

theorem blockStep_encPkt (h : s.phase = .encPkt) (hcmd : decode s.cmd = .ok .command) :
    blockStep s = execCommand s := by
  rw [blockStep_start (by rw [h]; rfl), runOperation_ok hcmd, exec]

theorem blockStep_encPls (h : s.phase = .encPls) : blockStep s = phaseEncPls s := by
  rw [blockStep_later (by rw [h]; rfl), continueCommand, h]

theorem blockStep_send (h : s.phase = .send) : blockStep s = phaseSend s := by
  rw [blockStep_later (by rw [h]; rfl), continueCommand, h]

theorem blockStep_recv (h : s.phase = .recv) : blockStep s = phaseRecv s := by
  rw [blockStep_later (by rw [h]; rfl), continueCommand, h]

theorem blockStep_tail (h : s.phase = .tail) : blockStep s = phaseTail s := by
  rw [blockStep_later (by rw [h]; rfl), continueCommand, h]

theorem blockStep_decPls (h : s.phase = .decPls) : blockStep s = phaseDecPls s := by
  rw [blockStep_later (by rw [h]; rfl), continueCommand, h]

theorem blockStep_decPkt (h : s.phase = .decPkt) : blockStep s = phaseDecPkt s := by
  rw [blockStep_later (by rw [h]; rfl), continueCommand, h]

theorem blockStep_check (h : s.phase = .check) : blockStep s = phaseCheck s := by
  rw [blockStep_later (by rw [h]; rfl), continueCommand, h]

/-! ## Encoding the request -/

/-- The state after phase `ENC_PKT` of a legal request (R161). -/
def requestPacked (op : Byte) (req : List Byte) (s : State) : State :=
  { openTransaction op s with mem := writeElems s.mem .pkt 0 (packetOf req), phase := .encPls }

/-- The state after phase `ENC_PLS` when `PKT` holds the packet ps (R162). -/
def packetEncoded (ps : List Byte) (s : State) : State :=
  { s with
    mem := writePulses s.mem 0 (pulsesOf s.params ps), txCount := count16 (pulsesOf s.params ps).length, phase := .send }

/-- A legal request is packed (R161). -/
theorem execCommand_request {op : Byte} {req : List Byte} (hP : s.params.Legal) (hop : req.head? = some op)
    (hlen : req.length = lengthOperand s) (hmax : req.length ≤ s.params.maxPayload)
    (hreq : readElems s.mem .txd 0 req.length = some req) : execCommand s = .next (requestPacked op req s) := by
  obtain ⟨more, rfl⟩ : ∃ more, req = op :: more := List.head?_eq_some_iff.1 hop
  have hle := hP.maxPayload_le
  have hfits : 2 * (op :: more).length + 5 ≤ s.params.pktCap := by
    unfold Params.pktCap
    omega
  have hne : lengthOperand s ≠ 0 := hlen ▸ Nat.succ_ne_zero _
  have hp := pack_of_readElems hreq hfits (by omega)
  rw [hlen] at hp
  exact execCommand_packs hne (readElems_cons hreq).1 hp

/-- A packet of legal parameters is encoded (R162). -/
theorem phaseEncPls_packet {ps : List Byte} (hP : s.params.Legal) (hfits : 2 * lengthOperand s + 5 ≤ s.params.pktCap)
    (hps : readElems s.mem .pkt 0 (2 * lengthOperand s + 5) = some ps) :
    phaseEncPls s = .next (packetEncoded ps s) :=
  phaseEncPls_encodes (encodeBytes_packet hP hfits hps).1

/-- `TX_COUNT` holds the number of pulses, which stand in `PLS` (R162). -/
theorem packetEncoded_pulses {ps : List Byte} (hP : s.params.Legal) (hfits : ps.length ≤ s.params.pktCap) :
    (packetEncoded ps s).txCount.toNat = (pulsesOf s.params ps).length ∧
      readPulses (packetEncoded ps s).mem 0 (packetEncoded ps s).txCount.toNat = some (pulsesOf s.params ps) := by
  have hlen := pulsesOf_length_le s.params ps
  have hpkt := pktCap_le hP
  have hcount : (packetEncoded ps s).txCount.toNat = (pulsesOf s.params ps).length := count16_toNat (by omega)
  exact ⟨hcount, by rw [hcount]; exact readPulses_writePulses_same ..⟩

end

/-- Settles O42: `execCommand_request`, and the packet read back. -/
theorem commandPacksTheRequest : Obligations.CommandPacksTheRequest := by
  intro s ds hP hpos hmax hds
  have hlen := readElems_length hds
  obtain ⟨op, hop⟩ : ∃ op, ds.head? = some op := by
    cases ds with
    | nil => simp at hlen; omega
    | cons op ds => exact ⟨op, rfl⟩
  rw [← hlen] at hds hmax ⊢
  refine ⟨_, execCommand_request hP hop hlen hmax hds, ⟨op, hop, rfl⟩, readElems_packet .., fun a ha => ?_⟩
  exact readByte_writeElems_outside ha (packetOf_length ds).le

/-- Settles O43: the phase by `phaseEncPls_packet`; each byte has 2 to 10 segments. -/
theorem commandEncodesThePacket : Obligations.CommandEncodesThePacket := by
  intro s ps hP hmove hphase hfits hps
  have hlen := readElems_length hps
  obtain ⟨hcount, hread⟩ := packetEncoded_pulses (s := s.popInput) (ps := ps) hP (hlen.trans_le hfits)
  have hlo := le_pulsesOf_length s.params ps
  have hhi := pulsesOf_length_le s.params ps
  rw [hlen] at hlo hhi
  have hcount' : (packetEncoded ps s.popInput).txCount.toNat = (pulsesOf s.params ps).length := hcount
  refine ⟨packetEncoded ps s.popInput, ?_, rfl, hcount, hread, by omega, by omega, fun a ha => ?_⟩
  · rw [step_of_blockMoves hmove, blockStep_encPls (s := s.popInput) hphase]
    exact phaseEncPls_packet hP hfits hps
  · exact readByte_writePulses_outside ha hcount'.ge

/-! ## Sending -/

/-- Settles O44: the phase by the answer it gets. -/
theorem commandSendsOnce : Obligations.CommandSendsOnce := by
  intro s ws hmove hphase hws
  obtain ⟨tr, d, hst⟩ := askSend_state ws s.popInput
  have hstep : step s = _ :=
    (step_of_blockMoves hmove).trans ((blockStep_send (s := s.popInput) hphase).trans (phaseSend_asks hws))
  rw [hst] at hstep
  have hscript : ∀ x rest, s.transport.sends = x :: rest → (askSend ws s.popInput).1 = x := fun x rest hx => by
    simp only [askSend, State.popInput_transport, hx]
  by_cases hok : (askSend ws s.popInput).1 = .ok
  · exact ⟨_, tr, d, _, hstep.trans (if_pos hok), hscript, fun _ => rfl, fun hne => absurd hok hne⟩
  · refine ⟨_, tr, d, _, hstep.trans (if_neg hok), hscript, fun h => absurd h hok, fun _ => ?_⟩
    cases ha : (askSend ws s.popInput).1 with
    | ok => exact absurd ha hok
    | notOpen => exact ⟨.notOpen, .inl ⟨rfl, rfl⟩, rfl⟩
    | deviceError => exact ⟨.deviceError, .inr ⟨rfl, rfl⟩, rfl⟩

/-! ## Receiving -/

/-- What an answer within duty T3 makes of the state after the request (R164). -/
def received : ReceiveAnswer → State → State
  | .notOpen, u => fail .notOpen u
  | .deviceError, u => fail .deviceError u
  | .bufferFull, u => fail .bufferFull u
  | .pulses [], u => if u.rxCount.toNat = 0 then fail .noReply u else { u with phase := .tail }
  | .pulses (w :: ws), u => takePulses (w :: ws) u

/-- Phase `RECV` by the answer it gets: one within duty T3 is taken, any other has no step (R150, R164). -/
theorem phaseRecv_eq {s u : State} {a : ReceiveAnswer} (h : askReceive (receiveRoom s) s = (a, u)) :
    phaseRecv s =
      if a.withinDuty (receiveRoom s) = true then .next (received a u) else .refused .transportOverrun := by
  have hrx : u.rxCount = s.rxCount := by
    obtain ⟨tr, d, hst⟩ := askReceive_state (receiveRoom s) s
    rw [h] at hst
    simpa using congrArg State.rxCount hst
  rw [phaseRecv, h]
  match a with
  | .notOpen => rfl
  | .deviceError => rfl
  | .bufferFull => rfl
  | .pulses [] =>
    simp only [received, hrx, ReceiveAnswer.withinDuty, List.length_nil, Nat.zero_le, decide_true, if_true]
    split <;> rfl
  | .pulses (w :: ws) =>
    by_cases hduty : (w :: ws).length ≤ receiveRoom s
    · simp only [received, ReceiveAnswer.withinDuty, if_neg (Nat.not_lt.2 hduty), decide_eq_true hduty, if_true]
    · simp only [received, ReceiveAnswer.withinDuty, if_pos (Nat.lt_of_not_le hduty), decide_eq_false hduty,
        Bool.false_eq_true, if_false]

/-- A receive request with its answer: the next scripted one, or else a free one within duty T3 (R150; log 5). -/
theorem askReceive_spec (n : Nat) (s : State) :
    ∃ a tr d u, askReceive n s = (a, u) ∧
      u = { s with transport := tr, draws := d, requests := .receive n :: s.requests } ∧
      (∀ x rest, s.transport.receives = x :: rest →
        a = x ∧ tr = { s.transport with receives := rest } ∧ d = s.draws) ∧
      (s.transport.receives = [] → a.withinDuty n = true ∧ tr = s.transport ∧ d = s.draws + 1) := by
  cases h : s.transport.receives with
  | nil =>
    refine ⟨_, s.transport, s.draws + 1, _, ?_, rfl, nofun, fun _ => ⟨askReceive_free h, rfl, rfl⟩⟩
    simp only [askReceive, h, issue]
  | cons x rest =>
    refine ⟨x, { s.transport with receives := rest }, s.draws, _, ?_, rfl, ?_, nofun⟩
    · simp only [askReceive, h, issue]
    · rintro y rest' ⟨⟩
      exact ⟨rfl, rfl, rfl⟩

/-- Pulses within duty T3 are stored and counted (R164). -/
theorem takePulses_spec {s : State} (hcap : s.params.plsCap ≤ 32768) {ws : List Word}
    (hfits : ws.length ≤ receiveRoom s) (hrx : s.rxCount.toNat < s.params.plsCap - 1) :
    (takePulses ws s).rxCount.toNat = s.rxCount.toNat + ws.length ∧
    (takePulses ws s).mem = writePulses s.mem s.rxCount.toNat ws := by
  have hcount : (count16 (s.rxCount.toNat + ws.length)).toNat = s.rxCount.toNat + ws.length := by
    refine count16_toNat ?_
    unfold receiveRoom at hfits
    omega
  rw [takePulses_eq]
  split <;> exact ⟨hcount, rfl⟩

/-- Settles O45: the answer by `askReceive_spec`, what becomes of it by `received`. -/
theorem commandReceives : Obligations.CommandReceives := by
  intro s hP hmove hphase hrx
  obtain ⟨a, tr, d, u, hask, hu, hscript, hfree⟩ := askReceive_spec (receiveRoom s.popInput) s.popInput
  have hstep : step s = _ :=
    (step_of_blockMoves hmove).trans ((blockStep_recv (s := s.popInput) hphase).trans (phaseRecv_eq hask))
  refine ⟨fun x rest hx hover => ?_, fun hduty => ?_⟩
  · obtain ⟨rfl, -, -⟩ := hscript x rest hx
    exact hstep.trans (if_neg (by rw [receiveRoom]; simp [hover]))
  have ha : a.withinDuty (receiveRoom s.popInput) = true := by
    cases hr : s.transport.receives with
    | nil => exact (hfree hr).1
    | cons x rest =>
      obtain ⟨rfl, -, -⟩ := hscript x rest hr
      exact hduty a rest hr
  have hcount : u.rxCount = s.rxCount := by rw [hu]; rfl
  have hparams : u.params = s.params := by rw [hu]; rfl
  have hmem : u.mem = s.mem := by rw [hu]; rfl
  refine ⟨a, tr, d, u, _, hstep.trans (if_pos ha), ha, hscript, fun hr => (hfree hr).2, hu, ?_, ?_, ?_⟩
  · rintro c (⟨rfl, rfl⟩ | ⟨rfl, rfl⟩ | ⟨rfl, rfl⟩ | ⟨rfl, hzero, rfl⟩)
    · rfl
    · rfl
    · rfl
    · exact if_pos (by rw [hcount, hzero]; rfl)
  · rintro rfl hne
    exact if_neg fun h => hne (BitVec.eq_of_toNat_eq (hcount ▸ h))
  · rintro ws rfl hne
    obtain ⟨w, us, rfl⟩ := List.exists_cons_of_ne_nil hne
    have hfits : (w :: us).length ≤ receiveRoom u := by
      rw [receiveRoom, hparams, hcount]
      exact of_decide_eq_true ha
    obtain ⟨htaken, hstored⟩ :=
      takePulses_spec (hparams ▸ hP.plsCap_le) hfits (by rwa [hparams, hcount])
    rw [hcount] at htaken hstored
    rw [received, hstored, hmem]
    refine ⟨htaken, readPulses_writePulses_same .., fun x hx => readByte_writePulses_outside hx le_rfl, fun hfull => ?_,
      fun hroom => ?_⟩
    · rw [takePulses_eq, if_pos (by rwa [hparams, hcount]), hcount, hmem]
      rfl
    · rw [takePulses_eq, if_neg (by rwa [hparams, hcount]), hcount, hmem]

/-! ## The tail and the echo -/

/-- Settles O46: the tail is a mark of exactly ten bits for all legal parameters. -/
theorem commandAppendsTheTail : Obligations.CommandAppendsTheTail := by
  intro s hP hmove hphase
  have hle := hP.bitPeriod_le
  have hdur : dur (tailPulse s.params) = 10 * s.params.bitPeriod := dur_pulse (by simp only [Config.tailBits]; omega)
  refine ⟨_, (step_of_blockMoves hmove).trans (blockStep_tail (s := s.popInput) hphase), rfl,
    ⟨tailPulse s.params, readPulse_writePulse_same .., pol_tailPulse _, hdur, bitCount_tailPulse hP⟩, fun a ha => ?_⟩
  exact readByte_writePulses_outside (vs := [tailPulse s.params]) ha le_rfl

/-- Phase `CHECK` of an unpacked reply (R169): `Ok` exactly when its first byte is the complement of the opcode. -/
theorem phaseCheck_reply {s : State} {ds : List Byte} (hlen : s.rxBytes.toNat = 2 * ds.length + 5)
    (hds : readElems s.mem .rxd 0 ds.length = some ds) :
    phaseCheck s = .next (if ds.head? = some (complement s.txnOpcode) then finishWith ds.length .ok s
      else fail .recvError s) := by
  have hreply : replyLength s = ds.length := by
    unfold replyLength
    omega
  cases ds with
  | nil => exact if_pos hreply
  | cons b ds =>
    rw [phaseCheck_checks (hreply.trans_ne (Nat.succ_ne_zero _)) (readElems_cons hds).1, hreply]
    by_cases hb : b = complement s.txnOpcode <;> simp [hb]

/-- Settles O49: the first byte decides, as a number or as a byte. -/
theorem commandChecksTheEcho : Obligations.CommandChecksTheEcho := by
  intro s ds hmove hphase hlen hds
  have hstep : step s = _ :=
    (step_of_blockMoves hmove).trans ((blockStep_check (s := s.popInput) hphase).trans (phaseCheck_reply hlen hds))
  refine ⟨fun r hr hecho => ?_, fun hecho => ?_⟩
  · have hb : r = complement s.txnOpcode := (eq_complement_iff _ _).2 hecho
    exact hstep.trans (congrArg _ (if_pos (by rw [hr, hb]; rfl)))
  · exact hstep.trans (congrArg _ (if_neg fun h => hecho _ h ((eq_complement_iff _ _).1 rfl)))

end Sys2Proof.Machine
end

section
/-! Whole runs of COMMAND: an exchange with a Transport that delivers a reply (R160 to R169), and that every COMMAND
finishes (R171). -/

namespace Sys2Proof.Machine

/-! ## Several moves -/

/-- A run goes on after its first step, if there is a next state. -/
theorem run_step (n : Nat) (s : State) : run (n + 1) s = andThen (step s) (run n) := by
  have hcore : Sys2Proof.core.step s = step s := rfl
  simp only [run, Host.Core.run]
  rw [hcore]
  cases step s <;> rfl

theorem run_add {a : Nat} (b : Nat) {s t : State} (h : run a s = .next t) : run (a + b) s = run b t := by
  induction a generalizing s with
  | zero =>
    cases h
    rw [Nat.zero_add]
  | succ a ih =>
    rw [run_step] at h
    rw [Nat.add_right_comm, run_step]
    cases hs : step s with
    | next u =>
      rw [hs] at h
      exact ih h
    | fault r => rw [hs] at h; cases h
    | refused r => rw [hs] at h; cases h

/-- With no input the machine runs by moves of the block. -/
theorem run_blockStep {s t : State} (n : Nat) (h : blockStep s = .next t) (hi : s.inputs = []) :
    run (n + 1) s = run n t :=
  run_succ n s t ((step_nil hi).trans h)

section
variable {s : State}

/-! ## Sending a request -/

/-- The state after phase `ENC_PLS` of a legal request (R162). -/
def requestEncoded (op : Byte) (req : List Byte) (s : State) : State :=
  packetEncoded (packetOf req) (requestPacked op req s)

/-- The state after the send request, its answer scripted (R163). -/
def sentScript (ws : List Word) (more : List SendAnswer) (s : State) : State :=
  { s with transport := { s.transport with sends := more }, requests := .send ws :: s.requests, phase := .recv }

section
variable {op : Byte} {req : List Byte}

theorem packetOf_fits {P : Params} {ds : List Byte} (h : ds.length ≤ P.maxPayload) :
    (packetOf ds).length ≤ P.pktCap := by
  rw [packetOf_length, Params.pktCap]
  omega

theorem blockStep_request (hP : s.params.Legal) (hphase : s.phase = .encPkt) (hcmd : decode s.cmd = .ok .command)
    (hop : req.head? = some op) (hlen : req.length = lengthOperand s) (hmax : req.length ≤ s.params.maxPayload)
    (hreq : readElems s.mem .txd 0 req.length = some req) : blockStep s = .next (requestPacked op req s) :=
  (blockStep_encPkt hphase hcmd).trans (execCommand_request hP hop hlen hmax hreq)

theorem blockStep_requestPacked (hP : s.params.Legal) (hlen : req.length = lengthOperand s)
    (hmax : req.length ≤ s.params.maxPayload) :
    blockStep (requestPacked op req s) = .next (requestEncoded op req s) := by
  have hplen : (packetOf req).length = 2 * lengthOperand (requestPacked op req s) + 5 := by
    rw [packetOf_length, hlen]
    rfl
  refine (blockStep_encPls rfl).trans (phaseEncPls_packet hP (hplen.ge.trans (packetOf_fits hmax)) ?_)
  rw [← hplen, packetOf_length]
  exact readElems_packet ..

theorem readPulses_requestEncoded (hP : s.params.Legal) (hmax : req.length ≤ s.params.maxPayload) :
    readPulses (requestEncoded op req s).mem 0 (requestEncoded op req s).txCount.toNat =
      some (pulsesOf s.params (packetOf req)) :=
  (packetEncoded_pulses (s := requestPacked op req s) hP (packetOf_fits hmax)).2

end

theorem blockStep_send_script {ws : List Word} {x : SendAnswer} {more : List SendAnswer} (hphase : s.phase = .send)
    (hws : readPulses s.mem 0 s.txCount.toNat = some ws) (hx : s.transport.sends = x :: more) :
    blockStep s = .next (if x = .ok then sentScript ws more s else fail (sendCode x) (sentScript ws more s)) := by
  rw [blockStep_send hphase, phaseSend_asks hws]
  simp only [askSend, hx]
  split <;> rfl

/-! ## Receiving a reply -/

/-- Pulses written after those that stand in `PLS` follow them. -/
theorem readPulses_push {m : Memory} {n : Nat} {us ws : List Word} (h : readPulses m 0 n = some us) :
    readPulses (writePulses m n ws) 0 (n + ws.length) = some (us ++ ws) := by
  refine readPulses_add ?_ (by rw [Nat.zero_add]; exact readPulses_writePulses_same ..)
  rw [← h]
  refine readPulses_congr fun k hk => ?_
  rw [readPulse_writePulses, if_neg (by omega)]

/-- The state after a receive request that the script answers. -/
def askedScript (rest : List ReceiveAnswer) (s : State) : State :=
  { s with
    transport := { s.transport with receives := rest }, requests := .receive (receiveRoom s) :: s.requests }

/-- `RECV` with a scripted answer within duty T3. -/
theorem blockStep_recv_script {x : ReceiveAnswer} {rest : List ReceiveAnswer} (hphase : s.phase = .recv)
    (hr : s.transport.receives = x :: rest) (hduty : x.withinDuty (receiveRoom s) = true) :
    blockStep s = .next (received x (askedScript rest s)) := by
  obtain ⟨a, tr, d, u, hask, rfl, hscript, -⟩ := askReceive_spec (receiveRoom s) s
  obtain ⟨rfl, rfl, rfl⟩ := hscript x rest hr
  rw [blockStep_recv hphase, phaseRecv_eq hask, if_pos hduty]
  rfl

/-- A reply that arrives in any cut into non-empty answers, with room for it, stands in `PLS` when the quiet answer has
come (R164). -/
theorem run_receives {cuts : List (List Word)} {later : List ReceiveAnswer} {us : List Word} (hi : s.inputs = [])
    (hphase : s.phase = .recv) (hcap : s.params.plsCap ≤ 32768)
    (hr : s.transport.receives = cuts.map .pulses ++ .pulses [] :: later) (hne : ∀ c ∈ cuts, c ≠ [])
    (hus : readPulses s.mem 0 s.rxCount.toNat = some us) (hsome : us ++ cuts.flatten ≠ [])
    (hroom : (us ++ cuts.flatten).length < s.params.plsCap - 1) :
    ∃ t, run (cuts.length + 1) s = .next t ∧
      t = { s with
        mem := t.mem, rxCount := t.rxCount, transport := t.transport, requests := t.requests, phase := .tail } ∧
      readPulses t.mem 0 t.rxCount.toNat = some (us ++ cuts.flatten) := by
  have hcount : us.length = s.rxCount.toNat := ((readPulses_eq_some_iff ..).1 hus).1
  induction cuts generalizing s us with
  | nil =>
    rw [List.flatten_nil, List.append_nil] at hsome ⊢
    have hpos : s.rxCount.toNat ≠ 0 := hcount ▸ List.length_pos_iff.2 hsome |>.ne'
    refine ⟨{ askedScript later s with phase := .tail }, ?_, rfl, hus⟩
    rw [List.length_nil, run_blockStep 0 (blockStep_recv_script hphase hr (by simp [ReceiveAnswer.withinDuty])) hi]
    exact congrArg Host.Outcome.next (if_neg hpos)
  | cons c cuts ih =>
    obtain ⟨w, ws, rfl⟩ := List.exists_cons_of_ne_nil (hne _ List.mem_cons_self)
    have htotal : us ++ (w :: ws) ++ cuts.flatten = us ++ ((w :: ws) :: cuts).flatten := by simp
    rw [← htotal] at hroom ⊢
    have hlen := hroom
    rw [List.length_append, List.length_append] at hlen
    have hduty : (ReceiveAnswer.pulses (w :: ws)).withinDuty (receiveRoom s) = true := by
      refine decide_eq_true ?_
      unfold receiveRoom
      omega
    obtain ⟨u, hu⟩ : ∃ u, takePulses (w :: ws) (askedScript (cuts.map .pulses ++ .pulses [] :: later) s) = u := ⟨_, rfl⟩
    have hstored : u = { askedScript (cuts.map .pulses ++ .pulses [] :: later) s with
        mem := writePulses s.mem s.rxCount.toNat (w :: ws)
        rxCount := count16 (s.rxCount.toNat + (w :: ws).length) } := by
      rw [← hu, takePulses_eq]
      refine if_neg fun hfull => ?_
      have hfull : s.rxCount.toNat + (w :: ws).length = s.params.plsCap - 1 := hfull
      omega
    have hstep : blockStep s = .next u := by
      rw [← hu]
      exact blockStep_recv_script hphase hr hduty
    have hrx : u.rxCount.toNat = s.rxCount.toNat + (w :: ws).length := by
      rw [hstored]
      exact count16_toNat (by omega)
    have hread : readPulses u.mem 0 u.rxCount.toNat = some (us ++ (w :: ws)) := by
      rw [hrx, hstored]
      exact readPulses_push hus
    obtain ⟨t, hrun, ht, hm⟩ := ih (s := u) (us := us ++ (w :: ws)) (by rw [hstored]; exact hi)
      (by rw [hstored]; exact hphase) (by rw [hstored]; exact hcap) (by rw [hstored]; rfl)
      (fun c hc => hne c (List.mem_cons_of_mem _ hc)) hread (by simp) (by rw [hstored]; exact hroom)
      (by rw [hrx, List.length_append, hcount])
    refine ⟨t, ?_, ht.trans (by rw [hstored]; rfl), hm⟩
    rw [List.length_cons, run_blockStep _ hstep hi, hrun]

/-! ## Decoding a reply -/

/-- The tail finds the decoder at rest and leaves it so (R121, R165). -/
theorem decode1_tail_idle {P : Params} (hP : P.Legal) {d : Decoder} (hd : d.pos = 0) :
    decode1 P d (tailPulse P) = (d, DecOut.none) := by
  rw [decode1_tenMarks (pol_tailPulse P) (bitCount_tailPulse hP).ge,
    stepBits_mark_idle 10 _ (congrArg BitVec.toNat hd)]
  rfl

/-- The pulses of a byte sequence and the tail, decoded from position 0. -/
theorem decodeAll_burst {P : Params} (hP : P.Legal) (bs : List Byte) {d : Decoder} (hd : d.pos = 0) :
    (decodeAll P d (pulsesOf P bs ++ [tailPulse P])).1.pos = 0 ∧
    emitted (decodeAll P d (pulsesOf P bs ++ [tailPulse P])).2 = bs ∧
    clean (decodeAll P d (pulsesOf P bs ++ [tailPulse P])).2 := by
  obtain ⟨hpos, hbytes, hclean⟩ := decodeAll_pulsesOf hP bs d hd
  have htail : decodeAll P (decodeAll P d (pulsesOf P bs)).1 [tailPulse P] =
      ((decodeAll P d (pulsesOf P bs)).1, [DecOut.none]) := by
    simp only [decodeAll, decode1_tail_idle hP hpos]
  rw [decodeAll_append, htail]
  refine ⟨hpos, ?_, clean_append hclean ?_⟩
  · rw [emitted_append, hbytes]
    exact List.append_nil bs
  · rintro o ho
    rw [List.mem_singleton.1 ho]
    exact ⟨rfl, rfl, rfl⟩

/-- The state after phase `TAIL` (R165). -/
def tailAppended (s : State) : State :=
  { s with mem := writePulse s.mem s.rxCount.toNat (tailPulse s.params), phase := .decPls }

/-- The state after phase `DEC_PLS` of a clean burst that emitted the bytes bs (R166). -/
def burstDecoded (d : Decoder) (o : DecOut) (bs : List Byte) (s : State) : State :=
  { s with
    dec := d, decOut := o, rxBytes := count16 bs.length, mem := writeElems s.mem .pkt 0 bs, phase := .decPkt }

/-- The state after phase `DEC_PKT` of a packet with the payload ds (R168). -/
def replyUnpacked (ds : List Byte) (s : State) : State :=
  { s with mem := writeElems s.mem .rxd 0 ds, phase := .check }

/-- `DEC_PLS` of the pulses of bytes that fit, and the tail, leaves those bytes in `PKT` (R166). -/
theorem phaseDecPls_reply {bs : List Byte} (hP : s.params.Legal) (hrest : s.dec.pos = 0) (herr : s.txnErr = TxnErr.clear)
    (hfits : bs.length ≤ s.params.pktCap)
    (hws : readPulses s.mem 0 (s.rxCount.toNat + 1) = some (pulsesOf s.params bs ++ [tailPulse s.params])) :
    ∃ d o, d.pos = 0 ∧ phaseDecPls s = .next (burstDecoded d o bs s) := by
  obtain ⟨hpos, hbytes, hclean⟩ := decodeAll_burst hP bs hrest
  have hpkt := pktCap_le hP
  obtain ⟨u, hu⟩ : ∃ u, (pulsesOf s.params bs ++ [tailPulse s.params]).foldl decodeIntoPacket { s with rxBytes := 0 } = u :=
    ⟨_, rfl⟩
  have hstate := foldl_decodeIntoPacket_eq (pulsesOf s.params bs ++ [tailPulse s.params]) { s with rxBytes := 0 }
  obtain ⟨-, hdec, -⟩ :=
    foldl_decodeIntoPacket_fields (pulsesOf s.params bs ++ [tailPulse s.params]) { s with rxBytes := 0 }
  obtain ⟨hclear, hcount, hmem⟩ := foldl_decodeIntoPacket_clean (s := { s with rxBytes := 0 }) hclean
    (by simp only [hbytes]; simpa using hfits) (hpkt.trans_lt (by decide)) herr
  simp only [hu, hbytes] at hstate hdec hclear hcount hmem
  have hrx : u.rxBytes = count16 bs.length := by
    refine BitVec.eq_of_toNat_eq ?_
    rw [hcount, count16_toNat (by omega)]
    exact Nat.zero_add _
  refine ⟨u.dec, u.decOut, by rw [hdec]; exact hpos, ?_⟩
  rw [phaseDecPls_decodes hws hu, if_neg (by rw [hclear]; decide)]
  rw [hclear.trans herr.symm, hrx, hmem] at hstate
  rw [hstate]
  rfl

/-- From the phase `TAIL` on, with the pulses of the packet of a reply that fits received (R165 to R169). -/
theorem run_reply {reply : List Byte} (hi : s.inputs = []) (hphase : s.phase = .tail) (hP : s.params.Legal)
    (hrest : s.dec.pos = 0) (herr : s.txnErr = TxnErr.clear) (harg : reply.length ≤ s.arg1.toNat)
    (hmax : reply.length ≤ s.params.maxPayload)
    (hws : readPulses s.mem 0 s.rxCount.toNat = some (pulsesOf s.params (packetOf reply))) :
    ∃ u, run 4 s = .next (if reply.head? = some (complement s.txnOpcode) then finishWith reply.length .ok u
        else fail .recvError u) ∧
      u.dec.pos = 0 ∧ u.txnErr = TxnErr.clear ∧ u.txnOpcode = s.txnOpcode ∧
      readElems u.mem .rxd 0 reply.length = some reply := by
  have hpkt := pktCap_le hP
  have hfits : (packetOf reply).length ≤ s.params.pktCap := by
    rw [packetOf_length, Params.pktCap]
    omega
  have htail : readPulses (tailAppended s).mem 0 ((tailAppended s).rxCount.toNat + 1) =
      some (pulsesOf s.params (packetOf reply) ++ [tailPulse s.params]) :=
    readPulses_push (ws := [tailPulse s.params]) hws
  obtain ⟨d, o, hd, hdecPls⟩ := phaseDecPls_reply (s := tailAppended s) hP hrest herr hfits htail
  have hcount : (burstDecoded d o (packetOf reply) (tailAppended s)).rxBytes.toNat = 2 * reply.length + 5 := by
    rw [← packetOf_length]
    exact count16_toNat (by omega)
  have hunpack : phaseDecPkt (burstDecoded d o (packetOf reply) (tailAppended s)) =
      .next (replyUnpacked reply (burstDecoded d o (packetOf reply) (tailAppended s))) := by
    refine (phaseDecPkt_unpacks (c := .ok) (k := reply.length) ?_).trans (if_pos rfl)
    rw [hcount]
    exact unpack_packetOf (readElems_packet ..) (Nat.le_min.2 ⟨harg, hmax⟩) (payloadCap_le hP)
  refine ⟨replyUnpacked reply (burstDecoded d o (packetOf reply) (tailAppended s)), ?_, hd, herr, rfl,
    readElems_writeElems_same ..⟩
  have hstep1 : blockStep s = .next (tailAppended s) := blockStep_tail hphase
  have hstep2 : blockStep (tailAppended s) = .next (burstDecoded d o (packetOf reply) (tailAppended s)) :=
    (blockStep_decPls rfl).trans hdecPls
  have hstep3 : blockStep (burstDecoded d o (packetOf reply) (tailAppended s)) =
      .next (replyUnpacked reply (burstDecoded d o (packetOf reply) (tailAppended s))) :=
    (blockStep_decPkt rfl).trans hunpack
  have hstep4 := (blockStep_check (s := replyUnpacked reply (burstDecoded d o (packetOf reply) (tailAppended s)))
    rfl).trans (phaseCheck_reply hcount (readElems_writeElems_same ..))
  rw [run_blockStep 3 hstep1 hi, run_blockStep 2 hstep2 hi, run_blockStep 1 hstep3 hi, run_blockStep 0 hstep4 hi]
  rfl

end

/-- Settles O50: three moves to the sent request, one per answer, and four from the tail to the echo. -/
theorem commandExchange : Obligations.CommandExchange := by
  intro s req reply op cuts more later hP hi hphase hcmd hrest hop hlen hmax hreq harg hrmax hne hcuts hsend hrecv
  have hcap := hP.plsCap_ge
  have hfits : (packetOf reply).length ≤ s.params.pktCap := packetOf_fits hrmax
  have hlo := le_pulsesOf_length s.params (packetOf reply)
  have hhi := pulsesOf_length_le s.params (packetOf reply)
  rw [packetOf_length] at hfits hlo hhi
  have hstep1 := blockStep_request hP hphase hcmd hop hlen hmax hreq
  have hstep2 : blockStep (requestPacked op req s) = _ := blockStep_requestPacked hP hlen hmax
  have hstep3 := blockStep_send_script (s := requestEncoded op req s) rfl (readPulses_requestEncoded hP hmax) hsend
  rw [if_pos rfl] at hstep3
  obtain ⟨v, hrun, hv, hread⟩ := run_receives (us := [])
    (s := sentScript (pulsesOf s.params (packetOf req)) more (requestEncoded op req s)) hi rfl hP.plsCap_le hrecv hne
    rfl (List.ne_nil_of_length_pos (by rw [List.nil_append, hcuts]; omega))
    (by
      rw [List.nil_append, hcuts]
      refine lt_of_le_of_lt hhi ?_
      show _ < s.params.plsCap - 1
      omega)
  have hparams : v.params = s.params := by rw [hv]; rfl
  rw [List.nil_append, hcuts, ← hparams] at hread
  obtain ⟨u, hreply, hpos, herr, hopcode, hrxd⟩ := run_reply (by rw [hv]; exact hi) (by rw [hv]) (hparams ▸ hP)
    (by rw [hv]; exact hrest) (by rw [hv]; rfl) (by rw [hv]; exact harg) (hparams ▸ hrmax) hread
  have hv : v.txnOpcode = op := by rw [hv]; rfl
  have hall : run (cuts.length + 8) s = run 4 v := by
    rw [show cuts.length + 8 = cuts.length + 1 + 4 + 1 + 1 + 1 by omega, run_blockStep _ hstep1 hi,
      run_blockStep _ hstep2 hi, run_blockStep _ hstep3 hi, run_add 4 hrun]
  rw [hv] at hreply hopcode
  rw [hall, hreply, complement_eq_not]
  by_cases hecho : reply.head? = some (~~~op)
  · rw [if_pos hecho]
    refine ⟨_, rfl, rfl, rfl, hpos, herr, hopcode, hrxd, fun _ => ⟨rfl, ?_⟩, fun h => absurd hecho h⟩
    rw [finishWith_result, BitVec.toNat_ofNat, Nat.mod_eq_of_lt]
    exact harg.trans_lt s.arg1.isLt
  · rw [if_neg hecho]
    exact ⟨_, rfl, rfl, rfl, hpos, herr, hopcode, hrxd, fun h => absurd h hecho, fun _ => ⟨rfl, rfl⟩⟩

end Sys2Proof.Machine
end

section
/-! Every COMMAND finishes (R171): each of its moves ends it or leaves it fewer moves, and the only answer that has no
step is one that breaks duty T3. -/

namespace Sys2Proof.Machine

/-- How many moves a COMMAND still makes at most: one per phase, and in `RECV` one per pulse of the free room. -/
def State.movesLeft (s : State) : Nat :=
  match s.phase with
  | .idle => 0
  | .exec => 0
  | .encPkt => s.params.plsCap + 6
  | .encPls => s.params.plsCap + 5
  | .send => s.params.plsCap + 4
  | .recv => receiveRoom s + 4
  | .tail => 4
  | .decPls => 3
  | .decPkt => 2
  | .check => 1

/-- What a move that goes well makes of a COMMAND: it has ended, or is in a later phase with fewer moves to make. -/
def State.Progress (s t : State) : Prop :=
  t.busy = false ∨
  (t.phase ∉ [Phase.idle, .exec, .encPkt] ∧ t.movesLeft < s.movesLeft ∧
    ∀ a ∈ t.transport.receives, a ∈ s.transport.receives)

section
variable {s : State}

/-! ## The moves one by one -/

theorem execCommand_progress (h : s.Inv) (hphase : s.phase = .encPkt)
    (hreq : Written s.mem .txd 0 (min s.arg0.toNat s.params.maxPayload)) :
    ∃ t, execCommand s = .next t ∧ s.Progress t := by
  have hmax := h.params_legal.maxPayload_pos
  obtain hzero | ⟨hpos, hle⟩ | hlong :
      lengthOperand s = 0 ∨ (0 < lengthOperand s ∧ lengthOperand s ≤ s.params.maxPayload) ∨
        s.params.maxPayload < lengthOperand s := by omega
  · exact ⟨_, execCommand_refused hzero, .inl rfl⟩
  · have hmin : min s.arg0.toNat s.params.maxPayload = lengthOperand s := Nat.min_eq_left hle
    rw [hmin] at hreq
    obtain ⟨req, hreq⟩ := hreq
    have hlen := readElems_length hreq
    obtain ⟨op, more, rfl⟩ := List.exists_cons_of_length_pos (hlen ▸ hpos)
    rw [← hlen] at hreq
    refine ⟨_, execCommand_request h.params_legal rfl hlen (hlen ▸ hle) hreq, .inr ⟨by simp [requestPacked], ?_, ?_⟩⟩
    · simp only [State.movesLeft, hphase]
      exact Nat.lt_succ_self _
    · exact fun a ha => ha
  · have hlong' : s.params.maxPayload < s.arg0.toNat := hlong
    obtain ⟨op, hop⟩ := hreq.elem (j := 0) (by omega)
    exact ⟨_, execCommand_tooSmall (Nat.ne_zero_of_lt hlong) hop (pktCap_lt_of_maxPayload_lt hlong), .inl rfl⟩

theorem phaseEncPls_progress (h : s.Inv) (hphase : s.phase = .encPls) :
    ∃ t, phaseEncPls s = .next t ∧ s.Progress t := by
  have hready := h.command_ready
  simp only [State.CommandReady, hphase] at hready
  obtain ⟨-, -, hfits, bs, hbs⟩ := hready
  refine ⟨_, phaseEncPls_packet h.params_legal hfits hbs, .inr ⟨by simp [packetEncoded], ?_, fun a ha => ha⟩⟩
  simp only [State.movesLeft, hphase]
  exact Nat.lt_succ_self _

theorem askSend_receives (ws : List Word) (s : State) :
    (askSend ws s).2.transport.receives = s.transport.receives := by
  unfold askSend
  split <;> rfl

theorem phaseSend_progress (h : s.Inv) (hphase : s.phase = .send) : ∃ t, phaseSend s = .next t ∧ s.Progress t := by
  have hready := h.command_ready
  simp only [State.CommandReady, hphase] at hready
  obtain ⟨-, hrx, htx, ws, hws⟩ := hready
  rw [phaseSend_asks hws]
  obtain ⟨tr, d, hst⟩ := askSend_state ws s
  have hscript := askSend_receives ws s
  split
  next =>
    refine ⟨_, rfl, .inr ⟨by simp, ?_, fun a ha => ?_⟩⟩
    · rw [hst]
      simp only [State.movesLeft, hphase, receiveRoom]
      omega
    · exact hscript ▸ ha
  next => exact ⟨_, rfl, .inl rfl⟩

/-- `RECV` goes well, or the scripted answer breaks duty T3 (R150, R164). -/
theorem phaseRecv_progress (h : s.Inv) (hphase : s.phase = .recv) :
    (∃ t, phaseRecv s = .next t ∧ s.Progress t) ∨
    ∃ a rest, s.transport.receives = a :: rest ∧ a.withinDuty (receiveRoom s) = false ∧
      phaseRecv s = .refused .transportOverrun := by
  obtain ⟨hroom, -⟩ := h.receiveRoom_bounds hphase
  have hready := h.command_ready
  simp only [State.CommandReady, hphase] at hready
  obtain ⟨-, hrx, -⟩ := hready
  obtain ⟨a, tr, d, u, hask, hu, hscript, hfree⟩ := askReceive_spec (receiveRoom s) s
  have hrest : ∀ x ∈ u.transport.receives, x ∈ s.transport.receives := by
    rw [hu]
    cases hr : s.transport.receives with
    | nil =>
      obtain ⟨-, rfl, -⟩ := hfree hr
      rw [← hr]
      exact fun x hx => hx
    | cons x rest =>
      obtain ⟨-, rfl, -⟩ := hscript x rest hr
      exact fun y hy => List.mem_cons_of_mem _ hy
  have hprogress : ∀ t, t.phase = .tail → t.transport = u.transport → s.Progress t := fun t ht htr => by
    refine .inr ⟨by simp [ht], ?_, by rw [htr]; exact hrest⟩
    simp only [State.movesLeft, ht, hphase]
    omega
  rw [phaseRecv_eq hask]
  split
  next hduty =>
    refine .inl ⟨_, rfl, ?_⟩
    match a with
    | .notOpen => exact .inl rfl
    | .deviceError => exact .inl rfl
    | .bufferFull => exact .inl rfl
    | .pulses [] =>
      rw [received]
      split
      next => exact .inl rfl
      next => exact hprogress _ rfl rfl
    | .pulses (w :: ws) =>
      have hfits : (w :: ws).length ≤ receiveRoom s := of_decide_eq_true hduty
      rw [received, takePulses_eq]
      split
      next => exact .inl rfl
      next =>
        have hcap := h.params_legal.plsCap_le
        have hlen : (w :: ws).length = ws.length + 1 := rfl
        have hcount : (count16 (s.rxCount.toNat + (w :: ws).length)).toNat = s.rxCount.toNat + (w :: ws).length := by
          refine count16_toNat ?_
          unfold receiveRoom at hfits
          omega
        refine .inr ⟨by rw [hu]; simp [hphase], ?_, hrest⟩
        rw [hu]
        simp only [State.movesLeft, hphase, receiveRoom, hcount]
        unfold receiveRoom at hroom
        omega
  next hduty =>
    have hover : a.withinDuty (receiveRoom s) = false := Bool.eq_false_iff.2 hduty
    cases hr : s.transport.receives with
    | nil => exact absurd (hfree hr).1 hduty
    | cons x rest =>
      obtain ⟨rfl, -, -⟩ := hscript x rest hr
      exact .inr ⟨a, rest, rfl, hover, rfl⟩

theorem phaseDecPls_progress (h : s.Inv) (hphase : s.phase = .decPls) :
    ∃ t, phaseDecPls s = .next t ∧ s.Progress t := by
  have hready := h.command_ready
  simp only [State.CommandReady, hphase] at hready
  obtain ⟨-, -, -, ⟨ws, hws⟩, htail⟩ := hready
  have hall : readPulses s.mem 0 (s.rxCount.toNat + 1) = some (ws ++ [tailPulse s.params]) := by
    refine readPulses_add hws ?_
    rw [Nat.zero_add]
    simp only [readPulses, htail]
  obtain ⟨u, hu⟩ : ∃ u, (ws ++ [tailPulse s.params]).foldl decodeIntoPacket { s with rxBytes := 0 } = u := ⟨_, rfl⟩
  have hscript : u.transport = s.transport := by rw [← hu, foldl_decodeIntoPacket_eq]
  rw [phaseDecPls_decodes hall hu]
  split
  next => exact ⟨_, rfl, .inl rfl⟩
  next =>
    refine ⟨_, rfl, .inr ⟨by simp, by simp [State.movesLeft, hphase], ?_⟩⟩
    show ∀ a ∈ u.transport.receives, _
    rw [hscript]
    exact fun a ha => ha

theorem phaseDecPkt_progress (h : s.Inv) (hphase : s.phase = .decPkt) :
    ∃ t, phaseDecPkt s = .next t ∧ s.Progress t := by
  have hready := h.command_ready
  simp only [State.CommandReady, hphase] at hready
  obtain ⟨-, -, hwritten⟩ := hready
  obtain ⟨⟨m, c, k⟩, hu⟩ := unpack_some hwritten (payloadCap_le h.params_legal)
  rw [phaseDecPkt_unpacks hu]
  split
  next => exact ⟨_, rfl, .inr ⟨by simp, by simp [State.movesLeft, hphase], fun a ha => ha⟩⟩
  next => exact ⟨_, rfl, .inl rfl⟩

theorem phaseCheck_progress (h : s.Inv) (hphase : s.phase = .check) : ∃ t, phaseCheck s = .next t ∧ s.Progress t := by
  have hready := h.command_ready
  simp only [State.CommandReady, hphase] at hready
  obtain ⟨-, -, hlen, ds, hds⟩ := hready
  have hdl := readElems_length hds
  rw [← hdl] at hlen hds
  rw [phaseCheck_reply hlen hds]
  split <;> exact ⟨_, rfl, .inl rfl⟩

/-- A move of a COMMAND goes well, but for a scripted answer that breaks duty T3 (R171). -/
theorem blockStep_progress (h : s.Inv) (hphase : s.phase ∉ [Phase.idle, .exec])
    (hreq : s.phase = .encPkt → Written s.mem .txd 0 (min s.arg0.toNat s.params.maxPayload)) :
    (∃ t, blockStep s = .next t ∧ s.Progress t) ∨
    (s.phase = .recv ∧ ∃ a rest, s.transport.receives = a :: rest ∧ a.withinDuty (receiveRoom s) = false ∧
      blockStep s = .refused .transportOverrun) := by
  cases hp : s.phase with
  | idle => simp [hp] at hphase
  | exec => simp [hp] at hphase
  | encPkt =>
    have hcmd := (commandPhase_iff (by simp [hp]) (by simp [hp])).1 h.command_phase
    rw [blockStep_encPkt hp hcmd]
    exact .inl (execCommand_progress h hp (hreq hp))
  | encPls =>
    rw [blockStep_encPls hp]
    exact .inl (phaseEncPls_progress h hp)
  | send =>
    rw [blockStep_send hp]
    exact .inl (phaseSend_progress h hp)
  | recv =>
    rw [blockStep_recv hp]
    exact (phaseRecv_progress h hp).imp_right fun hover => ⟨rfl, hover⟩
  | tail =>
    rw [blockStep_tail hp]
    exact .inl ⟨_, rfl, .inr ⟨by simp, by simp [State.movesLeft, hp], fun a ha => ha⟩⟩
  | decPls =>
    rw [blockStep_decPls hp]
    exact .inl (phaseDecPls_progress h hp)
  | decPkt =>
    rw [blockStep_decPkt hp]
    exact .inl (phaseDecPkt_progress h hp)
  | check =>
    rw [blockStep_check hp]
    exact .inl (phaseCheck_progress h hp)

theorem movesLeft_le (s : State) : s.movesLeft ≤ s.params.plsCap + 7 := by
  unfold State.movesLeft receiveRoom
  split <;> omega

/-- The run of a COMMAND: by induction on the moves left. -/
theorem run_finishes {k : Nat} (hk : s.movesLeft ≤ k) (h : s.Inv) (hi : s.inputs = [])
    (hphase : s.phase ∉ [Phase.idle, .exec])
    (hreq : s.phase = .encPkt → Written s.mem .txd 0 (min s.arg0.toNat s.params.maxPayload)) :
    ∃ n, n ≤ k ∧ ((∃ t, run n s = .next t ∧ t.busy = false) ∨
      ∃ m u a rest, m < n ∧ run m s = .next u ∧ u.phase = .recv ∧ u.transport.receives = a :: rest ∧
        a ∈ s.transport.receives ∧ a.withinDuty (u.params.plsCap - 1 - u.rxCount.toNat) = false ∧
        run n s = .refused .transportOverrun) := by
  induction k generalizing s with
  | zero =>
    have hpos : 0 < s.movesLeft := by
      unfold State.movesLeft
      split <;> simp_all
    omega
  | succ k ih =>
    obtain ⟨t, ht, hend | ⟨hlater, hfewer, hscript⟩⟩ | ⟨hrecv, a, rest, hr, hover, hx⟩ :=
      blockStep_progress h hphase hreq
    · exact ⟨1, by omega, .inl ⟨t, run_blockStep 0 ht hi, hend⟩⟩
    · simp only [List.mem_cons, List.not_mem_nil, or_false, not_or] at hlater
      obtain ⟨hidle, hexec, hpkt⟩ := hlater
      obtain ⟨n, hn, hrun⟩ := ih (by omega) (blockStep_inv h ht) ((blockStep_inputs ht).trans hi)
        (by simp [hidle, hexec]) (fun hp => absurd hp hpkt)
      refine ⟨n + 1, by omega, ?_⟩
      rw [run_blockStep n ht hi]
      refine hrun.imp_right fun ⟨m, u, a, rest, hm, hu, hp, hr, ha, hover, hx⟩ =>
        ⟨m + 1, u, a, rest, by omega, by rw [run_blockStep m ht hi, hu], hp, hr, hscript a ha, hover, hx⟩
    · refine ⟨1, by omega, .inr ⟨0, s, a, rest, Nat.one_pos, rfl, hrecv, hr, ?_, hover, ?_⟩⟩
      · rw [hr]
        exact List.mem_cons_self
      · rw [run_step, step_nil hi, hx]
        rfl

end

/-- Settles O51: the moves left are at most PLS_CAP + 7. -/
theorem commandFinishes : Obligations.CommandFinishes := fun _ h hi hphase hreq =>
  run_finishes (movesLeft_le _) h hi hphase hreq

end Sys2Proof.Machine
end

section
/-! EXCHANGE (R90): where it stops, and its two whole runs. -/

namespace Sys2Proof.Machine

/-! ## Polling -/

theorem run_idle {s : State} (hi : s.inputs = []) (hidle : s.phase = .idle) (n : Nat) : run n s = .next s := by
  induction n with
  | zero => rfl
  | succ n ih => rw [run_blockStep n (blockStep_idle hidle) hi, ih]

/-- Polling finds the end of a run: up to the end the block is busy, and once idle it stays so. -/
theorem untilIdle_of_run {s t : State} {n fuel : Nat} (h : s.Inv) (hi : s.inputs = []) (hrun : run n s = .next t)
    (ht : t.busy = false) (hn : n ≤ fuel) : untilIdle fuel s = .next t := by
  induction n generalizing s fuel with
  | zero =>
    cases hrun
    exact untilIdle_idle ht fuel
  | succ n ih =>
    cases hb : s.busy with
    | false =>
      rw [run_idle hi (h.idle hb)] at hrun
      cases hrun
      exact untilIdle_idle hb fuel
    | true =>
      obtain ⟨fuel, rfl⟩ := Nat.exists_eq_add_of_le' (Nat.one_le_of_lt hn)
      rw [run_step, step_nil hi] at hrun
      cases hs : blockStep s with
      | next u =>
        rw [hs] at hrun
        rw [untilIdle_busy hb fuel hs]
        exact ih (blockStep_inv h hs) ((blockStep_inputs hs).trans hi) hrun (Nat.le_of_succ_le_succ hn)
      | fault r => rw [hs] at hrun; cases hrun
      | refused r => rw [hs] at hrun; cases hrun

/-! ## The link is open and reset -/

/-- The state after an OPEN that the script answers with a (R155). -/
def linkOpened (a : OpenAnswer) (opens : List OpenAnswer) (s : State) : State :=
  { s with
    cmd := encode .openLink, result := 0, code := openCode a, phase := .idle
    requests := .openLink :: s.requests, transport := { s.transport with opens := opens } }

/-- The state after a RESET that the script answers with a (R157). -/
def linkReset (a : ResetAnswer) (resets : List ResetAnswer) (s : State) : State :=
  { s with
    cmd := encode .resetLink, result := 0, code := resetCode a, phase := .idle
    requests := .resetLink :: s.requests, transport := { s.transport with resets := resets } }

/-- The state after CLOSE (R156). -/
def linkClosed (s : State) : State :=
  { s with cmd := encode .closeLink, result := 0, code := .ok, phase := .idle, requests := .closeLink :: s.requests }

/-- The state after OPEN and RESET have both ended with `Ok`. -/
def linkReady (opens : List OpenAnswer) (resets : List ResetAnswer) (s : State) : State :=
  linkReset .ok resets (linkOpened .ok opens s)

theorem openCode_ne_ok {a : OpenAnswer} (h : a ≠ .ok) : openCode a ≠ .ok := by
  cases a with
  | ok => exact absurd rfl h
  | _ => decide

theorem resetCode_ne_ok {a : ResetAnswer} (h : a ≠ .ok) : resetCode a ≠ .ok := by
  cases a with
  | ok => exact absurd rfl h
  | _ => decide

theorem sendCode_ne_ok {a : SendAnswer} (h : a ≠ .ok) : sendCode a ≠ .ok := by
  cases a with
  | ok => exact absurd rfl h
  | _ => decide

section
variable {s u : State} {fuel : Nat} {b : Byte} {bs : List Byte} {cap : Word} {opens : List OpenAnswer}
  {resets : List ResetAnswer} (hb : s.busy = false) (hf : 1 ≤ fuel)

include hb hf

theorem issueOperation_linkClosed : issueOperation fuel .closeLink s = .next (linkClosed s) :=
  issueOperation_close hb hf

/-- A failing OPEN ends the sequence (R90). -/
theorem exchange_openFails {a : OpenAnswer} (ho : s.transport.opens = a :: opens) (ha : a ≠ .ok) :
    exchange fuel b bs cap s = .next (linkOpened a opens s) := by
  have hopen : issueOperation fuel .openLink s = .next (linkOpened a opens s) := issueOperation_open hb hf ho
  have hcode : (linkOpened a opens s).code ≠ .ok := openCode_ne_ok ha
  rw [exchange, hopen, andThen, if_pos hcode]

/-- After a successful OPEN the sequence goes on with RESET (R90). -/
theorem exchange_opened {a : ResetAnswer} (ho : s.transport.opens = .ok :: opens) (hr : s.transport.resets = a :: resets) :
    exchange fuel b bs cap s =
      if resetCode a ≠ .ok then .next (linkClosed (linkReset a resets (linkOpened .ok opens s)))
      else andThen (issueCommand fuel (b :: bs) cap (linkReset a resets (linkOpened .ok opens s)))
        (issueOperation fuel .closeLink) := by
  have hopen : issueOperation fuel .openLink s = .next (linkOpened .ok opens s) := issueOperation_open hb hf ho
  have hreset : issueOperation fuel .resetLink (linkOpened .ok opens s) =
      .next (linkReset a resets (linkOpened .ok opens s)) :=
    issueOperation_reset (s := linkOpened .ok opens s) hb hf hr
  have hclose := issueOperation_linkClosed (s := linkReset a resets (linkOpened .ok opens s)) hb hf
  have hcode : ¬(linkOpened .ok opens s).code ≠ .ok := not_not.2 rfl
  rw [exchange, hopen, andThen, if_neg hcode, hreset, andThen, hclose]
  rfl

/-- A failing RESET ends it with CLOSE (R90). -/
theorem exchange_resetFails {a : ResetAnswer} (ho : s.transport.opens = .ok :: opens)
    (hr : s.transport.resets = a :: resets) (ha : a ≠ .ok) :
    exchange fuel b bs cap s = .next (linkClosed (linkReset a resets (linkOpened .ok opens s))) := by
  rw [exchange_opened hb hf ho hr, if_pos (resetCode_ne_ok ha)]

/-- With the link open and reset the COMMAND runs, and CLOSE follows (R90). -/
theorem exchange_closes (ho : s.transport.opens = .ok :: opens) (hr : s.transport.resets = .ok :: resets)
    (hu : issueCommand fuel (b :: bs) cap (linkReady opens resets s) = .next u) (hub : u.busy = false) :
    exchange fuel b bs cap s = .next (linkClosed u) := by
  have hcode : ¬resetCode .ok ≠ .ok := not_not.2 rfl
  rw [exchange_opened hb hf ho hr, if_neg hcode, ← linkReady, hu, andThen, issueOperation_linkClosed hub hf]

end

/-! ## The COMMAND of the sequence -/

section
variable {s : State} {req : List Byte} {cap : Word}

/-- The host has given COMMAND its request (R90). -/
theorem lengthOperand_commandStart (hP : s.params.Legal) (hmax : req.length ≤ s.params.maxPayload) :
    req.length = lengthOperand (commandStart req cap s) := by
  have hle := hP.maxPayload_le
  exact (Nat.mod_eq_of_lt (hmax.trans_lt (hle.trans_lt (by decide)))).symm

theorem State.Inv.commandStart (h : s.Inv) (hidle : s.phase = .idle) (hmax : req.length ≤ s.params.maxPayload) :
    (commandStart req cap s).Inv := by
  have hfits : 0 + req.length ≤ s.params.maxPayload := by rwa [Nat.zero_add]
  exact (h.hostWritten hidle (BitVec.ofNat 32 req.length) cap h.dec_pos (wf_writeElems _ .txd 0 req h.mem_wf)
    (h.mem_mapped.writeElems (b := .txd) req hfits)).started (encode .command)

theorem untilIdle_inv {n : Nat} {t : State} (h : s.Inv) (ht : untilIdle n s = .next t) : t.Inv := by
  induction n generalizing s with
  | zero =>
    cases ht
    exact h
  | succ n ih =>
    cases hb : s.busy with
    | false =>
      rw [untilIdle_idle hb] at ht
      cases ht
      exact h
    | true =>
      cases hs : blockStep s with
      | next u => exact ih (blockStep_inv h hs) (by rwa [untilIdle_busy hb n hs] at ht)
      | fault r => rw [untilIdle, if_pos hb, hs] at ht; cases ht
      | refused r => rw [untilIdle, if_pos hb, hs] at ht; cases ht

theorem issueOperation_inv {fuel : Nat} {i : Instr} {t : State} (h : s.Inv) (ht : issueOperation fuel i s = .next t) :
    t.Inv :=
  untilIdle_inv (hostWrite_inv h 0 (encode i)) ht

/-- A link that is open and reset by script is sound. -/
theorem State.Inv.linkReady (h : s.Inv) (hb : s.busy = false) {opens : List OpenAnswer} {resets : List ResetAnswer}
    (ho : s.transport.opens = .ok :: opens) (hr : s.transport.resets = .ok :: resets) :
    (linkReady opens resets s).Inv := by
  have hopened : (linkOpened .ok opens s).Inv := issueOperation_inv (fuel := 1) h (issueOperation_open hb le_rfl ho)
  exact issueOperation_inv (fuel := 1) hopened (issueOperation_reset hb le_rfl hr)

/-- A COMMAND whose send fails ends with the answer's code, three moves after its start (R163). -/
theorem issueCommand_sendFails {op : Byte} {x : SendAnswer} {more : List SendAnswer} {fuel : Nat} (hP : s.params.Legal)
    (hb : s.busy = false) (hop : req.head? = some op) (hmax : req.length ≤ s.params.maxPayload)
    (hx : s.transport.sends = x :: more) (hne : x ≠ .ok) (hf : 3 ≤ fuel) :
    issueCommand fuel req cap s =
      .next (fail (sendCode x)
        (sentScript (pulsesOf s.params (packetOf req)) more (requestEncoded op req (commandStart req cap s)))) := by
  have hlen := lengthOperand_commandStart (cap := cap) hP hmax
  have hstep1 := blockStep_request (s := commandStart req cap s) hP rfl (decode_encode .command) hop hlen hmax
    (readElems_writeElems_same ..)
  have hstep2 := blockStep_requestPacked (op := op) (s := commandStart req cap s) hP hlen hmax
  have hstep3 := blockStep_send_script (s := requestEncoded op req (commandStart req cap s)) rfl
    (readPulses_requestEncoded (s := commandStart req cap s) hP hmax) hx
  rw [if_neg hne] at hstep3
  obtain ⟨n, rfl⟩ := Nat.exists_eq_add_of_le' hf
  rw [issueCommand_eq hP hb _ cap hmax, untilIdle_busy rfl _ hstep1, untilIdle_busy rfl _ hstep2,
    untilIdle_busy rfl _ hstep3, untilIdle_idle rfl]
  rfl

/-- A COMMAND whose reply arrives ends not busy, with the reply in `RXD` (R168, R169). -/
theorem issueCommand_reply {reply : List Byte} {cuts : List (List Word)} {more : List SendAnswer}
    {later : List ReceiveAnswer} {fuel : Nat} (h : s.Inv) (hb : s.busy = false) (hi : s.inputs = [])
    (hrest : s.dec.pos = 0) (hreq : req ≠ []) (hmax : req.length ≤ s.params.maxPayload)
    (harg : reply.length ≤ cap.toNat) (hrmax : reply.length ≤ s.params.maxPayload) (hne : ∀ c ∈ cuts, c ≠ [])
    (hcuts : cuts.flatten = pulsesOf s.params (packetOf reply)) (hsend : s.transport.sends = .ok :: more)
    (hrecv : s.transport.receives = cuts.map .pulses ++ .pulses [] :: later) (hf : cuts.length + 8 ≤ fuel) :
    ∃ t, issueCommand fuel req cap s = .next t ∧ t.busy = false ∧ t.dec.pos = 0 ∧
      readElems t.mem .rxd 0 reply.length = some reply := by
  have hP := h.params_legal
  obtain ⟨op, tail, rfl⟩ := List.exists_cons_of_ne_nil hreq
  obtain ⟨t, hrun, htb, -, hpos, -, -, hrxd, -⟩ := commandExchange (commandStart (op :: tail) cap s) (op :: tail) reply op
    cuts more later hP hi rfl (decode_encode .command) hrest rfl (lengthOperand_commandStart hP hmax) hmax
    (readElems_writeElems_same ..) harg hrmax hne hcuts hsend hrecv
  refine ⟨t, ?_, htb, hpos, hrxd⟩
  rw [issueCommand_eq hP hb fuel cap hmax]
  exact untilIdle_of_run (h.commandStart (h.idle hb) hmax) hi hrun htb hf

end

/-- Settles O40: OPEN, RESET and CLOSE take one move each, and the COMMAND between them is the one of
`issueCommand_sendFails` or `issueCommand_reply`. -/
theorem exchangeStopsAtTheFirstFailure : Obligations.ExchangeStopsAtTheFirstFailure := by
  intro s fuel b bs cap hb hf
  refine ⟨?_, ?_, ?_, ?_, ?_⟩
  · intro a rest ho ha
    exact ⟨_, exchange_openFails hb hf ho ha, openCode_ne_ok ha, hb, rfl⟩
  · intro a rest rest' ho hr ha
    exact ⟨_, exchange_resetFails hb hf ho hr ha, rfl, hb, rfl⟩
  · intro rest rest' u ho hr hu hub
    exact exchange_closes hb hf ho hr hu hub
  · intro rest rest' x more hP ho hr hx hne hmax hfuel
    have hcommand := issueCommand_sendFails (s := linkReady rest rest' s) (cap := cap) hP hb rfl hmax hx hne hfuel
    exact ⟨_, exchange_closes hb hf ho hr hcommand rfl, rfl, rfl, rfl⟩
  · intro rest rest' more later cuts reply h hi hrest ho hr hsend hrecv hmax harg hrmax hne hcuts hfuel
    obtain ⟨t, hcommand, htb, hpos, hrxd⟩ := issueCommand_reply (h.linkReady hb ho hr) hb hi hrest
      (List.cons_ne_nil b bs) hmax harg hrmax hne hcuts hsend hrecv hfuel
    exact ⟨_, exchange_closes hb hf ho hr hcommand htb, rfl, htb, rfl, hrxd, hpos⟩

end Sys2Proof.Machine
end
